-- ==== Sys2Proof/Word.lean ====
section
/-! DEFINITION. The words of the machine (00_scope.md R9): bytes, 32-bit register words, bit strings. -/

namespace Sys2Proof

/-- A byte, an integer 0..255 (R9). -/
abbrev Byte := BitVec 8

/-- A 32-bit register value (R7, `REG_WIDTH`). -/
abbrev Word := BitVec 32

/-- A bit string, its first bit first; `true` is the bit 1 (R9). -/
abbrev Bits := List Bool

/-- The least `q` with `q * b ≥ a` for a positive `b` (R11). -/
def ceilDiv (a b : Nat) : Nat := (a + (b - 1)) / b

end Sys2Proof
end

