-- ==== Sys2Proof/Syntax.lean ====
section
/-! DEFINITION. The commands (30_encoding.md R131), one constructor per row of the opcode map. No command has an operand field
(R130): every operand is implicit. -/

namespace Sys2Proof

/-- The twelve commands of R131. -/
inductive Instr where
  | nop
  | compress
  | decompress
  | rleEncode
  | rleDecode
  | freqAnalyze
  | treeBuild
  | codeDerive
  | hdrSerialize
  | hdrParse
  | pack
  | unpack
  deriving DecidableEq, Repr

end Sys2Proof
end

