-- ==== Sys2Proof/Decode.lean ====
section
/-! DEFINITION. CMD32 (30_encoding.md R130 to R134): the decoder of a command word, total, refusing by name; then the encoder. -/

namespace Sys2Proof

/-- Why a word selects no command (R133). -/
inductive DecodeError where
  /-- Bits 31:8 (RSVD) are not zero. -/
  | reservedBits
  /-- RSVD is zero and OPCODE is none of the twelve values. -/
  | reservedOpcode
  deriving DecidableEq, Repr

/-- The opcode map of R131. -/
def opcodeMap : List (Byte × Instr) :=
  [(0x00, .nop), (0x01, .compress), (0x02, .decompress), (0x10, .rleEncode), (0x11, .rleDecode), (0x20, .freqAnalyze),
   (0x30, .treeBuild), (0x40, .codeDerive), (0x41, .hdrSerialize), (0x42, .hdrParse), (0x50, .pack), (0x51, .unpack)]

/-- The OPCODE field, bits 7:0 (R130). -/
def opcodeField (w : Word) : Byte := w.extractLsb' 0 8

/-- The RSVD field, bits 31:8 (R130). -/
def rsvdField (w : Word) : BitVec 24 := w.extractLsb' 8 24

/-- The command a word selects (R131, R133, R134). -/
def decode (w : Word) : Except DecodeError Instr :=
  if rsvdField w = 0 then
    match opcodeMap.find? (fun row => row.1 == opcodeField w) with
    | some row => .ok row.2
    | none => .error .reservedOpcode
  else .error .reservedBits

/-- The OPCODE of a command (R131). -/
def opcodeOf : Instr → Byte
  | .nop => 0x00
  | .compress => 0x01
  | .decompress => 0x02
  | .rleEncode => 0x10
  | .rleDecode => 0x11
  | .freqAnalyze => 0x20
  | .treeBuild => 0x30
  | .codeDerive => 0x40
  | .hdrSerialize => 0x41
  | .hdrParse => 0x42
  | .pack => 0x50
  | .unpack => 0x51

/-- The command word of a command: its OPCODE in bits 7:0 and RSVD = 0 (R130). -/
def encode (i : Instr) : Word := (opcodeOf i).setWidth 32

/-- The command an instruction of the opcode table decodes to, its bits given as a number. A command word is one 32-bit value
and no byte sequence (R111), so there is no byte order to undo; a number that does not fit 32 bits is no command word. -/
def decodeTableWord (_nbits w : Nat) : Option Instr :=
  if w < 2 ^ 32 then (decode (BitVec.ofNat 32 w)).toOption else none

end Sys2Proof
end

