-- ==== Sys2Proof/Config.lean ====
section
/-! DEFINITION. What a platform fixes (the OPEN parameters of R7) and the free values the spec leaves open. -/

namespace Sys2Proof

/-- The OPEN parameters of R7 that one instance sees. They are an argument of the model: the machine's state carries them
and no step changes them, so a statement about every state ranges over all their values (log entry 1). -/
structure Params where
  /-- `DMEM_SIZE`, the number of DMEM bytes. -/
  dmemSize : Nat
  /-- `REG_BASE`, the bus address of register offset 0. -/
  regBase : Nat
  /-- `DMEM_BASE`, the bus address of DMEM byte 0. -/
  dmemBase : Nat
  deriving DecidableEq, Repr

/-- The parameters `State.reset` carries. DESIGN CHOICE (log entry 1): the spec leaves all three OPEN; 0x1000 is the DMEM_SIZE
of its test vectors. Unsafe for a claim that rests on these numbers. -/
def Params.reference : Params := { dmemSize := 0x1000, regBase := 0x40000000, dmemBase := 0x50000000 }

/-! The free values. Each is a function of the instance's parameters, whose base addresses are all that tells one instance from another
(60_exceptions.md R429), and of the number of the draw: two instances of a well-formed platform are not tied to each other. That two
runs of one instance share their draws is the model's choice (log entries 2, 6). -/

/-- The arbitrary value a result register shows while BUSY = 1, one per draw (R43; log entry 6). -/
opaque Config.freeWord : Params → Nat → Word

/-- The arbitrary byte a host read of a busy command's destination range returns, one per draw (R114; log entry 6). -/
opaque Config.freeByte : Params → Nat → Byte

/-- How many host steps come between a command's issue and its completion, one per draw: any finite number (R465, R466;
log entry 3). -/
opaque Config.latency : Params → Nat → Nat

end Sys2Proof
end

