-- ==== Sys2Proof/Machine/State.lean ====
section
/-! DEFINITION. The state of one CORE instance (10_state.md R31), the reasons a step can stop, and the state after a hardware reset
(70_reset_and_hazards.md R450, R451). -/

namespace Sys2Proof.Machine

/-- A table with one entry per byte value, its length fixed by construction (R64, R69). -/
structure Table (α : Type) where
  entries : List α
  size : entries.length = 256
  deriving DecidableEq, Repr

/-- The table whose every entry is `a`. -/
def Table.const {α : Type} (a : α) : Table α := ⟨List.replicate 256 a, List.length_replicate⟩

/-- The frequency table, 256 counters of 32 bits (R64). -/
abbrev FreqTable := Table Word

/-- The code table, one bit string per byte value; the empty string means "no code" (R69). -/
abbrev CodeTable := Table Bits

/-- A node of the tree arena; children are arena indices (R31, R66). -/
inductive Node where
  | leaf (symbol : Byte) (freq : Word)
  | internal (left right : BitVec 9) (freq : Word)
  deriving DecidableEq, Repr

/-- DMEM: the cells that hold a byte, in rising address order. A cell that is not listed is INDET (R100, R451). -/
abbrev Memory := List Host.Cell

/-- A model fault (60_exceptions.md R430). -/
inductive ModelFault where
  /-- A host or engine read of the INDET cell `a`. -/
  | uninitRead (a : Nat)
  /-- A host write to byte `a` of the busy command's buffers. -/
  | hostWriteWhileBusy (a : Nat)
  deriving DecidableEq, Repr

/-- One thing the outside world does to the machine next. -/
inductive HostOp where
  /-- A bus read of `width` bytes at bus address `addr` (R160). -/
  | read (addr width : Nat)
  /-- A bus write of `width` bytes at bus address `addr` (R160). -/
  | write (addr width : Nat) (data : Word)
  /-- The loop `wait` of R161: read STATUS until bit 0 of the value read is 0. -/
  | wait
  /-- The block's reset input (R451; log entry 18). -/
  | hardReset
  deriving DecidableEq, Repr

/-- The state of one instance: R31's record, field for field and in its order, then the model's own fields. -/
structure State where
  /-- The OPEN parameters; no step changes them (R7; log entry 1). -/
  params : Params
  /-- CTRL.IRQ_EN (R35). -/
  ctrlIrqEn : Bool
  /-- STATUS.DONE (R39). -/
  stDone : Bool
  /-- STATUS.ERR (R39). -/
  stErr : Bool
  /-- STATUS.OVERRUN (R40). -/
  stOverrun : Bool
  /-- STATUS.INFO_EMPTY (R41). -/
  stInfoEmpty : Bool
  /-- STATUS.INFO_DEGENERATE (R41). -/
  stInfoDegenerate : Bool
  /-- STATUS.INFO_RUN_SPLIT (R41). -/
  stInfoRunSplit : Bool
  /-- STATUS.ERRCODE (R42, R400). -/
  stErrcode : BitVec 4
  /-- STATUS.STAGE (R42). -/
  stStage : BitVec 4
  /-- CMD, the last accepted command word (R44). -/
  cmd : Word
  /-- SRC_ADDR (R45). -/
  srcAddr : Word
  /-- SRC_LEN (R46). -/
  srcLen : Word
  /-- DST_ADDR (R47). -/
  dstAddr : Word
  /-- DST_CAP (R48). -/
  dstCap : Word
  /-- OUT_LEN (R49). -/
  outLen : Word
  /-- IN_USED (R50). -/
  inUsed : Word
  /-- BIT_COUNT (R51). -/
  bitCount : Word
  /-- FREQ_SEL.INDEX (R56). -/
  freqSel : BitVec 8
  /-- TREE_SEL.INDEX (R58). -/
  treeSel : BitVec 9
  /-- CODE_SEL.SYMBOL (R61). -/
  codeSelSym : BitVec 8
  /-- CODE_SEL.WORD (R61). -/
  codeSelWord : BitVec 3
  /-- The engine's state bit, STATUS.BUSY (R38, R63). -/
  busy : Bool
  /-- The frequency table (R64). -/
  freq : FreqTable
  /-- STATUS.FREQ_VALID (R64). -/
  freqValid : Bool
  /-- The tree arena (R66). -/
  nodes : List Node
  /-- The index of the root node (R66). -/
  root : BitVec 9
  /-- STATUS.TREE_VALID (R66). -/
  treeValid : Bool
  /-- The code table (R69). -/
  code : CodeTable
  /-- STATUS.CODE_VALID (R69). -/
  codeValid : Bool
  /-- The data memory (R100). -/
  dmem : Memory
  /-- The set of recorded model faults, strictly rising in `ModelFault.key` (R430; log entry 25). -/
  faults : List ModelFault
  /-- The model's own: the host operations still to perform, first one first (R160; log entry 4). -/
  program : List HostOp
  /-- The model's own: what the host's reads returned, newest first; `none` for a read with no value (log entries 5, 8). -/
  readLog : List (Option Word)
  /-- The model's own: the engine recorded UninitRead for the in-flight command and has no further step (R194; log entry 9). -/
  stalled : Bool
  /-- The model's own: host steps still to come before the in-flight command completes (R182, R466; log entry 3). -/
  delay : Nat
  /-- The model's own: how many free values have been drawn (log entry 6). -/
  draws : Nat
  deriving DecidableEq, Repr

/-- Why the machine stops with a fault. -/
inductive Fault where
  /-- Raised by `step` (its host turn) when the engine has no further step (R194) and the host program is over: BUSY stays 1 for
  good. Safe: hardware would go on with bytes the spec does not give. -/
  | engineStalled
  deriving DecidableEq, Repr

/-- Why a step is refused. -/
inductive Refusal where
  /-- Raised by `exec` alone, for a command that has no meaning yet. Safe. -/
  | notModelled (mnemonic : String)
  /-- Raised by `step` (its host turn) at a host access that R106 or R107 does not admit: the host has no step for it. Safe: the
  hardware's response is not specified (93_implementation_defined.md U8, U9; log entry 12). -/
  | hostAccessNotAdmitted
  deriving DecidableEq, Repr

/-- The machine right after a hardware reset on a platform `p` (R450, R451): every register field, table and cell at the spec's
reset value; the model's own fields at the values of log entries 3, 4, 5, 6 and 9. -/
def State.resetOn (p : Params) : State where
  params := p
  ctrlIrqEn := false
  stDone := false
  stErr := false
  stOverrun := false
  stInfoEmpty := false
  stInfoDegenerate := false
  stInfoRunSplit := false
  stErrcode := 0
  stStage := 0
  cmd := 0
  srcAddr := 0
  srcLen := 0
  dstAddr := 0
  dstCap := 0
  outLen := 0
  inUsed := 0
  bitCount := 0
  freqSel := 0
  treeSel := 0
  codeSelSym := 0
  codeSelWord := 0
  busy := false
  freq := Table.const 0
  freqValid := false
  nodes := []
  root := 0
  treeValid := false
  code := Table.const []
  codeValid := false
  dmem := []
  faults := []
  program := []
  readLog := []
  stalled := false
  delay := 0
  draws := 0

/-- The machine right after reset, on the reference platform (log entry 1). -/
def State.reset : State := State.resetOn Params.reference

end Sys2Proof.Machine
end

