-- ==== Sys2Proof/Machine/Flags.lean ====
section
/-! DEFINITION. Error codes, stages, the STATUS word and the interrupt output (10_state.md R37 to R43, 60_exceptions.md R400, R420). -/

namespace Sys2Proof.Machine

/-- The error kinds of R400. Codes 2 and 6 are assigned and never written (R401). -/
inductive ErrorKind where
  | emptyInput
  | runLengthOverflow
  | malformedRun
  | malformedHeader
  | truncatedStream
  | degenerateAlphabet
  | illegalCommand
  | rangeFault
  | bufferOverlap
  | outputOverflow
  | stateError
  | uncodedSymbol
  deriving DecidableEq, Repr

/-- The ERRCODE of an error kind (R400). -/
def errcodeOf : ErrorKind → BitVec 4
  | .emptyInput => 1
  | .runLengthOverflow => 2
  | .malformedRun => 3
  | .malformedHeader => 4
  | .truncatedStream => 5
  | .degenerateAlphabet => 6
  | .illegalCommand => 7
  | .rangeFault => 8
  | .bufferOverlap => 9
  | .outputOverflow => 10
  | .stateError => 11
  | .uncodedSymbol => 12

/-- The pipeline states of R42. -/
inductive Stage where
  | idle
  | rleEncoding
  | frequencyAnalysis
  | treeBuilding
  | codeDerivation
  | headerSerialization
  | bitPacking
  | done
  | headerParsing
  | bitUnpacking
  | rleExpansion
  deriving DecidableEq, Repr

/-- The STAGE value of a pipeline state (R42). -/
def stageCode : Stage → BitVec 4
  | .idle => 0
  | .rleEncoding => 1
  | .frequencyAnalysis => 2
  | .treeBuilding => 3
  | .codeDerivation => 4
  | .headerSerialization => 5
  | .bitPacking => 6
  | .done => 7
  | .headerParsing => 8
  | .bitUnpacking => 9
  | .rleExpansion => 10

/-- The three INFO bits a successful completion writes (R41). -/
structure Info where
  empty : Bool
  degenerate : Bool
  runSplit : Bool
  deriving DecidableEq, Repr

/-- No INFO bit set: what every command but COMPRESS, DECOMPRESS, RLE_ENCODE and TREE_BUILD writes on success (R41). -/
def Info.none : Info := ⟨false, false, false⟩

/-- A one-bit field at bit `k` of a register word. -/
def flagAt (b : Bool) (k : Nat) : Word := (BitVec.ofBool b).setWidth 32 <<< k

/-- A field whose least significant bit is bit `k` of a register word. -/
def fieldAt {w : Nat} (v : BitVec w) (k : Nat) : Word := v.setWidth 32 <<< k

/-- STATUS as R37 lays it out, from the state's values. -/
def statusWord (s : State) : Word :=
  flagAt s.busy 0 ||| flagAt s.stDone 1 ||| flagAt s.stErr 2 ||| flagAt s.stOverrun 3 |||
  flagAt s.stInfoEmpty 4 ||| flagAt s.stInfoDegenerate 5 ||| flagAt s.stInfoRunSplit 6 |||
  fieldAt s.stErrcode 8 ||| fieldAt s.stStage 16 |||
  flagAt s.freqValid 24 ||| flagAt s.treeValid 25 ||| flagAt s.codeValid 26

/-- The STATUS bits that read as arbitrary while BUSY = 1: 6:4, 11:8, 19:16 and 26:24 (R43). -/
def statusBusyMask : Word := 0x070F0F70

/-- STATUS as a read sees it: while busy the bits of R43 come from the draw `free`, the others are true. -/
def statusRead (s : State) (free : Word) : Word :=
  if s.busy then (statusWord s &&& ~~~statusBusyMask) ||| (free &&& statusBusyMask) else statusWord s

/-- The interrupt output (R420). OVERRUN does not assert it (R421). -/
def irq (s : State) : Bool := s.ctrlIrqEn && (s.stDone || s.stErr)

end Sys2Proof.Machine
end

