-- ==== Sys2Proof/Machine/Ops.lean ====
section
/-! DEFINITION. The named operations over DMEM, the tables and the registers; the completion of a command, its error branch being CORE's
analogue of taking an exception (60_exceptions.md R405), and the host's return from one (R407); issue and reset. -/

namespace Sys2Proof.Machine

/-! ## Tables -/

/-- The table whose entry for `b` is `f b`. -/
def Table.tabulate {α : Type} (f : Byte → α) : Table α :=
  ⟨(List.range 256).map (fun i => f (BitVec.ofNat 8 i)), by simp⟩

/-- The entry for byte value `b`. -/
def Table.get {α : Type} (t : Table α) (b : Byte) : α :=
  t.entries[b.toNat]'(by rw [t.size]; exact b.isLt)

/-- The 256 byte values in ascending order. -/
def allBytes : List Byte := (List.range 256).map (BitVec.ofNat 8)

/-! ## Data memory -/

/-- The byte in cell `a`, or `none` for INDET (R100). -/
def Memory.get : Memory → Nat → Option Byte
  | [], _ => none
  | (b, v) :: m, a => if a = b then some v else Memory.get m a

/-- `dmem[a] <- v` (R102), keeping the cells in rising address order. -/
def Memory.set : Memory → Nat → Byte → Memory
  | [], a, v => [(a, v)]
  | (b, w) :: m, a, v =>
    if a < b then (a, v) :: (b, w) :: m
    else if a = b then (a, v) :: m
    else (b, w) :: Memory.set m a v

/-- Every cell of `[lo, hi)` becomes INDET (R452). -/
def Memory.forget (m : Memory) (lo hi : Nat) : Memory :=
  m.filter (fun c => !(decide (lo ≤ c.1) && decide (c.1 < hi)))

/-- `MemRead(a, n)` (R102): the bytes, or the address of the first INDET cell (log entry 8). -/
def Memory.read (m : Memory) : Nat → Nat → Except Nat (List Byte)
  | _, 0 => .ok []
  | a, n + 1 =>
    match m.get a with
    | none => .error a
    | some v => (m.read (a + 1) n).map (v :: ·)

/-- `MemWrite(a, len(v), v)` (R102). -/
def Memory.write (m : Memory) : Nat → List Byte → Memory
  | _, [] => m
  | a, v :: vs => (m.set a v).write (a + 1) vs

/-- DMEM's canonical form: the listed addresses strictly rise (and every listed cell holds a byte, so none reads as an
unlisted one does). -/
abbrev Memory.wf (m : Memory) : Prop := m.Pairwise (fun c d => c.1 < d.1)

/-! ## Model faults -/

/-- The order in which `faults` lists its members (log entry 25). -/
def ModelFault.key : ModelFault → Nat
  | .uninitRead a => 2 * a
  | .hostWriteWhileBusy a => 2 * a + 1

/-- Adding a fault to a set of faults. -/
def ModelFault.insert (f : ModelFault) : List ModelFault → List ModelFault
  | [] => [f]
  | g :: gs =>
    if f.key < g.key then f :: g :: gs
    else if f.key = g.key then g :: gs
    else g :: ModelFault.insert f gs

/-- Record a model fault (R430). -/
def State.recordFault (s : State) (f : ModelFault) : State :=
  { s with faults := f.insert s.faults }

/-- The engine met the INDET cell `a` in its source (R194): the fault is recorded, `busy` stays 1 and the engine has no further
step. -/
def State.stallAt (s : State) (a : Nat) : State :=
  { s with faults := (ModelFault.uninitRead a).insert s.faults, stalled := true }

/-! ## Completion -/

/-- What a command does to one internal table (R188). -/
inductive Update (α : Type) where
  /-- The table is outside the write set. -/
  | keep
  /-- Its reset value, VALID = 0. -/
  | clear
  /-- New content, VALID = 1. -/
  | set (v : α)
  deriving DecidableEq, Repr

/-- The content after an update, `old` before and `reset` the reset value. -/
def Update.content {α : Type} (u : Update α) (old reset : α) : α :=
  match u with
  | .keep => old
  | .clear => reset
  | .set v => v

/-- The VALID bit after an update. -/
def Update.valid {α : Type} (u : Update α) (old : Bool) : Bool :=
  match u with
  | .keep => old
  | .clear => false
  | .set _ => true

/-- The content of the tree table: arena and root (R66). -/
structure Tree where
  nodes : List Node
  root : BitVec 9
  deriving DecidableEq, Repr

/-- The tree table's reset value (R66, R188). -/
def Tree.empty : Tree := ⟨[], 0⟩

/-- The updates of the three tables (R182). -/
structure TableUpdates where
  freq : Update FreqTable
  tree : Update Tree
  code : Update CodeTable
  deriving DecidableEq, Repr

/-- No table is touched. -/
def TableUpdates.none : TableUpdates := ⟨.keep, .keep, .keep⟩

/-- The tables a command rewrites or invalidates (R132, R188). -/
structure WriteSet where
  freq : Bool
  tree : Bool
  code : Bool
  deriving DecidableEq, Repr

/-- Every table of the write set to its reset value with VALID = 0 (R188). -/
def WriteSet.invalidate (w : WriteSet) : TableUpdates :=
  ⟨if w.freq then .clear else .keep, if w.tree then .clear else .keep, if w.code then .clear else .keep⟩

/-- `Ok(out, in_used, info, bit_count', updates)` of R182. -/
structure Success where
  out : List Byte
  inUsed : Nat
  info : Info
  bitCount : Option Nat
  updates : TableUpdates
  deriving DecidableEq, Repr

/-- The result of a command's pure function: `Err(code, stage)` or `Ok` (R182). -/
abbrev Result := Except (ErrorKind × Stage) Success

/-- Applying an `Ok` (R186). -/
def State.completeOk (s : State) (hasDest : Bool) (r : Success) : State :=
  { s with
    dmem := if hasDest then s.dmem.write s.dstAddr.toNat r.out else s.dmem
    outLen := if hasDest then BitVec.ofNat 32 r.out.length else 0
    inUsed := BitVec.ofNat 32 r.inUsed
    bitCount := match r.bitCount with
      | some n => BitVec.ofNat 32 n
      | none => s.bitCount
    freq := r.updates.freq.content s.freq (Table.const 0)
    freqValid := r.updates.freq.valid s.freqValid
    nodes := (r.updates.tree.content ⟨s.nodes, s.root⟩ Tree.empty).nodes
    root := (r.updates.tree.content ⟨s.nodes, s.root⟩ Tree.empty).root
    treeValid := r.updates.tree.valid s.treeValid
    code := r.updates.code.content s.code (Table.const [])
    codeValid := r.updates.code.valid s.codeValid
    stInfoEmpty := r.info.empty
    stInfoDegenerate := r.info.degenerate
    stInfoRunSplit := r.info.runSplit
    stErrcode := 0
    stStage := stageCode .done
    stDone := true
    busy := false }

/-- Applying an `Err`: CORE's analogue of taking an exception (R186, R187, R405). No DMEM byte is written and BIT_COUNT keeps its
value. -/
def State.completeError (s : State) (w : WriteSet) (e : ErrorKind) (g : Stage) : State :=
  { s with
    outLen := 0
    inUsed := 0
    freq := w.invalidate.freq.content s.freq (Table.const 0)
    freqValid := w.invalidate.freq.valid s.freqValid
    nodes := (w.invalidate.tree.content ⟨s.nodes, s.root⟩ Tree.empty).nodes
    root := (w.invalidate.tree.content ⟨s.nodes, s.root⟩ Tree.empty).root
    treeValid := w.invalidate.tree.valid s.treeValid
    code := w.invalidate.code.content s.code (Table.const [])
    codeValid := w.invalidate.code.valid s.codeValid
    stInfoEmpty := false
    stInfoDegenerate := false
    stInfoRunSplit := false
    stErrcode := errcodeOf e
    stStage := stageCode g
    stErr := true
    busy := false }

/-- The write-1-to-clear of STATUS: bits 1, 2 and 3 of the written word clear DONE, ERR and OVERRUN, and nothing else changes
(R37). This is the host's return from an error (R407). -/
def State.acknowledge (s : State) (v : Word) : State :=
  { s with
    stDone := s.stDone && !v.getLsbD 1
    stErr := s.stErr && !v.getLsbD 2
    stOverrun := s.stOverrun && !v.getLsbD 3 }

/-! ## Issue and reset -/

/-- An accepted write of `v` to CMD (R180). The latency of the command is drawn here (log entry 3). -/
def State.issue (s : State) (v : Word) : State :=
  { s with
    cmd := v
    busy := true
    stDone := false
    stErr := false
    delay := Config.latency s.params s.draws
    draws := s.draws + 1 }

/-- R450: every register field, the engine and the tables at their reset values. DMEM, `faults`, the parameters and the host's own
side (program, read log, draw count) are not part of it (log entry 17). -/
def State.resetBlock (s : State) : State :=
  { State.resetOn s.params with
    dmem := s.dmem
    faults := s.faults
    program := s.program
    readLog := s.readLog
    draws := s.draws }

/-- Hardware reset (R451): R450, and every DMEM cell INDET. `faults` is never cleared. -/
def State.hardwareReset (s : State) : State := { s.resetBlock with dmem := [] }

end Sys2Proof.Machine
end

