-- ==== Sys2Proof/Machine/Operands.lean ====
section
/-! DEFINITION. The implicit operands of the commands (30_encoding.md R132, 40_command_common.md R190), the generic prechecks in their
order (R183 to R185, R189), and the shared frame every command runs in (R182, R186, R191, R194). -/

namespace Sys2Proof.Machine

/-- The internal tables a command can require to be valid (R185). -/
inductive Prereq where
  | freqTable
  | tree
  | codeTable
  deriving DecidableEq, Repr

/-- One row of R132 and R190. -/
structure Shape where
  /-- The command reads `MemRead(src_addr, src_len)`. -/
  source : Bool
  /-- The command may write `[dst_addr, dst_addr + dst_cap)`. -/
  dest : Bool
  /-- The table validity it needs. -/
  prereq : Option Prereq
  /-- The tables it rewrites or invalidates. -/
  writes : WriteSet
  /-- The stage of its OutputOverflow. -/
  overflowStage : Stage
  deriving DecidableEq, Repr

/-- R132 and R190, row by row. (The stage of OutputOverflow means nothing for a command without a destination.) -/
def shapeOf : Instr → Shape
  | .nop => ⟨false, false, none, ⟨false, false, false⟩, .idle⟩
  | .compress => ⟨true, true, none, ⟨true, true, true⟩, .bitPacking⟩
  | .decompress => ⟨true, true, none, ⟨true, true, true⟩, .rleExpansion⟩
  | .rleEncode => ⟨true, true, none, ⟨false, false, false⟩, .rleEncoding⟩
  | .rleDecode => ⟨true, true, none, ⟨false, false, false⟩, .rleExpansion⟩
  | .freqAnalyze => ⟨true, false, none, ⟨true, false, false⟩, .idle⟩
  | .treeBuild => ⟨false, false, some .freqTable, ⟨false, true, false⟩, .treeBuilding⟩
  | .codeDerive => ⟨false, false, some .tree, ⟨false, false, true⟩, .idle⟩
  | .hdrSerialize => ⟨false, true, some .codeTable, ⟨false, false, false⟩, .headerSerialization⟩
  | .hdrParse => ⟨true, false, none, ⟨false, true, true⟩, .headerParsing⟩
  | .pack => ⟨true, true, some .codeTable, ⟨false, false, false⟩, .bitPacking⟩
  | .unpack => ⟨true, true, some .tree, ⟨false, false, false⟩, .bitUnpacking⟩

/-- The first address past the source range, an unbounded integer (R183). -/
def srcEnd (s : State) : Nat := s.srcAddr.toNat + s.srcLen.toNat

/-- The first address past the destination range, an unbounded integer (R183). -/
def dstEnd (s : State) : Nat := s.dstAddr.toNat + s.dstCap.toNat

/-- `a` lies in the source range `[src_addr, src_addr + src_len)`. -/
def inSource (s : State) (a : Nat) : Bool := decide (s.srcAddr.toNat ≤ a) && decide (a < srcEnd s)

/-- `a` lies in the destination range `[dst_addr, dst_addr + dst_cap)`. -/
def inDest (s : State) (a : Nat) : Bool := decide (s.dstAddr.toNat ≤ a) && decide (a < dstEnd s)

/-- Both ranges are non-empty and intersect (R184). -/
def buffersOverlap (s : State) : Bool :=
  decide (0 < s.srcLen.toNat) && decide (0 < s.dstCap.toNat) &&
  decide (s.srcAddr.toNat < dstEnd s) && decide (s.dstAddr.toNat < srcEnd s)

/-- The prerequisite holds (R185). -/
def prereqHolds (p : Option Prereq) (s : State) : Bool :=
  match p with
  | none => true
  | some .freqTable => s.freqValid
  | some .tree => s.treeValid
  | some .codeTable => s.codeValid

/-- Checks 2 to 5 of R189, the first that fails; they read no DMEM and report STAGE 0. -/
def precheck (sh : Shape) (s : State) : Option ErrorKind :=
  if sh.source && decide (s.params.dmemSize < srcEnd s) then some .rangeFault
  else if sh.dest && decide (s.params.dmemSize < dstEnd s) then some .rangeFault
  else if sh.source && sh.dest && buffersOverlap s then some .bufferOverlap
  else if prereqHolds sh.prereq s then none
  else some .stateError

/-- `srcbytes` of R182: `MemRead(src_addr, src_len)` for a command with a source, no bytes for one without. -/
def sourceBytes (sh : Shape) (s : State) : Except Nat (List Byte) :=
  if sh.source then s.dmem.read s.srcAddr.toNat s.srcLen.toNat else .ok []

/-- Check 7 of R189: an output longer than `dst_cap` is OutputOverflow at the command's stage (R191). -/
def checkOverflow (sh : Shape) (s : State) (r : Result) : Result :=
  match r with
  | .error e => .error e
  | .ok ok => if sh.dest && decide (s.dstCap.toNat < ok.out.length) then .error (.outputOverflow, sh.overflowStage) else .ok ok

/-- R186: apply a command's result. -/
def applyResult (sh : Shape) (s : State) (r : Result) : State :=
  match r with
  | .error e => s.completeError sh.writes e.1 e.2
  | .ok ok => s.completeOk sh.dest ok

/-- The completion step of a command of shape `sh` whose pure function on the source bytes is `body` (R182, R189): prechecks, the
source read (an INDET cell stalls the engine, R194), the data checks of `body`, the overflow check, the result. -/
def runCommand (sh : Shape) (body : List Byte → Result) (s : State) : Host.Outcome State Fault Refusal :=
  match precheck sh s with
  | some e => .next (s.completeError sh.writes e .idle)
  | none =>
    match sourceBytes sh s with
    | .error a => .next (s.stallAt a)
    | .ok bytes => .next (applyResult sh s (checkOverflow sh s (body bytes)))

/-- The completion of an illegal command word (R193): the error branch with an empty write set. -/
def completeIllegal (s : State) : State := s.completeError ⟨false, false, false⟩ .illegalCommand .idle

end Sys2Proof.Machine
end

