-- ==== Sys2Proof/Machine/Common.lean ====
section
/-! DEFINITION. NOP (40_command_common.md R192). -/

namespace Sys2Proof.Machine

/-- `Exec` of NOP (R192). -/
def nopResult : Result := .ok ⟨[], 0, Info.none, none, TableUpdates.none⟩

/-- NOP (R192). -/
def execNop (s : State) : Host.Outcome State Fault Refusal := runCommand (shapeOf .nop) (fun _ => nopResult) s

end Sys2Proof.Machine
end

