-- ==== Sys2Proof/Machine/Bits.lean ====
section
/-! DEFINITION. Bit packing and stream integers (30_encoding.md R147, R150, R151; 00_scope.md R11). -/

namespace Sys2Proof.Machine

/-- Byte `j` of `bytes_of_bits(s)`: bits `8j .. 8j+7`, most significant first, zeros past the end of `s` (R150). -/
def packedByte (s : Bits) (j : Nat) : Byte :=
  BitVec.ofNat 8 (((List.range 8).map (fun i => (s.getD (8 * j + i) false).toNat <<< (7 - i))).sum)

/-- `bytes_of_bits(s)` (R150). -/
def bytesOfBits (s : Bits) : List Byte := (List.range (ceilDiv s.length 8)).map (packedByte s)

/-- `bit_at(bytes, i)` (R151). -/
def bitAt (bytes : List Byte) (i : Nat) : Bool := (bytes.getD (i / 8) 0).getLsbD (7 - i % 8)

/-- The first `n` bits of a packed byte list. -/
def bitsOfBytes (bytes : List Byte) (n : Nat) : Bits := (List.range n).map (bitAt bytes)

/-- `be32(v)` (R11, R147). -/
def be32 (v : Nat) : List Byte :=
  [BitVec.ofNat 8 (v >>> 24), BitVec.ofNat 8 (v >>> 16), BitVec.ofNat 8 (v >>> 8), BitVec.ofNat 8 v]

/-- `rd_be32(b)` (R11): the value of a big-endian byte list. -/
def rdBe32 (b : List Byte) : Nat := b.foldl (fun v x => v * 256 + x.toNat) 0

end Sys2Proof.Machine
end

