-- ==== Sys2Proof/Machine/BitUnpacker.lean ====
section
/-! DEFINITION. bit_unpacker (46_bit_unpacker.md): UNPACK. -/

namespace Sys2Proof.Machine

/-- The walk of R310 over the bits still to read, at node `cur`; `none` is TruncatedStream. A valid tree never leads off an
Internal node (R310); an arena that breaks R67 is no state of the machine, and the walk there ends as one that cannot go on (log
entry 14). -/
def walkBits (t : Tree) : Bits → Nat → Option (List Byte)
  | [], cur => if cur = t.root.toNat then some [] else none
  | bit :: bits, cur =>
    match t.nodes[cur]? with
    | some (.internal l r _) =>
      let next := (if bit then r else l).toNat
      match t.nodes[next]? with
      | some (.leaf x _) => (walkBits t bits t.root.toNat).map (x :: ·)
      | _ => walkBits t bits next
    | _ => none

/-- `unpack(P, bc, nodes, root)`: the symbols; `none` is TruncatedStream (R310). The bytes used are `ceil_div(bc, 8)`. -/
def unpackBits (p : List Byte) (bc : Nat) (t : Tree) : Option (List Byte) :=
  if p.length < ceilDiv bc 8 then none else walkBits t (bitsOfBytes p bc) t.root.toNat

/-- `Exec` of UNPACK on its source bytes, BIT_COUNT and the tree (R312). -/
def unpackResult (bc : Nat) (t : Tree) (p : List Byte) : Result :=
  match unpackBits p bc t with
  | none => .error (.truncatedStream, .bitUnpacking)
  | some out => .ok ⟨out, ceilDiv bc 8, Info.none, none, TableUpdates.none⟩

/-- UNPACK (R312). -/
def execUnpack (s : State) : Host.Outcome State Fault Refusal :=
  runCommand (shapeOf .unpack) (unpackResult s.bitCount.toNat ⟨s.nodes, s.root⟩) s

end Sys2Proof.Machine
end

