-- ==== Sys2Proof/Machine/BitPacker.lean ====
section
/-! DEFINITION. bit_packer (45_bit_packer.md): PACK. -/

namespace Sys2Proof.Machine

/-- The concatenation of the codes of a symbol list, in input order (R290). -/
def codeBits (syms : List Byte) (c : CodeTable) : Bits := syms.flatMap c.get

/-- `pack(I, c)`: the packed bytes and the bit count; `none` is UncodedSymbol (R290). -/
def packBits (syms : List Byte) (c : CodeTable) : Option (List Byte × Nat) :=
  if syms.any (fun x => (c.get x).isEmpty) then none
  else some (bytesOfBits (codeBits syms c), (codeBits syms c).length)

/-- `Exec` of PACK on its source symbols and the code table (R292). -/
def packResult (c : CodeTable) (syms : List Byte) : Result :=
  match packBits syms c with
  | none => .error (.uncodedSymbol, .bitPacking)
  | some (p, bc) => .ok ⟨p, syms.length, Info.none, some bc, TableUpdates.none⟩

/-- PACK (R292). -/
def execPack (s : State) : Host.Outcome State Fault Refusal := runCommand (shapeOf .pack) (packResult s.code) s

end Sys2Proof.Machine
end

