-- ==== Sys2Proof/Machine/CodeTable.lean ====
section
/-! DEFINITION. code_table_rom (44_code_table_rom.md): CODE_DERIVE, HDR_SERIALIZE and HDR_PARSE. -/

namespace Sys2Proof.Machine

/-! ## Code derivation -/

/-- The table with the entry of `b` replaced. -/
def Table.put {α : Type} (t : Table α) (b : Byte) (v : α) : Table α :=
  ⟨t.entries.set b.toNat v, by rw [List.length_set, t.size]⟩

/-- The explicit-stack traversal of R260. The first number bounds the pops: in a valid tree each node is popped once, so the
number of nodes suffices (log entry 14). -/
def deriveLoop (nodes : List Node) : Nat → List (Nat × Bits) → CodeTable → CodeTable
  | fuel + 1, (n, path) :: stack, c =>
    match nodes[n]? with
    | some (.leaf x _) => deriveLoop nodes fuel stack (c.put x path)
    | some (.internal l r _) => deriveLoop nodes fuel ((l.toNat, path ++ [false]) :: (r.toNat, path ++ [true]) :: stack) c
    | none => deriveLoop nodes fuel stack c
  | _, _, c => c

/-- `derive_codes(nodes, root)` (R260). -/
def deriveCodes (t : Tree) : CodeTable := deriveLoop t.nodes t.nodes.length [(t.root.toNat, [])] (Table.const [])

/-- `Exec` of CODE_DERIVE on the tree (R261). -/
def codeDeriveResult (t : Tree) : Result := .ok ⟨[], 0, Info.none, none, ⟨.keep, .keep, .set (deriveCodes t)⟩⟩

/-- CODE_DERIVE (R261). -/
def execCodeDerive (s : State) : Host.Outcome State Fault Refusal :=
  runCommand (shapeOf .codeDerive) (fun _ => codeDeriveResult ⟨s.nodes, s.root⟩) s

/-! ## Header serialization -/

/-- The coded symbols, ascending: `S` of R263. -/
def codedSymbols (c : CodeTable) : List Byte := allBytes.filter (fun x => !(c.get x).isEmpty)

/-- `entry(x)` of R144. -/
def headerEntry (c : CodeTable) (x : Byte) : List Byte :=
  [x, BitVec.ofNat 8 (c.get x).length] ++ bytesOfBits (c.get x)

/-- `serialize_header(c)` (R263). -/
def serializeHeader (c : CodeTable) : List Byte :=
  [BitVec.ofNat 8 ((codedSymbols c).length - 1)] ++ (codedSymbols c).flatMap (headerEntry c)

/-- `Exec` of HDR_SERIALIZE on the code table (R265). -/
def hdrSerializeResult (c : CodeTable) : Result := .ok ⟨serializeHeader c, 0, Info.none, none, TableUpdates.none⟩

/-- HDR_SERIALIZE (R265). -/
def execHdrSerialize (s : State) : Host.Outcome State Fault Refusal :=
  runCommand (shapeOf .hdrSerialize) (fun _ => hdrSerializeResult s.code) s

/-! ## Header parsing -/

/-- A node of the tree `T` that `parse_header` builds: `Open(left, right)` or `Leaf` (R270). -/
inductive Slot where
  | branch (left right : Option Nat)
  | leaf (symbol : Byte)
  deriving DecidableEq, Repr

/-- `parse_header`'s variables between two entries (R270): the bytes not read yet, `pos`, `T`, `c`, and `prev + 1`. -/
structure ParseState where
  rest : List Byte
  pos : Nat
  arena : List Slot
  code : CodeTable
  least : Nat
  deriving DecidableEq, Repr

/-- `next()` repeated `k` times (R270): the bytes and what follows them, or TruncatedStream. -/
def takeBytes (k : Nat) (h : List Byte) : Except ErrorKind (List Byte × List Byte) :=
  if h.length < k then .error .truncatedStream else .ok (h.take k, h.drop k)

/-- The child of a branch that a code bit selects: 0 left, 1 right. -/
def childOf (bit : Bool) (left right : Option Nat) : Option Nat := if bit then right else left

/-- The branch with that child set to `n`. -/
def withChild (bit : Bool) (left right : Option Nat) (n : Nat) : Slot :=
  if bit then .branch left (some n) else .branch (some n) right

/-- The walk of one code from node `cur`, creating missing nodes while the arena has fewer than `limit` (checks H3 and H4 of
R270); it answers the arena and the node where the code ends. -/
def descend (limit : Nat) : Bits → List Slot → Nat → Except ErrorKind (List Slot × Nat)
  | [], t, cur => .ok (t, cur)
  | bit :: bits, t, cur =>
    match t[cur]? with
    | some (.branch l r) =>
      match childOf bit l r with
      | some child => descend limit bits t child
      | none =>
        if t.length = limit then .error .malformedHeader
        else descend limit bits (t.set cur (withChild bit l r t.length) ++ [.branch none none]) t.length
    | _ => .error .malformedHeader

/-- The end of a code (check H5 of R270): the node must be a fresh one, and becomes the leaf of `x`. -/
def plantLeaf (t : List Slot) (cur : Nat) (x : Byte) : Except ErrorKind (List Slot) :=
  if t[cur]? = some (.branch none none) then .ok (t.set cur (.leaf x)) else .error .malformedHeader

/-- One turn of the `repeat n times` loop of R270. -/
def parseEntry (limit : Nat) (p : ParseState) : Except ErrorKind ParseState :=
  match p.rest with
  | [] => .error .truncatedStream
  | x :: rest1 =>
    if x.toNat < p.least then .error .malformedHeader
    else
      match rest1 with
      | [] => .error .truncatedStream
      | len :: rest2 =>
        if len = 0 then .error .malformedHeader
        else
          match takeBytes (ceilDiv len.toNat 8) rest2 with
          | .error e => .error e
          | .ok (cb, rest3) =>
            let bits := bitsOfBytes cb len.toNat
            match descend limit bits p.arena 0 with
            | .error e => .error e
            | .ok (t, cur) =>
              match plantLeaf t cur x with
              | .error e => .error e
              | .ok t' => .ok ⟨rest3, p.pos + 2 + cb.length, t', p.code.put x bits, x.toNat + 1⟩

/-- The `repeat n times` loop of R270. -/
def parseEntries (limit : Nat) : Nat → ParseState → Except ErrorKind ParseState
  | 0, p => .ok p
  | n + 1, p =>
    match parseEntry limit p with
    | .error e => .error e
    | .ok p' => parseEntries limit n p'

/-- The node a slot becomes, frequency 0; `none` for a branch that lacks a child (check H6 of R270, R275). -/
def closeSlot : Slot → Option Node
  | .leaf x => some (.leaf x 0)
  | .branch (some l) (some r) => some (.internal (BitVec.ofNat 9 l) (BitVec.ofNat 9 r) 0)
  | .branch _ _ => none

/-- What `parse_header` returns (R270). -/
structure ParsedHeader where
  tree : Tree
  code : CodeTable
  used : Nat
  deriving DecidableEq, Repr

/-- `parse_header(h)` (R270). The check H6 is kept as a defensive one (R271). -/
def parseHeader (h : List Byte) : Except ErrorKind ParsedHeader :=
  match h with
  | [] => .error .truncatedStream
  | n1 :: rest =>
    let n := n1.toNat + 1
    match parseEntries (2 * n - 1) n ⟨rest, 1, [.branch none none], Table.const [], 0⟩ with
    | .error e => .error e
    | .ok p =>
      match p.arena.mapM closeSlot with
      | none => .error .malformedHeader
      | some nodes => .ok ⟨⟨nodes, 0⟩, p.code, p.pos⟩

/-- `Exec` of HDR_PARSE on its source bytes (R272). -/
def hdrParseResult (h : List Byte) : Result :=
  match parseHeader h with
  | .error e => .error (e, .headerParsing)
  | .ok p => .ok ⟨[], p.used, Info.none, none, ⟨.keep, .set p.tree, .set p.code⟩⟩

/-- HDR_PARSE (R272). -/
def execHdrParse (s : State) : Host.Outcome State Fault Refusal := runCommand (shapeOf .hdrParse) hdrParseResult s

end Sys2Proof.Machine
end

