-- ==== Sys2Proof/Machine/Rle.lean ====
section
/-! DEFINITION. rle_preprocessor (41_rle_preprocessor.md): RLE_ENCODE and RLE_DECODE. -/

namespace Sys2Proof.Machine

/-- The largest count of a run pair (R7, R140). -/
def rleMax : Nat := 255

/-- The maximal runs of identical consecutive bytes with their lengths, left to right (R210). -/
def maximalRuns : List Byte → List (Byte × Nat)
  | [] => []
  | b :: bs =>
    match maximalRuns bs with
    | [] => [(b, 1)]
    | (v, n) :: rest => if v = b then (b, n + 1) :: rest else (b, 1) :: (v, n) :: rest

/-- The pairs of one maximal run: `floor(L / 255)` of count 255, then one of count `L mod 255` when that is nonzero (R211). -/
def runPairs (run : Byte × Nat) : List Byte :=
  (List.replicate (run.2 / rleMax) [run.1, BitVec.ofNat 8 rleMax]).flatten ++
    (if run.2 % rleMax = 0 then [] else [run.1, BitVec.ofNat 8 (run.2 % rleMax)])

/-- The intermediate stream of `rle_encode(b)` (R211). -/
def rleEncode (b : List Byte) : List Byte := (maximalRuns b).flatMap runPairs

/-- The split flag of `rle_encode(b)`: some maximal run is longer than RLE_MAX (R211). -/
def rleSplit (b : List Byte) : Bool := (maximalRuns b).any (fun run => decide (rleMax < run.2))

/-- `rle_decode(p)`; `none` is MalformedRun (R213). -/
def rleDecode : List Byte → Option (List Byte)
  | [] => some []
  | [_] => none
  | v :: c :: rest => if c = 0 then none else (rleDecode rest).map (List.replicate c.toNat v ++ ·)

/-- `Exec` of RLE_ENCODE on its source bytes (R212). -/
def rleEncodeResult (b : List Byte) : Result :=
  .ok ⟨rleEncode b, b.length, ⟨false, false, rleSplit b⟩, none, TableUpdates.none⟩

/-- `Exec` of RLE_DECODE on its source bytes (R215). -/
def rleDecodeResult (p : List Byte) : Result :=
  match rleDecode p with
  | none => .error (.malformedRun, .rleExpansion)
  | some out => .ok ⟨out, p.length, Info.none, none, TableUpdates.none⟩

/-- RLE_ENCODE (R212). -/
def execRleEncode (s : State) : Host.Outcome State Fault Refusal := runCommand (shapeOf .rleEncode) rleEncodeResult s

/-- RLE_DECODE (R215). -/
def execRleDecode (s : State) : Host.Outcome State Fault Refusal := runCommand (shapeOf .rleDecode) rleDecodeResult s

end Sys2Proof.Machine
end

