-- ==== Sys2Proof/Machine/Frequency.lean ====
section
/-! DEFINITION. frequency_analyzer (42_frequency_analyzer.md): FREQ_ANALYZE. -/

namespace Sys2Proof.Machine

/-- `analyze(b)`: how often each byte value occurs (R230). -/
def analyze (b : List Byte) : FreqTable := Table.tabulate (fun x => BitVec.ofNat 32 (b.count x))

/-- The byte values of nonzero frequency, ascending: `S` of R240. -/
def presentSymbols (f : FreqTable) : List Byte := allBytes.filter (fun x => f.get x != 0)

/-- `Exec` of FREQ_ANALYZE on its source bytes (R231). -/
def freqAnalyzeResult (b : List Byte) : Result :=
  .ok ⟨[], b.length, Info.none, none, ⟨.set (analyze b), .keep, .keep⟩⟩

/-- FREQ_ANALYZE (R231). -/
def execFreqAnalyze (s : State) : Host.Outcome State Fault Refusal := runCommand (shapeOf .freqAnalyze) freqAnalyzeResult s

end Sys2Proof.Machine
end

