-- ==== Sys2Proof/Machine/TreeBuilder.lean ====
section
/-! DEFINITION. huffman_tree_builder (43_huffman_tree_builder.md): TREE_BUILD. -/

namespace Sys2Proof.Machine

/-- A key `(freq, seq)` of the priority queue; `seq` is the node's arena index (R241). Frequencies are exact sums (R9; log entry
15). -/
structure Key where
  freq : Nat
  seq : Nat
  deriving DecidableEq, Repr

/-- The lowest frequency first, among equal frequencies the lowest sequence number (R241). -/
def Key.before (a b : Key) : Bool := decide (a.freq < b.freq) || (decide (a.freq = b.freq) && decide (a.seq < b.seq))

/-- Insert a key into a queue kept in rising order. -/
def enqueue (k : Key) : List Key → List Key
  | [] => [k]
  | q :: qs => if k.before q then k :: q :: qs else q :: enqueue k qs

/-- The queue of the leaves `s_i` at indices `n, n+1, ...` (R242). -/
def leafQueue (f : FreqTable) : Nat → List Byte → List Key
  | _, [] => []
  | n, x :: xs => enqueue ⟨(f.get x).toNat, n⟩ (leafQueue f (n + 1) xs)

/-- The loop of R242: while two keys are left, the two least become the left and right child of a new node. The number bounds the
iterations; each removes one key, so the queue's own length suffices. The root is the index of the last key. -/
def mergeLoop : Nat → List Key → List Node → Tree
  | n + 1, a :: b :: qs, nodes =>
    mergeLoop n (enqueue ⟨a.freq + b.freq, nodes.length⟩ qs)
      (nodes ++ [.internal (BitVec.ofNat 9 a.seq) (BitVec.ofNat 9 b.seq) (BitVec.ofNat 32 (a.freq + b.freq))])
  | _, q :: _, nodes => ⟨nodes, BitVec.ofNat 9 q.seq⟩
  | _, [], nodes => ⟨nodes, 0⟩

/-- `build(f)` for two or more symbols (R242). -/
def buildTree (f : FreqTable) : Tree :=
  let syms := presentSymbols f
  mergeLoop syms.length (leafQueue f 0 syms) (syms.map (fun x => .leaf x (f.get x)))

/-- `build_degenerate(f)` for the one symbol `x` (R244). -/
def buildDegenerate (x : Byte) (n : Word) : Tree := ⟨[.leaf x n, .leaf (x + 1) 0, .internal 0 1 n], 2⟩

/-- The tree of a frequency table and the degenerate flag; `none` when every frequency is 0 (R243). -/
def treeOf (f : FreqTable) : Option (Tree × Bool) :=
  match presentSymbols f with
  | [] => none
  | [x] => some (buildDegenerate x (f.get x), true)
  | _ => some (buildTree f, false)

/-- `Exec` of TREE_BUILD on the frequency table (R243). -/
def treeBuildResult (f : FreqTable) : Result :=
  match treeOf f with
  | none => .error (.emptyInput, .treeBuilding)
  | some (t, deg) => .ok ⟨[], 0, ⟨false, deg, false⟩, none, ⟨.keep, .set t, .keep⟩⟩

/-- TREE_BUILD (R243). -/
def execTreeBuild (s : State) : Host.Outcome State Fault Refusal :=
  runCommand (shapeOf .treeBuild) (fun _ => treeBuildResult s.freq) s

end Sys2Proof.Machine
end

