-- ==== Sys2Proof/Machine/Encoder.lean ====
section
/-! DEFINITION. huffman_encoder (47_huffman_encoder.md): COMPRESS. -/

namespace Sys2Proof.Machine

/-- The marker of a Huffman stream (R143). -/
def huffmanMarker : Byte := 0xA5

/-- The marker of the empty stream (R143). -/
def emptyMarker : Byte := 0xE0

/-- The empty stream (R142). -/
def emptyStream : List Byte := [emptyMarker, 0x00, 0x00, 0x00, 0x00]

/-- The table updates of a pipeline command that leaves code table `c` valid (R332, R355). -/
def keepOnlyCode (c : CodeTable) : TableUpdates := ⟨.clear, .clear, .set c⟩

/-- The table updates of a pipeline command on the empty stream (R331, R351). -/
def clearAll : TableUpdates := ⟨.clear, .clear, .clear⟩

/-- A compressed stream of raw length `n` (R141). -/
def streamOf (n : Nat) (header : List Byte) (bc : Nat) (payload : List Byte) : List Byte :=
  [huffmanMarker] ++ be32 n ++ header ++ be32 bc ++ payload

/-- `compress(b, cap)` of R331 before its overflow check. The two failure arms (no symbol to build from, a symbol without a code)
are never reached (R333). -/
def compressResult (b : List Byte) : Result :=
  match b with
  | [] => .ok ⟨emptyStream, 0, ⟨true, false, false⟩, some 0, clearAll⟩
  | _ =>
    match treeOf (analyze (rleEncode b)) with
    | none => .error (.emptyInput, .treeBuilding)
    | some (t, deg) =>
      let c := deriveCodes t
      match packBits (rleEncode b) c with
      | none => .error (.uncodedSymbol, .bitPacking)
      | some (p, bc) =>
        .ok ⟨streamOf b.length (serializeHeader c) bc p, b.length, ⟨false, deg, rleSplit b⟩, some bc, keepOnlyCode c⟩

/-- COMPRESS (R330). -/
def execCompress (s : State) : Host.Outcome State Fault Refusal := runCommand (shapeOf .compress) compressResult s

end Sys2Proof.Machine
end

