-- ==== Sys2Proof/Machine/Decoder.lean ====
section
/-! DEFINITION. huffman_decoder (48_huffman_decoder.md): DECOMPRESS. -/

namespace Sys2Proof.Machine

/-- The empty-stream branch of R351; `s` is the whole stream, its byte 0 the empty marker. -/
def decompressEmpty (s : List Byte) : Result :=
  if s.length < 5 then .error (.truncatedStream, .headerParsing)
  else if rdBe32 ((s.drop 1).take 4) ≠ 0 then .error (.malformedHeader, .headerParsing)
  else if 5 < s.length then .error (.malformedHeader, .headerParsing)
  else .ok ⟨[], 5, ⟨true, false, false⟩, some 0, clearAll⟩

/-- STAGE 10 of R351: the RLE expansion of the symbols and the check against the recorded length `n`. -/
def decompressExpand (streamLen n bc : Nat) (c : CodeTable) (syms : List Byte) : Result :=
  match rleDecode syms with
  | none => .error (.malformedRun, .rleExpansion)
  | some out =>
    if out.length ≠ n then .error (.malformedHeader, .rleExpansion)
    else .ok ⟨out, streamLen, Info.none, some bc, keepOnlyCode c⟩

/-- STAGE 9 of R351: `rest` is what follows the bit count `bc`. -/
def decompressPayload (streamLen n bc : Nat) (p : ParsedHeader) (rest : List Byte) : Result :=
  if rest.length < ceilDiv bc 8 then .error (.truncatedStream, .bitUnpacking)
  else if ceilDiv bc 8 < rest.length then .error (.malformedHeader, .bitUnpacking)
  else
    match unpackBits rest bc p.tree with
    | none => .error (.truncatedStream, .bitUnpacking)
    | some syms => decompressExpand streamLen n bc p.code syms

/-- The Huffman-stream branch of R351; `s` is the whole stream, its byte 0 the Huffman marker. -/
def decompressHuffman (s : List Byte) : Result :=
  if s.length < 5 then .error (.truncatedStream, .headerParsing)
  else
    let n := rdBe32 ((s.drop 1).take 4)
    if n = 0 then .error (.malformedHeader, .headerParsing)
    else
      match parseHeader (s.drop 5) with
      | .error e => .error (e, .headerParsing)
      | .ok p =>
        let q := 5 + p.used
        if s.length < q + 4 then .error (.truncatedStream, .headerParsing)
        else decompressPayload s.length n (rdBe32 ((s.drop q).take 4)) p (s.drop (q + 4))

/-- `decompress(s, cap)` of R351 before its overflow check. -/
def decompressResult (s : List Byte) : Result :=
  match s with
  | [] => .error (.truncatedStream, .headerParsing)
  | m :: _ =>
    if m = emptyMarker then decompressEmpty s
    else if m = huffmanMarker then decompressHuffman s
    else .error (.malformedHeader, .headerParsing)

/-- DECOMPRESS (R350). -/
def execDecompress (s : State) : Host.Outcome State Fault Refusal := runCommand (shapeOf .decompress) decompressResult s

end Sys2Proof.Machine
end

