-- ==== Sys2Proof/Machine/Dispatch.lean ====
section
/-! DEFINITION. One arm per command: `exec i s` is the completion step of command `i` (40_command_common.md R182). -/

namespace Sys2Proof.Machine

def exec (i : Instr) (s : State) : Host.Outcome State Fault Refusal :=
  match i with
  | .nop => Sys2Proof.Machine.execNop s
  | .compress => Sys2Proof.Machine.execCompress s
  | .decompress => Sys2Proof.Machine.execDecompress s
  | .rleEncode => Sys2Proof.Machine.execRleEncode s
  | .rleDecode => Sys2Proof.Machine.execRleDecode s
  | .freqAnalyze => Sys2Proof.Machine.execFreqAnalyze s
  | .treeBuild => Sys2Proof.Machine.execTreeBuild s
  | .codeDerive => Sys2Proof.Machine.execCodeDerive s
  | .hdrSerialize => Sys2Proof.Machine.execHdrSerialize s
  | .hdrParse => Sys2Proof.Machine.execHdrParse s
  | .pack => Sys2Proof.Machine.execPack s
  | .unpack => Sys2Proof.Machine.execUnpack s

end Sys2Proof.Machine
end

