-- ==== Sys2Proof/Machine/Registers.lean ====
section
/-! DEFINITION. The register block (10_state.md R32 to R62): the offsets, what a read returns and what a write does. -/

namespace Sys2Proof.Machine

/-- The registers of R32. -/
inductive Reg where
  | id | cfg | ctrl | status | cmd | srcAddr | srcLen | dstAddr | dstCap | outLen | inUsed | bitCount
  | symCount | nodeCount | treeRoot | codeCount
  | freqSel | freqData | treeSel | treeNode | treeFreq | codeSel | codeLen | codeWord
  deriving DecidableEq, Repr

/-- The register map, offset by offset (R32). -/
def registerMap : List (Nat × Reg) :=
  [(0x00, .id), (0x04, .cfg), (0x08, .ctrl), (0x0C, .status), (0x10, .cmd), (0x14, .srcAddr), (0x18, .srcLen),
   (0x1C, .dstAddr), (0x20, .dstCap), (0x24, .outLen), (0x28, .inUsed), (0x2C, .bitCount), (0x30, .symCount),
   (0x34, .nodeCount), (0x38, .treeRoot), (0x3C, .codeCount), (0x40, .freqSel), (0x44, .freqData), (0x48, .treeSel),
   (0x4C, .treeNode), (0x50, .treeFreq), (0x54, .codeSel), (0x58, .codeLen), (0x5C, .codeWord)]

/-- The offset of a register (R32). -/
def offsetOf : Reg → Nat
  | .id => 0x00
  | .cfg => 0x04
  | .ctrl => 0x08
  | .status => 0x0C
  | .cmd => 0x10
  | .srcAddr => 0x14
  | .srcLen => 0x18
  | .dstAddr => 0x1C
  | .dstCap => 0x20
  | .outLen => 0x24
  | .inUsed => 0x28
  | .bitCount => 0x2C
  | .symCount => 0x30
  | .nodeCount => 0x34
  | .treeRoot => 0x38
  | .codeCount => 0x3C
  | .freqSel => 0x40
  | .freqData => 0x44
  | .treeSel => 0x48
  | .treeNode => 0x4C
  | .treeFreq => 0x50
  | .codeSel => 0x54
  | .codeLen => 0x58
  | .codeWord => 0x5C

/-- The register at an offset; `none` for a reserved offset (R36). -/
def regAt (off : Nat) : Option Reg := (registerMap.find? (fun row => row.1 == off)).map (·.2)

/-! ## Views -/

/-- `ID` (R33). -/
def idValue : Word := 0x48554631

/-- `SYM_COUNT` (R52). -/
def symCountView (s : State) : Word := if s.freqValid then BitVec.ofNat 32 (presentSymbols s.freq).length else 0

/-- `NODE_COUNT` (R53). -/
def nodeCountView (s : State) : Word := if s.treeValid then BitVec.ofNat 32 s.nodes.length else 0

/-- `TREE_ROOT` (R54). -/
def treeRootView (s : State) : Word := if s.treeValid then s.root.setWidth 32 else 0

/-- `CODE_COUNT` (R55). -/
def codeCountView (s : State) : Word := if s.codeValid then BitVec.ofNat 32 (codedSymbols s.code).length else 0

/-- `FREQ_DATA` (R57). -/
def freqDataView (s : State) : Word := if s.freqValid then s.freq.get s.freqSel else 0

/-- The selected node, when there is one (R59, R60). -/
def selectedNode (s : State) : Option Node := if s.treeValid then s.nodes[s.treeSel.toNat]? else none

/-- `TREE_NODE` (R59). -/
def treeNodeView (s : State) : Word :=
  match selectedNode s with
  | none => 0
  | some (.leaf x _) => flagAt true 31 ||| flagAt true 30 ||| fieldAt x 0
  | some (.internal l r _) => flagAt true 31 ||| fieldAt r 16 ||| fieldAt l 0

/-- `TREE_FREQ` (R60). -/
def treeFreqView (s : State) : Word :=
  match selectedNode s with
  | none => 0
  | some (.leaf _ f) => f
  | some (.internal _ _ f) => f

/-- The selected code, empty while the code table is invalid (R62). -/
def selectedCode (s : State) : Bits := if s.codeValid then s.code.get s.codeSelSym else []

/-- `CODE_LEN` (R62). -/
def codeLenView (s : State) : Word := BitVec.ofNat 32 (selectedCode s).length

/-- `CODE_WORD` (R62): bit `31 - j` is code bit `32 w + j`, or 0 past the end of the code. -/
def codeWordView (s : State) : Word :=
  BitVec.ofNat 32
    (((List.range 32).map
      (fun j => ((selectedCode s).getD (32 * s.codeSelWord.toNat + j) false).toNat <<< (31 - j))).sum)

/-! ## Reads -/

/-- The value a register holds when the engine is idle; for STATUS, R37's word. -/
def regValue (s : State) : Reg → Word
  | .id => idValue
  | .cfg => BitVec.ofNat 32 s.params.dmemSize
  | .ctrl => flagAt s.ctrlIrqEn 0
  | .status => statusWord s
  | .cmd => s.cmd
  | .srcAddr => s.srcAddr
  | .srcLen => s.srcLen
  | .dstAddr => s.dstAddr
  | .dstCap => s.dstCap
  | .outLen => s.outLen
  | .inUsed => s.inUsed
  | .bitCount => s.bitCount
  | .symCount => symCountView s
  | .nodeCount => nodeCountView s
  | .treeRoot => treeRootView s
  | .codeCount => codeCountView s
  | .freqSel => s.freqSel.setWidth 32
  | .freqData => freqDataView s
  | .treeSel => s.treeSel.setWidth 32
  | .treeNode => treeNodeView s
  | .treeFreq => treeFreqView s
  | .codeSel => fieldAt s.codeSelSym 0 ||| fieldAt s.codeSelWord 8
  | .codeLen => codeLenView s
  | .codeWord => codeWordView s

/-- The registers whose read returns an arbitrary value while BUSY = 1, whole (R43). -/
def drawnWhileBusy : Reg → Bool
  | .outLen | .inUsed | .bitCount | .symCount | .nodeCount | .treeRoot | .codeCount | .freqData | .treeNode | .treeFreq
  | .codeLen | .codeWord => true
  | .id | .cfg | .ctrl | .status | .cmd | .srcAddr | .srcLen | .dstAddr | .dstCap | .freqSel | .treeSel | .codeSel => false

/-- What a read of offset `off` returns when `free` is the value drawn for it (R36, R37, R43). -/
def readValue (s : State) (off : Nat) (free : Word) : Word :=
  match regAt off with
  | none => 0
  | some r =>
    if r = .status then statusRead s free
    else if s.busy && drawnWhileBusy r then free
    else regValue s r

/-- How many free values a read of offset `off` draws. -/
def readDraws (s : State) (off : Nat) : Nat :=
  match regAt off with
  | none => 0
  | some r => if s.busy && (drawnWhileBusy r || decide (r = .status)) then 1 else 0

/-- A host read of offset `off`: the value goes to the host and nothing else changes (R108). -/
def State.readReg (s : State) (off : Nat) : State :=
  { s with
    readLog := some (readValue s off (Config.freeWord s.params s.draws)) :: s.readLog
    draws := s.draws + readDraws s off }

/-! ## Writes -/

/-- The in-flight command's row of R132 and R190; `none` when idle or when the word is illegal. -/
def inFlight (s : State) : Option Shape :=
  if s.busy then (decode s.cmd).toOption.map shapeOf else none

/-- The in-flight command has a destination. -/
def busyDest (s : State) : Bool :=
  match inFlight s with
  | some sh => sh.dest
  | none => false

/-- The in-flight command has a source. -/
def busySource (s : State) : Bool :=
  match inFlight s with
  | some sh => sh.source
  | none => false

/-- Soft reset (R452): R450, and the destination range of an in-flight command becomes INDET. -/
def State.softReset (s : State) : State :=
  { s.resetBlock with dmem := if busyDest s then s.dmem.forget s.dstAddr.toNat (dstEnd s) else s.dmem }

/-- A write to CTRL: IRQ_EN, then the soft reset if bit 1 is set (R35). -/
def State.writeCtrl (s : State) (v : Word) : State :=
  if v.getLsbD 1 then (State.softReset { s with ctrlIrqEn := v.getLsbD 0 }) else { s with ctrlIrqEn := v.getLsbD 0 }

/-- A write to CMD: issue (R180), or OVERRUN while busy (R181). -/
def State.writeCmd (s : State) (v : Word) : State := if s.busy then { s with stOverrun := true } else s.issue v

/-- A write to a parameter or select register while idle (R45 to R48, R51, R56, R58, R61); reserved bits are discarded (R36). -/
def State.writeParam (s : State) (r : Reg) (v : Word) : State :=
  match r with
  | .srcAddr => { s with srcAddr := v }
  | .srcLen => { s with srcLen := v }
  | .dstAddr => { s with dstAddr := v }
  | .dstCap => { s with dstCap := v }
  | .bitCount => { s with bitCount := v }
  | .freqSel => { s with freqSel := v.extractLsb' 0 8 }
  | .treeSel => { s with treeSel := v.extractLsb' 0 9 }
  | .codeSel => { s with codeSelSym := v.extractLsb' 0 8, codeSelWord := v.extractLsb' 8 3 }
  | .id | .cfg | .ctrl | .status | .cmd | .outLen | .inUsed | .symCount | .nodeCount | .treeRoot | .codeCount | .freqData
  | .treeNode | .treeFreq | .codeLen | .codeWord => s

/-- A host write of `v` to offset `off` (R35 to R37, R43, R44): CTRL, STATUS and CMD act at any time, a parameter or select
register is written only while idle, a read-only register or a reserved offset ignores the write. -/
def State.writeReg (s : State) (off : Nat) (v : Word) : State :=
  match regAt off with
  | none => s
  | some .ctrl => s.writeCtrl v
  | some .status => s.acknowledge v
  | some .cmd => s.writeCmd v
  | some r => if s.busy then s else s.writeParam r v

end Sys2Proof.Machine
end

