-- ==== Sys2Proof/Machine/HostBus.lean ====
section
/-! DEFINITION. The host's side: bus addresses (20_memory.md R101), which accesses are admitted (R103, R106, R107), DMEM accesses idle and
busy (R103, R114), and one host operation (30_encoding.md R160, R161). -/

namespace Sys2Proof.Machine

/-- What a bus address reaches (R101). -/
inductive Target where
  /-- Offset `off` of the register block. -/
  | register (off : Nat)
  /-- DMEM byte `a`. -/
  | memory (a : Nat)
  /-- Neither. -/
  | nothing
  deriving DecidableEq, Repr

/-- The register block is 256 bytes at REG_BASE, DMEM is DMEM_SIZE bytes at DMEM_BASE (R101; log entry 13). -/
def targetOf (p : Params) (addr : Nat) : Target :=
  if p.regBase ≤ addr ∧ addr < p.regBase + 256 then .register (addr - p.regBase)
  else if p.dmemBase ≤ addr ∧ addr < p.dmemBase + p.dmemSize then .memory (addr - p.dmemBase)
  else .nothing

/-- An access of `width` bytes that R103 or R107 admits. -/
def accessAdmitted (p : Params) (addr width : Nat) : Bool :=
  match targetOf p addr with
  | .register off => decide (width = 4) && decide (off % 4 = 0)
  | .memory a =>
    (decide (width = 1) || decide (width = 2) || decide (width = 4)) && decide (a % width = 0) &&
      decide (a + width ≤ p.dmemSize)
  | .nothing => false

/-- A host operation the host has a step for (R106, R107). -/
def admitted (p : Params) : HostOp → Bool
  | .read addr width => accessAdmitted p addr width
  | .write addr width _ => accessAdmitted p addr width
  | .wait => true
  | .hardReset => true

/-- `a` lies in the in-flight command's destination range, which counts only when the command has a destination (R114). -/
def inBusyDest (s : State) (a : Nat) : Bool := busyDest s && inDest s a

/-- `a` lies in a range of the in-flight command that it uses (R114). -/
def inBusyBuffers (s : State) (a : Nat) : Bool := inBusyDest s a || (busySource s && inSource s a)

/-- The value of a little-endian byte list (R103). -/
def littleEndian : List Byte → Nat
  | [] => 0
  | v :: vs => v.toNat + 256 * littleEndian vs

/-- The first `n` bytes of a little-endian write of `v` (R103). -/
def bytesOfWrite (v : Word) (n : Nat) : List Byte := (List.range n).map (fun i => v.extractLsb' (8 * i) 8)

/-- What a host read of the `n` cells from `a` gets, the draw count before and after (R103, R114): a byte of the busy destination
range is a draw, another cell its byte; the first INDET cell ends the read without a value (log entries 7, 8). -/
def loadBytes (s : State) : Nat → Nat → Nat → Nat × Except Nat (List Byte)
  | draws, _, 0 => (draws, .ok [])
  | draws, a, n + 1 =>
    if inBusyDest s a then
      let r := loadBytes s (draws + 1) (a + 1) n
      (r.1, r.2.map (Config.freeByte s.params draws :: ·))
    else
      match s.dmem.get a with
      | none => (draws, .error a)
      | some v =>
        let r := loadBytes s draws (a + 1) n
        (r.1, r.2.map (v :: ·))

/-- A host read of `n` DMEM bytes at `a` (R103, R114): the little-endian value, or UninitRead recorded and no value. -/
def State.hostLoad (s : State) (a n : Nat) : State :=
  let r := loadBytes s s.draws a n
  match r.2 with
  | .ok bytes => { s with readLog := some (BitVec.ofNat 32 (littleEndian bytes)) :: s.readLog, draws := r.1 }
  | .error c => State.recordFault { s with readLog := none :: s.readLog, draws := r.1 } (.uninitRead c)

/-- A host write of one DMEM byte (R103, R114): the byte is stored; inside a busy command's buffers HostWriteWhileBusy is recorded
and the cell holds no byte any more (log entry 10). -/
def State.hostStoreByte (s : State) (a : Nat) (v : Byte) : State :=
  if inBusyBuffers s a then State.recordFault { s with dmem := s.dmem.forget a (a + 1) } (.hostWriteWhileBusy a)
  else { s with dmem := s.dmem.set a v }

/-- A host write of a byte list at `a`, byte by byte (R103, R114). -/
def State.hostStore (s : State) : Nat → List Byte → State
  | _, [] => s
  | a, v :: vs => (s.hostStoreByte a v).hostStore (a + 1) vs

/-- An admitted bus read (R103, R107, R108). -/
def State.busRead (s : State) (addr width : Nat) : State :=
  match targetOf s.params addr with
  | .register off => s.readReg off
  | .memory a => s.hostLoad a width
  | .nothing => s

/-- An admitted bus write (R103, R107, R108). -/
def State.busWrite (s : State) (addr width : Nat) (v : Word) : State :=
  match targetOf s.params addr with
  | .register off => s.writeReg off v
  | .memory a => s.hostStore a (bytesOfWrite v width)
  | .nothing => s

/-- The host operation `op` at the head of the program, `rest` what follows. `wait` is its loop's next
`rd STATUS`, and stays while the value read has bit 0 set, that is while `busy` (R161; log entry 21); every other operation is done in one step. A host step while busy uses up one of the steps
the latency allows (log entry 3). -/
def State.hostPerform (s : State) (op : HostOp) (rest : List HostOp) : State :=
  let t := { s with program := rest, delay := s.delay - 1 }
  match op with
  | .read addr width => t.busRead addr width
  | .write addr width v => t.busWrite addr width v
  | .wait => if s.busy then State.readReg { t with program := .wait :: rest } (offsetOf .status) else t.readReg (offsetOf .status)
  | .hardReset => t.hardwareReset

end Sys2Proof.Machine
end

