-- ==== Sys2Proof/Machine/Schedule.lean ====
section
/-! DEFINITION. Who moves next (20_memory.md R112, 40_command_common.md R182, R195), what the host does in its turn, and how a command comes
to be the next thing the engine completes. -/

namespace Sys2Proof.Machine

/-- The engine completes the in-flight command at the next step: it is busy and has a step (R182, R194), and the host either has no
step (its program is over, or its next access is not admitted), or has used up the steps the latency allows, the polls of a `wait`
among them (log entry 3). -/
def engineTurn (s : State) : Bool :=
  s.busy && !s.stalled &&
    match s.program with
    | [] => true
    | op :: _ => !admitted s.params op || decide (s.delay = 0)

/-- The host's turn: its next operation; no step at an access that is not admitted (R106, R107); with the program over, an idle
machine keeps its state (R432; log entry 11) and a stalled engine is stuck (R194). -/
def hostTurn (s : State) : Host.Outcome State Fault Refusal :=
  match s.program with
  | [] => if s.busy then .fault .engineStalled else .next s
  | op :: rest => if admitted s.params op then .next (s.hostPerform op rest) else .refused .hostAccessNotAdmitted

/-- `s` with the command word `w` in flight and its completion the next step, as an accepted write to CMD leaves it (R180; log
entry 22). -/
def State.placeCommand (s : State) (w : Word) : State :=
  { s with cmd := w, busy := true, stDone := false, stErr := false, stalled := false, delay := 0 }

end Sys2Proof.Machine
end

