-- ==== Sys2Proof/Machine/Step.lean ====
section
/-! DEFINITION. One step of the machine: the engine's completion of the in-flight command, or the host's next operation (20_memory.md R112). -/

namespace Sys2Proof.Machine

/-- One step. In the engine's turn the word in CMD is decoded and its command completed (R182); an illegal word completes with
IllegalCommand (R193). Otherwise the host moves. -/
def step (s : State) : Host.Outcome State Fault Refusal :=
  if engineTurn s then
    match decode s.cmd with
    | .ok i => exec i s
    | .error _ => .next (completeIllegal s)
  else hostTurn s

/-- `s` with the instruction of the opcode table whose bits are `w` where the engine takes its next command: in CMD, issued, its
completion due (log entry 22). A command word has 32 bits, so nothing lies above `nbits`. -/
def State.withFetchWord (s : State) (_nbits w : Nat) : State := s.placeCommand (BitVec.ofNat 32 w)

end Sys2Proof.Machine
end

