-- ==== Sys2Proof/Machine/HostProgram.lean ====
section
/-! DEFINITION. Host programs in the spec's notation (30_encoding.md R160, R161), each form as the bus transactions it stands for on a
platform. -/

namespace Sys2Proof.Machine

/-- `wr REG, v` (R160). -/
def opWr (p : Params) (r : Reg) (v : Word) : HostOp := .write (p.regBase + offsetOf r) 4 v

/-- `rd REG` (R160). -/
def opRd (p : Params) (r : Reg) : HostOp := .read (p.regBase + offsetOf r) 4

/-- `sb a, v` (R160). -/
def opSb (p : Params) (a : Nat) (v : Word) : HostOp := .write (p.dmemBase + a) 1 v

/-- `sh a, v` (R160). -/
def opSh (p : Params) (a : Nat) (v : Word) : HostOp := .write (p.dmemBase + a) 2 v

/-- `sw a, v` (R160). -/
def opSw (p : Params) (a : Nat) (v : Word) : HostOp := .write (p.dmemBase + a) 4 v

/-- `lb a` (R160). -/
def opLb (p : Params) (a : Nat) : HostOp := .read (p.dmemBase + a) 1

/-- `lh a` (R160). -/
def opLh (p : Params) (a : Nat) : HostOp := .read (p.dmemBase + a) 2

/-- `lw a` (R160). -/
def opLw (p : Params) (a : Nat) : HostOp := .read (p.dmemBase + a) 4

/-- `cmd OP` (R161). -/
def opCmd (p : Params) (i : Instr) : HostOp := opWr p .cmd (encode i)

/-- `run OP` (R161). -/
def progRun (p : Params) (i : Instr) : List HostOp := [opCmd p i, .wait]

/-- `src a, n` (R161). -/
def progSrc (p : Params) (a n : Word) : List HostOp := [opWr p .srcAddr a, opWr p .srcLen n]

/-- `dst a, n` (R161). -/
def progDst (p : Params) (a n : Word) : List HostOp := [opWr p .dstAddr a, opWr p .dstCap n]

/-- `clr` (R161). -/
def opClr (p : Params) : HostOp := opWr p .status 0x0000000E

/-- `bytes a, b0, b1, ...` (R161). -/
def progBytes (p : Params) : Nat → List Byte → List HostOp
  | _, [] => []
  | a, v :: vs => opSb p a (v.setWidth 32) :: progBytes p (a + 1) vs

/-- `fill a, b, n` (R161). -/
def progFill (p : Params) (a : Nat) (b : Byte) (n : Nat) : List HostOp := progBytes p a (List.replicate n b)

/-- `irqon` (R161). -/
def opIrqOn (p : Params) : HostOp := opWr p .ctrl 0x00000001

/-- `softreset` (R161). -/
def opSoftReset (p : Params) : HostOp := opWr p .ctrl 0x00000002

end Sys2Proof.Machine
end

