-- ==== Sys2Proof/WellFormed.lean ====
section
/-! DEFINITION. What a well-formed command and a well-formed platform are. A command has no operand field (R130), so every term of
`Instr` is well formed; the parameters of a platform have bounds (R7). -/

namespace Sys2Proof

/-- Every command is well formed: CMD32 has no operand field and no immediate that could be out of range (R130). -/
abbrev Instr.wellFormed (_ : Instr) : Prop := True

/-- `1 ≤ DMEM_SIZE ≤ 2^28` (R7). -/
abbrev Params.sizeOk (p : Params) : Prop := 1 ≤ p.dmemSize ∧ p.dmemSize ≤ 2 ^ 28

/-- The register block and DMEM do not overlap on the host bus (93_implementation_defined.md section 3; log entry 13). -/
abbrev Params.apart (p : Params) : Prop :=
  p.regBase + 256 ≤ p.dmemBase ∨ p.dmemBase + p.dmemSize ≤ p.regBase

/-- A platform the spec admits. -/
abbrev Params.wellFormed (p : Params) : Prop := p.sizeOk ∧ p.apart

end Sys2Proof
end

