-- ==== Sys2Proof/Machine/Platform.lean ====
section
/-! DEFINITION. A platform of NUM_INSTANCES instances that share no state (60_exceptions.md R429; log entry 2). -/

namespace Sys2Proof.Machine

/-- The instances of a platform. -/
abbrev Platform := List State

/-- `NUM_INSTANCES` (00_scope.md R7). -/
def Platform.numInstances (p : Platform) : Nat := p.length

/-- `1 ≤ NUM_INSTANCES` (R7). -/
abbrev Platform.sizeOk (p : Platform) : Prop := 1 ≤ p.numInstances

/-- A platform the spec admits: at least one instance (R7), each with legal parameters, and no two at one REG_BASE, the base addresses
being all that tells instances apart (R429; DEDUCED, log entry 2). -/
abbrev Platform.wellFormed (p : Platform) : Prop :=
  p.sizeOk ∧ (∀ s ∈ p, s.params.wellFormed) ∧ p.Pairwise (fun s t => s.params.regBase ≠ t.params.regBase)

/-- Instance `i` takes a step; every other instance keeps its state (R429). A number that names no instance has no step.
The free values of instances at different base addresses are not tied to each other (log entries 2, 6). -/
def platformStep (p : Platform) (i : Nat) : Option (Host.Outcome Platform Fault Refusal) :=
  (p[i]?).map fun s =>
    match step s with
    | .next t => .next (p.set i t)
    | .fault f => .fault f
    | .refused r => .refused r

end Sys2Proof.Machine
end

