-- ==== Sys2Proof/Safety.lean ====
section
/-! DEFINITION. The terms in which claims speak: when a run has ended, what a well-formed tree and code table are, the invariants of the
machine, the conditions a command is accepted under, and what a completion leaves. -/

namespace Sys2Proof.Machine

/-! ## Runs -/

/-- The end of a run (70_reset_and_hazards.md R467). -/
abbrev State.ended (s : State) : Prop := s.program = [] ∧ s.busy = false ∧ s.faults = []

/-! ## Trees and code tables -/

/-- The nodes met from node `n` down, each before its children, along every path of at most the given number of nodes. -/
def subtreeNodes (nodes : List Node) : Nat → Nat → List Nat
  | 0, _ => []
  | fuel + 1, n =>
    match nodes[n]? with
    | some (.internal l r _) => n :: (subtreeNodes nodes fuel l.toNat ++ subtreeNodes nodes fuel r.toNat)
    | some (.leaf _ _) => [n]
    | none => [n]

/-- The symbols of an arena's leaves, in index order. -/
def leafSymbols (nodes : List Node) : List Byte :=
  nodes.filterMap fun
    | .leaf x _ => some x
    | .internal _ _ _ => none

/-- `n` is the index of an Internal node. -/
def isInternal (nodes : List Node) (n : Nat) : Bool :=
  match nodes[n]? with
  | some (.internal _ _ _) => true
  | _ => false

/-- A node whose children, if it has any, are two distinct ones. -/
def childrenDistinct : Node → Bool
  | .leaf _ _ => true
  | .internal l r _ => l != r

/-- Well-formedness of a valid tree (10_state.md R67), its five conditions in order. In the first, paths longer than the arena show a
cycle, so one node more than the arena has is far enough. -/
abbrev Tree.wf (t : Tree) : Prop :=
  (subtreeNodes t.nodes (t.nodes.length + 1) t.root.toNat).Perm (List.range t.nodes.length) ∧
  isInternal t.nodes t.root.toNat = true ∧
  t.nodes.all childrenDistinct = true ∧
  (leafSymbols t.nodes).Nodup ∧
  (t.nodes.length + 1 = 2 * (leafSymbols t.nodes).length ∧ 2 ≤ (leafSymbols t.nodes).length ∧
    (leafSymbols t.nodes).length ≤ 256)

/-- The node a code leads to from node `n`; `none` when it leads off the tree or on from a leaf. -/
def followCode (nodes : List Node) : Bits → Nat → Option Node
  | [], n => nodes[n]?
  | bit :: bits, n =>
    match nodes[n]? with
    | some (.internal l r _) => followCode nodes bits (if bit then r else l).toNat
    | _ => none

/-- A valid code table: the leaf paths of some valid tree (R69). -/
def CodeTable.wf (c : CodeTable) : Prop := ∃ t : Tree, t.wf ∧ c = deriveCodes t

/-- No code is a prefix of another symbol's code (R69, R262). -/
def CodeTable.prefixFree (c : CodeTable) : Prop :=
  ∀ x y : Byte, x ≠ y → c.get x ≠ [] → ¬ (c.get x <+: c.get y)

/-- The sum of `2^-len` over the coded symbols is 1, every length being at most 255 (R69, R262). -/
def CodeTable.complete (c : CodeTable) : Prop :=
  (∀ x, (c.get x).length ≤ 255) ∧
  ((codedSymbols c).map (fun x => 2 ^ (255 - (c.get x).length))).sum = 2 ^ 255

/-! ## The merge rule -/

/-- The frequency of the node at index `n`, 0 where there is none. -/
def freqAt (nodes : List Node) (n : Nat) : Nat :=
  match nodes[n]? with
  | some (.leaf _ f) => f.toNat
  | some (.internal _ _ f) => f.toNat
  | none => 0

/-- Node `a` comes before node `b` in the queue: the key `(freq, seq)` of R241, `seq` being the arena index. -/
def KeyBefore (nodes : List Node) (a b : Nat) : Prop :=
  freqAt nodes a < freqAt nodes b ∨ (freqAt nodes a = freqAt nodes b ∧ a < b)

/-- Node `n` is a child of a node created before node `j`, so it has left the queue when node `j` is created. -/
def MergedBefore (nodes : List Node) (j n : Nat) : Prop :=
  ∃ i l r f, i < j ∧ nodes[i]? = some (.internal l r f) ∧ (n = l.toNat ∨ n = r.toNat)

/-- Node `j` was created by the merge step of 43_huffman_tree_builder.md R242: its children are the two least keys of the queue, the
lesser on the left, and its frequency is their sum. -/
def MergeStep (nodes : List Node) (j : Nat) : Prop :=
  ∃ l r f, nodes[j]? = some (.internal l r f) ∧ l.toNat < j ∧ r.toNat < j ∧
    ¬ MergedBefore nodes j l.toNat ∧ ¬ MergedBefore nodes j r.toNat ∧ KeyBefore nodes l.toNat r.toNat ∧
    (∀ n, n < j → ¬ MergedBefore nodes j n → n ≠ l.toNat → n ≠ r.toNat → KeyBefore nodes r.toNat n) ∧
    f.toNat = freqAt nodes l.toNat + freqAt nodes r.toNat

/-! ## Header listings -/

/-- Bit `q` of a packed byte list, the most significant bit of a byte first (30_encoding.md R150, R151). -/
def packedBit (bytes : List Byte) (q : Nat) : Bool := (bytes.getD (q / 8) 0).getLsbD (7 - q % 8)

/-- A code field: as many bytes as the code needs, the code's bits first; what the padding holds is open (R144, R145). -/
abbrev FieldHolds (bits : Bits) (field : List Byte) : Prop :=
  field.length = ceilDiv bits.length 8 ∧ ∀ q, q < bits.length → packedBit field q = bits.getD q false

/-- A code field as the serializer writes it: its padding bits are 0 (R145). -/
abbrev FieldPadded (bits : Bits) (field : List Byte) : Prop :=
  FieldHolds bits field ∧ ∀ q, q < 8 * field.length → bits.length ≤ q → packedBit field q = false

/-- One entry of a header: a symbol, its code, and the code field that holds it (R144). -/
structure HeaderEntry where
  symbol : Byte
  bits : Bits
  field : List Byte
  deriving DecidableEq, Repr

/-- The bytes of an entry (R144). -/
def HeaderEntry.bytes (e : HeaderEntry) : List Byte := e.symbol :: BitVec.ofNat 8 e.bits.length :: e.field

/-- The bytes of a header of `n` codes up to the end of the entries given (R144). -/
def headerBytesOf (n : Nat) (es : List HeaderEntry) : List Byte := BitVec.ofNat 8 (n - 1) :: es.flatMap HeaderEntry.bytes

/-- The nodes of the tree that the codes span, each as the path to it. -/
def spannedNodes (es : List HeaderEntry) : List Bits := (es.flatMap (fun e => e.bits.inits)).dedup

/-- The conditions H1 to H5 of 44_code_table_rom.md R271 on the first entries of a header of `n` codes. -/
abbrev Listing (n : Nat) (es : List HeaderEntry) : Prop :=
  es.Pairwise (fun d e => d.symbol.toNat < e.symbol.toNat) ∧
  (∀ e ∈ es, 1 ≤ e.bits.length ∧ e.bits.length ≤ 255 ∧ FieldHolds e.bits e.field) ∧
  es.Pairwise (fun d e => ¬ d.bits <+: e.bits ∧ ¬ e.bits <+: d.bits) ∧
  (spannedNodes es).length ≤ 2 * n - 1

/-! ## Invariants -/

/-- DMEM is in canonical form and inside `[0, DMEM_SIZE)` (R100). -/
abbrev State.memoryOk (s : State) : Prop := s.dmem.wf ∧ ∀ c ∈ s.dmem, c.1 < s.params.dmemSize

/-- `faults` is in canonical form. -/
abbrev State.faultsOk (s : State) : Prop := s.faults.Pairwise (fun f g => f.key < g.key)

/-- The command-lifecycle flags agree with each other (R39, R42, R180, R194, R401): DONE and ERR exclude each other and are both 0
while busy; DONE goes with ERRCODE 0 and STAGE 7, ERR with a nonzero ERRCODE; ERRCODE and STAGE hold no reserved value and no code
that is never written; a stalled engine is busy and has recorded a fault. -/
abbrev State.lifecycleOk (s : State) : Prop :=
  (s.stDone && s.stErr) = false ∧
  (s.busy = true → s.stDone = false ∧ s.stErr = false) ∧
  (s.stDone = true → s.stErrcode = 0 ∧ s.stStage = 7) ∧
  (s.stErr = true → s.stErrcode ≠ 0) ∧
  (s.stErrcode ≤ 12 ∧ s.stErrcode ≠ 2 ∧ s.stErrcode ≠ 6) ∧
  s.stStage ≤ 10 ∧
  (s.stalled = true → s.busy = true ∧ s.faults ≠ [])

/-- An invalid table holds its reset value (R188). -/
abbrev State.invalidTablesReset (s : State) : Prop :=
  (s.freqValid = false → s.freq = Table.const 0) ∧
  (s.treeValid = false → s.nodes = [] ∧ s.root = 0) ∧
  (s.codeValid = false → s.code = Table.const [])

/-- A valid tree is well formed (R66), a valid code table is one of a valid tree (R69). -/
def State.tablesOk (s : State) : Prop :=
  (s.treeValid = true → Tree.wf ⟨s.nodes, s.root⟩) ∧ (s.codeValid = true → s.code.wf)

/-! ## When a command is accepted -/

/-- `src_addr + src_len ≤ DMEM_SIZE` (R183). -/
abbrev State.SrcInside (s : State) : Prop := s.srcAddr.toNat + s.srcLen.toNat ≤ s.params.dmemSize

/-- `dst_addr + dst_cap ≤ DMEM_SIZE` (R183). -/
abbrev State.DstInside (s : State) : Prop := s.dstAddr.toNat + s.dstCap.toNat ≤ s.params.dmemSize

/-- Both ranges are non-empty and intersect (R184). -/
abbrev State.Overlapping (s : State) : Prop :=
  0 < s.srcLen.toNat ∧ 0 < s.dstCap.toNat ∧
  s.srcAddr.toNat < s.dstAddr.toNat + s.dstCap.toNat ∧ s.dstAddr.toNat < s.srcAddr.toNat + s.srcLen.toNat

/-- The source range holds exactly the bytes `b`. -/
abbrev State.SourceHolds (s : State) (b : List Byte) : Prop :=
  b.length = s.srcLen.toNat ∧ ∀ k, (h : k < b.length) → s.dmem.get (s.srcAddr.toNat + k) = some b[k]

/-- What a command with a source and a destination needs before its data checks (R189 steps 2 to 4), its source holding `b`. -/
abbrev State.ReadyWith (s : State) (b : List Byte) : Prop :=
  s.SrcInside ∧ s.DstInside ∧ ¬ s.Overlapping ∧ s.SourceHolds b

/-! ## The ranges of a command in flight -/

/-- Byte `a` lies in the source range of the command that CMD holds (20_memory.md R114). -/
def State.UsesSource (s : State) (a : Nat) : Prop :=
  ∃ i, decode s.cmd = .ok i ∧ (shapeOf i).source = true ∧ s.srcAddr.toNat ≤ a ∧ a < s.srcAddr.toNat + s.srcLen.toNat

/-- Byte `a` lies in the destination range of the command that CMD holds (R114, R452). -/
def State.UsesDest (s : State) (a : Nat) : Prop :=
  ∃ i, decode s.cmd = .ok i ∧ (shapeOf i).dest = true ∧ s.dstAddr.toNat ≤ a ∧ a < s.dstAddr.toNat + s.dstCap.toNat

/-- The value of a little-endian byte list, as a register word (R103). -/
def littleEndianWord (b : List Byte) : Word :=
  BitVec.ofNat 32 ((List.range b.length).map (fun k => (b.getD k 0).toNat * 256 ^ k)).sum

/-- The next host operation resets the block: a hardware reset (R451), or a write to CTRL with bit 1 set (R35, R452). -/
def Resets (p : Params) (op : HostOp) : Prop :=
  op = .hardReset ∨ ∃ v : Word, op = .write (p.regBase + 0x08) 4 v ∧ v.getLsbD 1 = true

/-! ## What a completion leaves -/

/-- The result registers and flags of a successful completion from `s` (R186, `Ok`): `n` bytes written, `used` consumed. -/
structure SucceededFrom (s t : State) (n : Nat) (used : Word) (info : Info) (bitCount : Word) : Prop where
  outLen : t.outLen.toNat = n
  inUsed : t.inUsed = used
  bitCount : t.bitCount = bitCount
  infoEmpty : t.stInfoEmpty = info.empty
  infoDegenerate : t.stInfoDegenerate = info.degenerate
  infoRunSplit : t.stInfoRunSplit = info.runSplit
  errcode : t.stErrcode = 0
  stage : t.stStage = 7
  done : t.stDone = true
  err : t.stErr = s.stErr
  idle : t.busy = false
  faults : t.faults = s.faults
  stalled : t.stalled = s.stalled

/-- The result registers, flags and DMEM of an error completion from `s` (R186, `Err`; R187). -/
structure FailedFrom (s t : State) (e : ErrorKind) (g : Stage) : Prop where
  dmem : t.dmem = s.dmem
  outLen : t.outLen = 0
  inUsed : t.inUsed = 0
  bitCount : t.bitCount = s.bitCount
  infoEmpty : t.stInfoEmpty = false
  infoDegenerate : t.stInfoDegenerate = false
  infoRunSplit : t.stInfoRunSplit = false
  errcode : t.stErrcode = errcodeOf e
  stage : t.stStage = stageCode g
  done : t.stDone = s.stDone
  err : t.stErr = true
  idle : t.busy = false
  faults : t.faults = s.faults
  stalled : t.stalled = s.stalled

/-- DMEM after exactly `MemWrite(dst_addr, len(out), out)` (R117): the bytes of `out` from `dst_addr` on, every other cell as before. -/
def StoredAtDest (s t : State) (out : List Byte) : Prop :=
  ∀ a, t.dmem.get a =
    if s.dstAddr.toNat ≤ a ∧ a < s.dstAddr.toNat + out.length then out[a - s.dstAddr.toNat]? else s.dmem.get a

/-- The frequency table and its VALID bit are unchanged. -/
abbrev SameFreq (s t : State) : Prop := t.freq = s.freq ∧ t.freqValid = s.freqValid

/-- The tree arena, its root and its VALID bit are unchanged. -/
abbrev SameTree (s t : State) : Prop := t.nodes = s.nodes ∧ t.root = s.root ∧ t.treeValid = s.treeValid

/-- The code table and its VALID bit are unchanged. -/
abbrev SameCode (s t : State) : Prop := t.code = s.code ∧ t.codeValid = s.codeValid

/-- The frequency table is invalid and at its reset value. -/
abbrev FreqCleared (t : State) : Prop := t.freq = Table.const 0 ∧ t.freqValid = false

/-- The tree is invalid and at its reset value. -/
abbrev TreeCleared (t : State) : Prop := t.nodes = [] ∧ t.root = 0 ∧ t.treeValid = false

/-- The code table is invalid and at its reset value. -/
abbrev CodeCleared (t : State) : Prop := t.code = Table.const [] ∧ t.codeValid = false

/-- Every register that is no result of a command, the parameters and the host's side are unchanged. -/
structure SameOperands (s t : State) : Prop where
  params : t.params = s.params
  ctrlIrqEn : t.ctrlIrqEn = s.ctrlIrqEn
  stOverrun : t.stOverrun = s.stOverrun
  cmd : t.cmd = s.cmd
  srcAddr : t.srcAddr = s.srcAddr
  srcLen : t.srcLen = s.srcLen
  dstAddr : t.dstAddr = s.dstAddr
  dstCap : t.dstCap = s.dstCap
  freqSel : t.freqSel = s.freqSel
  treeSel : t.treeSel = s.treeSel
  codeSelSym : t.codeSelSym = s.codeSelSym
  codeSelWord : t.codeSelWord = s.codeSelWord
  program : t.program = s.program
  readLog : t.readLog = s.readLog
  delay : t.delay = s.delay
  draws : t.draws = s.draws

/-- `s` after the host's next operation, whose effect on the block is none: the program goes on, a step of the latency is used up. -/
abbrev State.hostStepped (s : State) (rest : List HostOp) : State := { s with program := rest, delay := s.delay - 1 }

/-- Every register field, the engine and the tables at the reset values of R450. -/
structure BlockAtReset (t : State) : Prop where
  ctrlIrqEn : t.ctrlIrqEn = false
  stDone : t.stDone = false
  stErr : t.stErr = false
  stOverrun : t.stOverrun = false
  stInfoEmpty : t.stInfoEmpty = false
  stInfoDegenerate : t.stInfoDegenerate = false
  stInfoRunSplit : t.stInfoRunSplit = false
  stErrcode : t.stErrcode = 0
  stStage : t.stStage = 0
  cmd : t.cmd = 0
  srcAddr : t.srcAddr = 0
  srcLen : t.srcLen = 0
  dstAddr : t.dstAddr = 0
  dstCap : t.dstCap = 0
  outLen : t.outLen = 0
  inUsed : t.inUsed = 0
  bitCount : t.bitCount = 0
  freqSel : t.freqSel = 0
  treeSel : t.treeSel = 0
  codeSelSym : t.codeSelSym = 0
  codeSelWord : t.codeSelWord = 0
  busy : t.busy = false
  freq : ∀ x, t.freq.get x = 0
  freqValid : t.freqValid = false
  nodes : t.nodes = []
  root : t.root = 0
  treeValid : t.treeValid = false
  code : ∀ x, t.code.get x = []
  codeValid : t.codeValid = false

/-! ## The data errors of DECOMPRESS -/

/-- `decompress` raises error `e` at stage `g` on the stream `b`: one constructor per `raise` of 48_huffman_decoder.md R351 but the
overflow check, each with the checks before it passed. -/
inductive DecompressRaises : List Byte → ErrorKind → Stage → Prop where
  | noMarker : DecompressRaises [] .truncatedStream .headerParsing
  | emptyCut (rest : List Byte) : rest.length < 4 → DecompressRaises (0xE0 :: rest) .truncatedStream .headerParsing
  | emptyLength (n : Nat) (rest : List Byte) : 0 < n → n < 2 ^ 32 →
      DecompressRaises (0xE0 :: be32 n ++ rest) .malformedHeader .headerParsing
  | emptyTrailing (x : Byte) (rest : List Byte) : DecompressRaises (0xE0 :: be32 0 ++ x :: rest) .malformedHeader .headerParsing
  | badMarker (m : Byte) (rest : List Byte) : m ≠ 0xE0 → m ≠ 0xA5 →
      DecompressRaises (m :: rest) .malformedHeader .headerParsing
  | lengthCut (rest : List Byte) : rest.length < 4 → DecompressRaises (0xA5 :: rest) .truncatedStream .headerParsing
  | zeroLength (rest : List Byte) : DecompressRaises (0xA5 :: be32 0 ++ rest) .malformedHeader .headerParsing
  | header (n : Nat) (h : List Byte) (e : ErrorKind) : 0 < n → n < 2 ^ 32 → parseHeader h = .error e →
      DecompressRaises (0xA5 :: be32 n ++ h) e .headerParsing
  | bitCountCut (n : Nat) (h : List Byte) (p : ParsedHeader) : 0 < n → n < 2 ^ 32 → parseHeader h = .ok p →
      h.length < p.used + 4 → DecompressRaises (0xA5 :: be32 n ++ h) .truncatedStream .headerParsing
  | payloadCut (n : Nat) (h : List Byte) (p : ParsedHeader) : 0 < n → n < 2 ^ 32 → parseHeader h = .ok p →
      p.used + 4 ≤ h.length → h.length < p.used + 4 + ceilDiv (rdBe32 ((h.drop p.used).take 4)) 8 →
      DecompressRaises (0xA5 :: be32 n ++ h) .truncatedStream .bitUnpacking
  | payloadTrailing (n : Nat) (h : List Byte) (p : ParsedHeader) : 0 < n → n < 2 ^ 32 → parseHeader h = .ok p →
      p.used + 4 + ceilDiv (rdBe32 ((h.drop p.used).take 4)) 8 < h.length →
      DecompressRaises (0xA5 :: be32 n ++ h) .malformedHeader .bitUnpacking
  | midCode (n : Nat) (h : List Byte) (p : ParsedHeader) : 0 < n → n < 2 ^ 32 → parseHeader h = .ok p →
      h.length = p.used + 4 + ceilDiv (rdBe32 ((h.drop p.used).take 4)) 8 →
      unpackBits (h.drop (p.used + 4)) (rdBe32 ((h.drop p.used).take 4)) p.tree = none →
      DecompressRaises (0xA5 :: be32 n ++ h) .truncatedStream .bitUnpacking
  | badRun (n : Nat) (h : List Byte) (p : ParsedHeader) (syms : List Byte) : 0 < n → n < 2 ^ 32 → parseHeader h = .ok p →
      h.length = p.used + 4 + ceilDiv (rdBe32 ((h.drop p.used).take 4)) 8 →
      unpackBits (h.drop (p.used + 4)) (rdBe32 ((h.drop p.used).take 4)) p.tree = some syms → rleDecode syms = none →
      DecompressRaises (0xA5 :: be32 n ++ h) .malformedRun .rleExpansion
  | wrongLength (n : Nat) (h : List Byte) (p : ParsedHeader) (syms out : List Byte) : 0 < n → n < 2 ^ 32 →
      parseHeader h = .ok p → h.length = p.used + 4 + ceilDiv (rdBe32 ((h.drop p.used).take 4)) 8 →
      unpackBits (h.drop (p.used + 4)) (rdBe32 ((h.drop p.used).take 4)) p.tree = some syms → rleDecode syms = some out →
      out.length ≠ n → DecompressRaises (0xA5 :: be32 n ++ h) .malformedHeader .rleExpansion

/-- The host moves at the next step although a command is in flight: steps of its latency are left, or the engine is stalled. -/
abbrev State.HostMovesBusy (s : State) : Prop := s.busy = true ∧ (0 < s.delay ∨ s.stalled = true)

end Sys2Proof.Machine
end

