-- ==== Sys2Proof/Certificates/Slice0/Obligations.lean ====
section
/-! DEFINITION. The statements for the provers. Each says which rule of spec/ it formalises. -/

open Sys2Proof Sys2Proof.Machine

/-! ## Encodings -/

/-- R131, R133: a word selects a command only when it is that command's word, the word the encoder gives; every other word is refused,
a nonzero RSVD first. -/
def Obligations.NoOtherWordSelectsACommand : Prop :=
  ∀ w : Word,
    (∀ i : Instr,
      let word : Word := match i with
        | .nop => 0x00000000
        | .compress => 0x00000001
        | .decompress => 0x00000002
        | .rleEncode => 0x00000010
        | .rleDecode => 0x00000011
        | .freqAnalyze => 0x00000020
        | .treeBuild => 0x00000030
        | .codeDerive => 0x00000040
        | .hdrSerialize => 0x00000041
        | .hdrParse => 0x00000042
        | .pack => 0x00000050
        | .unpack => 0x00000051
      encode i = word ∧ (decode w = .ok i ↔ w = word)) ∧
    (decode w = .error .reservedBits ↔ w.toNat / 256 ≠ 0) ∧
    (decode w = .error .reservedOpcode ↔ w.toNat / 256 = 0 ∧ ∀ i, w ≠ encode i)

/-- R131: the twelve legal command words, written out. -/
def Obligations.TwelveLegalWords : Prop :=
  decode 0x00000000 = .ok .nop ∧ decode 0x00000001 = .ok .compress ∧ decode 0x00000002 = .ok .decompress ∧
  decode 0x00000010 = .ok .rleEncode ∧ decode 0x00000011 = .ok .rleDecode ∧ decode 0x00000020 = .ok .freqAnalyze ∧
  decode 0x00000030 = .ok .treeBuild ∧ decode 0x00000040 = .ok .codeDerive ∧ decode 0x00000041 = .ok .hdrSerialize ∧
  decode 0x00000042 = .ok .hdrParse ∧ decode 0x00000050 = .ok .pack ∧ decode 0x00000051 = .ok .unpack ∧
  decode 0x00000003 = .error .reservedOpcode ∧ decode 0x00000101 = .error .reservedBits

/-! ## The step -/

/-- 40_command_common.md R182, 20_memory.md R112: a step is the engine's completion of the command CMD decodes to, or the host's next
operation. The turn is the engine's when it is busy and not stalled and the host's program is over, has no step, or has used up the
latency (log entry 3), a poll of `wait` being a host step like any other; a host operation the host has a step for is performed in
every other state. -/
def Obligations.StepCompletesTheDecodedCommand : Prop :=
  (∀ (s : State) (i : Instr), s.busy = true → s.stalled = false → decode s.cmd = .ok i →
    (s.program = [] ∨ ∃ op rest, s.program = op :: rest ∧ (admitted s.params op = false ∨ s.delay = 0)) →
    step s = exec i s) ∧
  (∀ (s : State) (op : HostOp) (rest : List HostOp), s.program = op :: rest → admitted s.params op = true →
    (s.busy = false ∨ s.stalled = true ∨ 0 < s.delay) →
    step s = .next (s.hostPerform op rest))

/-- 40_command_common.md R193: in the engine's turn an illegal command word completes with IllegalCommand at STAGE 0; no table, no DMEM
byte and no register but those R186 names changes. -/
def Obligations.IllegalWordCompletesWithIllegalCommand : Prop :=
  ∀ (s : State), engineTurn s = true →
    (s.cmd.toNat / 256 ≠ 0 ∨ ∀ i, (opcodeOf i).toNat ≠ s.cmd.toNat % 256) →
    ∃ t, step s = .next t ∧ FailedFrom s t .illegalCommand .idle ∧ t.stErrcode = 7 ∧ t.stStage = 0 ∧
      SameFreq s t ∧ SameTree s t ∧ SameCode s t ∧ SameOperands s t

/-- 70_reset_and_hazards.md R466: in every run the in-flight command completes (or its engine stalls on an INDET byte, or a reset drops
it) within the steps its latency allows. The latency itself is a free value (log entry 3). -/
def Obligations.InFlightCommandEnds : Prop :=
  ∀ s : State, s.busy = true → s.stalled = false →
    ∃ k t, k ≤ s.delay + 1 ∧ Sys2Proof.core.run k s = .next t ∧ (t.busy = false ∨ t.stalled = true)

/-! ## Completion in general -/

/-- R195, 10_state.md R39: every command's completion step has an outcome in every state; one completion sets exactly one of DONE and
ERR and ends the command, and the only other outcome is the stall of R194. -/
def Obligations.CompletionSetsExactlyOneFlag : Prop :=
  ∀ (i : Instr) (s : State), ∃ t, exec i s = .next t ∧
    (s.stDone = false → s.stErr = false → s.stalled = false →
      (t.busy = false ∧ t.stalled = false ∧ t.stErr = !t.stDone) ∨
      (t.busy = s.busy ∧ t.stalled = true ∧ t.stDone = false ∧ t.stErr = false))

/-- 40_command_common.md R189, steps 2 to 5 (R183, R184, R185): the first generic precheck that fails gives the error, at STAGE 0. -/
def Obligations.PrechecksFailInOrder : Prop :=
  ∀ (i : Instr) (s : State),
    ((shapeOf i).source = true → ¬ s.SrcInside →
      ∃ t, exec i s = .next t ∧ FailedFrom s t .rangeFault .idle) ∧
    (((shapeOf i).source = true → s.SrcInside) → (shapeOf i).dest = true → ¬ s.DstInside →
      ∃ t, exec i s = .next t ∧ FailedFrom s t .rangeFault .idle) ∧
    ((shapeOf i).source = true → (shapeOf i).dest = true → s.SrcInside → s.DstInside → s.Overlapping →
      ∃ t, exec i s = .next t ∧ FailedFrom s t .bufferOverlap .idle) ∧
    (((shapeOf i).source = true → s.SrcInside) → ((shapeOf i).dest = true → s.DstInside) →
      ((shapeOf i).source = true → (shapeOf i).dest = true → ¬ s.Overlapping) → prereqHolds (shapeOf i).prereq s = false →
      ∃ t, exec i s = .next t ∧ FailedFrom s t .stateError .idle)

/-- R132, R190: which command has a source and a destination, what it needs valid, and the tables it may write. -/
def Obligations.ImplicitOperandsOfEachCommand : Prop :=
  (∀ i, (shapeOf i).source = true ↔
    i ∈ [Instr.compress, .decompress, .rleEncode, .rleDecode, .freqAnalyze, .hdrParse, .pack, .unpack]) ∧
  (∀ i, (shapeOf i).dest = true ↔ i ∈ [Instr.compress, .decompress, .rleEncode, .rleDecode, .hdrSerialize, .pack, .unpack]) ∧
  (∀ i s, prereqHolds (shapeOf i).prereq s =
    match i with
    | .treeBuild => s.freqValid
    | .codeDerive | .unpack => s.treeValid
    | .hdrSerialize | .pack => s.codeValid
    | _ => true) ∧
  (∀ i, (shapeOf i).writes =
    match i with
    | .compress | .decompress => ⟨true, true, true⟩
    | .freqAnalyze => ⟨true, false, false⟩
    | .treeBuild => ⟨false, true, false⟩
    | .codeDerive => ⟨false, false, true⟩
    | .hdrParse => ⟨false, true, true⟩
    | _ => ⟨false, false, false⟩)

/-- R187, R188: a command that ends in error writes no DMEM byte; a table outside the write set keeps its value and VALID bit; on
error a table of the write set is at its reset value with VALID 0; on success it has VALID 1, or is at its reset value with VALID 0.
The write sets are those of R132. -/
def Obligations.ErrorsAndWriteSets : Prop :=
  ∀ (i : Instr) (s t : State), s.stErr = false → s.stDone = false → exec i s = .next t →
    (i ∉ [Instr.compress, .decompress, .freqAnalyze] → SameFreq s t) ∧
    (i ∉ [Instr.compress, .decompress, .treeBuild, .hdrParse] → SameTree s t) ∧
    (i ∉ [Instr.compress, .decompress, .codeDerive, .hdrParse] → SameCode s t) ∧
    (t.stErr = true → t.dmem = s.dmem ∧
      (i ∈ [Instr.compress, .decompress, .freqAnalyze] → FreqCleared t) ∧
      (i ∈ [Instr.compress, .decompress, .treeBuild, .hdrParse] → TreeCleared t) ∧
      (i ∈ [Instr.compress, .decompress, .codeDerive, .hdrParse] → CodeCleared t)) ∧
    (t.stDone = true →
      (i ∈ [Instr.compress, .decompress, .freqAnalyze] → t.freqValid = true ∨ FreqCleared t) ∧
      (i ∈ [Instr.compress, .decompress, .treeBuild, .hdrParse] → t.treeValid = true ∨ TreeCleared t) ∧
      (i ∈ [Instr.compress, .decompress, .codeDerive, .hdrParse] → t.codeValid = true ∨ CodeCleared t))

/-- The frame of every command (R186, R117): operands, selects, CTRL, OVERRUN, the host's side and the parameters keep their values;
BIT_COUNT changes only by PACK, COMPRESS and DECOMPRESS; DMEM is unchanged but for the OUT_LEN bytes stored at DST_ADDR by a command
with a destination, and never outside `[DST_ADDR, DST_ADDR + DST_CAP)` (10_state.md R48). -/
def Obligations.CommandFrame : Prop :=
  ∀ (i : Instr) (s t : State), exec i s = .next t →
    SameOperands s t ∧
    (i ∉ [Instr.pack, .compress, .decompress] → t.bitCount = s.bitCount) ∧
    (i ∈ [Instr.nop, .freqAnalyze, .treeBuild, .codeDerive, .hdrParse] → ∀ a, t.dmem.get a = s.dmem.get a) ∧
    (i ∈ [Instr.compress, .decompress, .rleEncode, .rleDecode, .hdrSerialize, .pack, .unpack] →
      ∀ a, (a < s.dstAddr.toNat ∨ s.dstAddr.toNat + t.outLen.toNat ≤ a) → t.dmem.get a = s.dmem.get a) ∧
    (∀ a, (a < s.dstAddr.toNat ∨ s.dstAddr.toNat + s.dstCap.toNat ≤ a) → t.dmem.get a = s.dmem.get a)

/-- 40_command_common.md R194: an INDET cell in the source range (the first one is recorded, log entry 8) records UninitRead; the command
does not complete, `busy` stays 1, and the engine, marked `stalled` (log entry 9), has no step at the next state, whatever the program.
Every later step leaves it so, unless the host's operation is a reset. -/
def Obligations.UninitialisedSourceStallsTheEngine : Prop :=
  (∀ (i : Instr) (s : State) (k : Nat), (shapeOf i).source = true → precheck (shapeOf i) s = none → s.busy = true →
    k < s.srcLen.toNat → s.dmem.get (s.srcAddr.toNat + k) = none →
    (∀ j, j < k → s.dmem.get (s.srcAddr.toNat + j) ≠ none) →
    ∃ t, exec i s = .next t ∧ ModelFault.uninitRead (s.srcAddr.toNat + k) ∈ t.faults ∧ t.busy = true ∧
      t = { s with faults := t.faults, stalled := true } ∧ ∀ p, engineTurn { t with program := p } = false) ∧
  (∀ s t : State, s.busy = true → s.stalled = true → step s = .next t →
    (t.busy = true ∧ t.stalled = true) ∨ ∃ op rest, s.program = op :: rest ∧ Resets s.params op)

/-- R191: an output computed without a data error and longer than DST_CAP is OutputOverflow, at the stage of R190, with no byte
written; a data error is reported whatever DST_CAP is. (For COMPRESS and DECOMPRESS the output is that of their own functions R331
and R351.) -/
def Obligations.OutputOverflowAtItsStage : Prop :=
  (∀ (s : State) (b : List Byte), s.ReadyWith b →
    (s.dstCap.toNat < (rleEncode b).length →
      ∃ t, exec .rleEncode s = .next t ∧ FailedFrom s t .outputOverflow .rleEncoding) ∧
    (∀ out, rleDecode b = some out → s.dstCap.toNat < out.length →
      ∃ t, exec .rleDecode s = .next t ∧ FailedFrom s t .outputOverflow .rleExpansion) ∧
    (∀ p bc, s.codeValid = true → packBits b s.code = some (p, bc) → s.dstCap.toNat < p.length →
      ∃ t, exec .pack s = .next t ∧ FailedFrom s t .outputOverflow .bitPacking) ∧
    (∀ out, s.treeValid = true → unpackBits b s.bitCount.toNat ⟨s.nodes, s.root⟩ = some out → s.dstCap.toNat < out.length →
      ∃ t, exec .unpack s = .next t ∧ FailedFrom s t .outputOverflow .bitUnpacking) ∧
    (∀ r, compressResult b = .ok r → s.dstCap.toNat < r.out.length →
      ∃ t, exec .compress s = .next t ∧ FailedFrom s t .outputOverflow .bitPacking) ∧
    (∀ r, decompressResult b = .ok r → s.dstCap.toNat < r.out.length →
      ∃ t, exec .decompress s = .next t ∧ FailedFrom s t .outputOverflow .rleExpansion) ∧
    (∀ e g,
      (rleDecodeResult b = .error (e, g) → ∃ t, exec .rleDecode s = .next t ∧ FailedFrom s t e g) ∧
      (s.codeValid = true → packResult s.code b = .error (e, g) → ∃ t, exec .pack s = .next t ∧ FailedFrom s t e g) ∧
      (s.treeValid = true → unpackResult s.bitCount.toNat ⟨s.nodes, s.root⟩ b = .error (e, g) →
        ∃ t, exec .unpack s = .next t ∧ FailedFrom s t e g) ∧
      (decompressResult b = .error (e, g) → ∃ t, exec .decompress s = .next t ∧ FailedFrom s t e g))) ∧
  (∀ s : State, s.DstInside → s.codeValid = true → s.dstCap.toNat < (serializeHeader s.code).length →
    ∃ t, exec .hdrSerialize s = .next t ∧ FailedFrom s t .outputOverflow .headerSerialization)

/-- 60_exceptions.md R420, R421: `irq` is IRQ_EN and (DONE or ERR). It rises at a completion, that of an illegal word included, while
IRQ_EN = 1, and when IRQ_EN is written to 1 while DONE or ERR is set; it falls when the host clears DONE and ERR, writes IRQ_EN = 0,
issues a command or resets the block; nothing else moves it. OVERRUN has no part in it. -/
def Obligations.CompletionRaisesTheInterrupt : Prop :=
  (∀ s : State, irq s = (s.ctrlIrqEn && (s.stDone || s.stErr)) ∧ ∀ b, irq { s with stOverrun := b } = irq s) ∧
  (∀ (i : Instr) (s t : State), s.stalled = false → exec i s = .next t → t.stalled = false → irq t = s.ctrlIrqEn) ∧
  (∀ (s t : State) (e : DecodeError), engineTurn s = true → decode s.cmd = .error e → step s = .next t → irq t = s.ctrlIrqEn) ∧
  (∀ (s t : State) (v : Word) (rest : List HostOp), s.busy = false ∨ s.HostMovesBusy → step s = .next t →
    (s.program = .write (s.params.regBase + 0x08) 4 v :: rest → v.getLsbD 1 = false →
      irq t = (v.getLsbD 0 && (s.stDone || s.stErr))) ∧
    (s.program = .write (s.params.regBase + 0x0C) 4 v :: rest →
      irq t = (s.ctrlIrqEn && ((s.stDone && !v.getLsbD 1) || (s.stErr && !v.getLsbD 2)))) ∧
    (s.program = .write (s.params.regBase + 0x10) 4 v :: rest → s.busy = false → irq t = false) ∧
    (∀ op, s.program = op :: rest → Resets s.params op → irq t = false)) ∧
  (∀ s t : State, step s = .next t → irq s = false → irq t = true →
    engineTurn s = true ∨ ∃ (v : Word) (rest : List HostOp),
      s.program = .write (s.params.regBase + 0x08) 4 v :: rest ∧ v.getLsbD 0 = true ∧ v.getLsbD 1 = false ∧
        (s.stDone || s.stErr) = true) ∧
  (∀ s t : State, step s = .next t → irq s = true → irq t = false →
    engineTurn s = false ∧ ∃ op rest, s.program = op :: rest ∧
      (Resets s.params op ∨ ∃ v : Word,
        op = .write (s.params.regBase + 0x0C) 4 v ∨ (op = .write (s.params.regBase + 0x08) 4 v ∧ v.getLsbD 0 = false) ∨
          (op = .write (s.params.regBase + 0x10) 4 v ∧ s.busy = false)))

/-! ## The commands -/

/-- R192: NOP, the word 0, completes in every state; from reset it leaves STATUS 0x00070002. -/
def Obligations.NopCompletes : Prop :=
  encode .nop = 0x00000000 ∧
  (∃ t, exec .nop (State.reset.issue (encode .nop)) = .next t ∧ statusWord t = 0x00070002) ∧
  ∀ s : State, ∃ t, exec .nop s = .next t ∧ SucceededFrom s t 0 0 Info.none s.bitCount ∧ t.dmem = s.dmem ∧
    SameFreq s t ∧ SameTree s t ∧ SameCode s t ∧ SameOperands s t

/-- R212: RLE_ENCODE of `b` stores `rle_encode(b)` when it fits. -/
def Obligations.RleEncodeCompletes : Prop :=
  ∀ (s : State) (b : List Byte), s.ReadyWith b → (rleEncode b).length ≤ s.dstCap.toNat →
    ∃ t, exec .rleEncode s = .next t ∧
      SucceededFrom s t (rleEncode b).length s.srcLen ⟨false, false, rleSplit b⟩ s.bitCount ∧
      StoredAtDest s t (rleEncode b) ∧ SameFreq s t ∧ SameTree s t ∧ SameCode s t ∧ SameOperands s t

/-- R215: RLE_DECODE of well-formed pairs stores their expansion when it fits. -/
def Obligations.RleDecodeCompletes : Prop :=
  ∀ (s : State) (p out : List Byte), s.ReadyWith p → rleDecode p = some out → out.length ≤ s.dstCap.toNat →
    ∃ t, exec .rleDecode s = .next t ∧ SucceededFrom s t out.length s.srcLen Info.none s.bitCount ∧
      StoredAtDest s t out ∧ SameFreq s t ∧ SameTree s t ∧ SameCode s t ∧ SameOperands s t

/-- R231: FREQ_ANALYZE counts the source bytes; TREE and CODE are unchanged. -/
def Obligations.FreqAnalyzeCompletes : Prop :=
  ∀ (s : State) (b : List Byte), s.SrcInside → s.SourceHolds b →
    ∃ t, exec .freqAnalyze s = .next t ∧ SucceededFrom s t 0 s.srcLen Info.none s.bitCount ∧ t.dmem = s.dmem ∧
      (∀ x, t.freq.get x = BitVec.ofNat 32 (b.count x)) ∧ t.freqValid = true ∧
      SameTree s t ∧ SameCode s t ∧ SameOperands s t

/-- R243: TREE_BUILD builds the tree of the frequency table; with one symbol `x` it is the degenerate tree of R244. -/
def Obligations.TreeBuildCompletes : Prop :=
  ∀ s : State, s.freqValid = true →
    (∀ x, presentSymbols s.freq = [x] →
      ∃ t, exec .treeBuild s = .next t ∧ SucceededFrom s t 0 0 ⟨false, true, false⟩ s.bitCount ∧
        t.nodes = [.leaf x (s.freq.get x), .leaf (x + 1) 0, .internal 0 1 (s.freq.get x)] ∧ t.root = 2 ∧ t.treeValid = true ∧
        t.dmem = s.dmem ∧ SameFreq s t ∧ SameCode s t ∧ SameOperands s t) ∧
    (2 ≤ (presentSymbols s.freq).length →
      ∃ t, exec .treeBuild s = .next t ∧ SucceededFrom s t 0 0 Info.none s.bitCount ∧
        t.nodes = (buildTree s.freq).nodes ∧ t.root = (buildTree s.freq).root ∧ t.treeValid = true ∧
        t.dmem = s.dmem ∧ SameFreq s t ∧ SameCode s t ∧ SameOperands s t)

/-- R261: CODE_DERIVE derives the codes of the tree. -/
def Obligations.CodeDeriveCompletes : Prop :=
  ∀ s : State, s.treeValid = true →
    ∃ t, exec .codeDerive s = .next t ∧ SucceededFrom s t 0 0 Info.none s.bitCount ∧
      t.code = deriveCodes ⟨s.nodes, s.root⟩ ∧ t.codeValid = true ∧ t.dmem = s.dmem ∧
      SameFreq s t ∧ SameTree s t ∧ SameOperands s t

/-- R265: HDR_SERIALIZE stores the header of the code table when it fits. The header's bytes (30_encoding.md R144, R263, R264) are the
number of coded symbols minus 1, then for each coded symbol, ascending, the symbol, its code's length and the code, packed and padded
with zeros. -/
def Obligations.HdrSerializeCompletes : Prop :=
  (∀ s : State, s.DstInside → s.codeValid = true → (serializeHeader s.code).length ≤ s.dstCap.toNat →
    ∃ t, exec .hdrSerialize s = .next t ∧ SucceededFrom s t (serializeHeader s.code).length 0 Info.none s.bitCount ∧
      StoredAtDest s t (serializeHeader s.code) ∧ SameFreq s t ∧ SameTree s t ∧ SameCode s t ∧ SameOperands s t) ∧
  (∀ c : CodeTable, ∃ es : List HeaderEntry,
    serializeHeader c = headerBytesOf es.length es ∧
    es.map (·.symbol) = ((List.range 256).map (BitVec.ofNat 8)).filter (fun x => c.get x != []) ∧
    (∀ e ∈ es, e.bits = c.get e.symbol ∧ FieldPadded e.bits e.field) ∧
    (serializeHeader c).length = 1 + (es.map (fun e => 2 + ceilDiv e.bits.length 8)).sum ∧
    (c.wf → 2 ≤ es.length ∧ (serializeHeader c).length ≤ 8705))

/-- R272: HDR_PARSE of an acceptable header leaves its tree and code table valid and reports the header's length. -/
def Obligations.HdrParseCompletes : Prop :=
  ∀ (s : State) (h : List Byte) (p : ParsedHeader), s.SrcInside → s.SourceHolds h → parseHeader h = .ok p →
    ∃ t, exec .hdrParse s = .next t ∧ SucceededFrom s t 0 (BitVec.ofNat 32 p.used) Info.none s.bitCount ∧
      t.nodes = p.tree.nodes ∧ t.root = 0 ∧ t.treeValid = true ∧ t.code = p.code ∧ t.codeValid = true ∧
      t.dmem = s.dmem ∧ SameFreq s t ∧ SameOperands s t

/-- R292: PACK of coded symbols stores the packed codes and records the bit count. -/
def Obligations.PackCompletes : Prop :=
  ∀ (s : State) (b : List Byte), s.ReadyWith b → s.codeValid = true → (∀ x ∈ b, s.code.get x ≠ []) →
    ceilDiv (b.flatMap s.code.get).length 8 ≤ s.dstCap.toNat →
    ∃ t, exec .pack s = .next t ∧
      SucceededFrom s t (ceilDiv (b.flatMap s.code.get).length 8) s.srcLen Info.none
        (BitVec.ofNat 32 (b.flatMap s.code.get).length) ∧
      StoredAtDest s t (bytesOfBits (b.flatMap s.code.get)) ∧ SameFreq s t ∧ SameTree s t ∧ SameCode s t ∧ SameOperands s t

/-- R312: UNPACK of BIT_COUNT bits that end on a code stores the symbols. -/
def Obligations.UnpackCompletes : Prop :=
  ∀ (s : State) (p out : List Byte), s.ReadyWith p → s.treeValid = true →
    unpackBits p s.bitCount.toNat ⟨s.nodes, s.root⟩ = some out → out.length ≤ s.dstCap.toNat →
    ∃ t, exec .unpack s = .next t ∧
      SucceededFrom s t out.length (BitVec.ofNat 32 (ceilDiv s.bitCount.toNat 8)) Info.none s.bitCount ∧
      StoredAtDest s t out ∧ SameFreq s t ∧ SameTree s t ∧ SameCode s t ∧ SameOperands s t

/-- R142, R330, R350: COMPRESS of a zero-length input stores the five bytes of the empty stream, and DECOMPRESS of exactly these bytes
succeeds with no output; no other byte list is accepted as the empty stream. -/
def Obligations.EmptyStreamBothWays : Prop :=
  (∀ s : State, s.srcLen = 0 → s.SrcInside → s.DstInside → 5 ≤ s.dstCap.toNat →
    ∃ t, exec .compress s = .next t ∧ SucceededFrom s t 5 0 ⟨true, false, false⟩ 0 ∧
      StoredAtDest s t [0xE0, 0x00, 0x00, 0x00, 0x00] ∧ FreqCleared t ∧ TreeCleared t ∧ CodeCleared t ∧ SameOperands s t) ∧
  (∀ s : State, s.ReadyWith [0xE0, 0x00, 0x00, 0x00, 0x00] →
    ∃ t, exec .decompress s = .next t ∧ SucceededFrom s t 0 5 ⟨true, false, false⟩ 0 ∧
      StoredAtDest s t [] ∧ FreqCleared t ∧ TreeCleared t ∧ CodeCleared t ∧ SameOperands s t) ∧
  (∀ (b : List Byte) (r : Success), decompressResult b = .ok r →
    (r.info.empty = true ↔ b = [0xE0, 0x00, 0x00, 0x00, 0x00]))

/-- R331, R333: COMPRESS of a non-empty input cannot fail for a data reason: with a large enough destination it stores the stream of
R141 built from the RLE pairs, their tree, its codes and the packed pairs, and leaves only the code table valid. -/
def Obligations.CompressCompletes : Prop :=
  ∀ (s : State) (b : List Byte), s.params.sizeOk → s.ReadyWith b → b ≠ [] →
    ∃ tree deg, treeOf (analyze (rleEncode b)) = some (tree, deg) ∧
      let bits := (rleEncode b).flatMap (deriveCodes tree).get
      let out := 0xA5 :: be32 b.length ++ serializeHeader (deriveCodes tree) ++ be32 bits.length ++ bytesOfBits bits
      out.length ≤ s.dstCap.toNat →
      ∃ t, exec .compress s = .next t ∧
        SucceededFrom s t out.length s.srcLen ⟨false, deg, rleSplit b⟩ (BitVec.ofNat 32 bits.length) ∧
        StoredAtDest s t out ∧ FreqCleared t ∧ TreeCleared t ∧ t.code = deriveCodes tree ∧ t.codeValid = true ∧
        SameOperands s t

/-- R351: DECOMPRESS of a well-framed Huffman stream stores the expansion of its symbols and leaves only the parsed code table valid. -/
def Obligations.DecompressCompletes : Prop :=
  ∀ (s : State) (n bc : Nat) (h payload syms out : List Byte) (p : ParsedHeader),
    s.ReadyWith (0xA5 :: be32 n ++ h ++ be32 bc ++ payload) → 0 < n → n < 2 ^ 32 → bc < 2 ^ 32 →
    parseHeader (h ++ be32 bc ++ payload) = .ok p → p.used = h.length → payload.length = ceilDiv bc 8 →
    unpackBits payload bc p.tree = some syms → rleDecode syms = some out → out.length = n → n ≤ s.dstCap.toNat →
    ∃ t, exec .decompress s = .next t ∧ SucceededFrom s t n s.srcLen Info.none (BitVec.ofNat 32 bc) ∧
      StoredAtDest s t out ∧ FreqCleared t ∧ TreeCleared t ∧ t.code = p.code ∧ t.codeValid = true ∧ SameOperands s t

/-- R351: every `raise` of DECOMPRESS but the overflow is reported with its error code and stage, no byte is written, and all three
tables are invalid. -/
def Obligations.DecompressReportsEachDataError : Prop :=
  ∀ (s : State) (b : List Byte) (e : ErrorKind) (g : Stage), s.ReadyWith b → DecompressRaises b e g →
    ∃ t, exec .decompress s = .next t ∧ FailedFrom s t e g ∧ FreqCleared t ∧ TreeCleared t ∧ CodeCleared t

/-- R215, R243, R272, R292, R312: the data errors of the stage commands, with the stage each names. -/
def Obligations.StageCommandsReportDataErrors : Prop :=
  (∀ (s : State) (p : List Byte), s.ReadyWith p → rleDecode p = none →
    ∃ t, exec .rleDecode s = .next t ∧ FailedFrom s t .malformedRun .rleExpansion) ∧
  (∀ s : State, s.freqValid = true → (∀ x, s.freq.get x = 0) →
    ∃ t, exec .treeBuild s = .next t ∧ FailedFrom s t .emptyInput .treeBuilding ∧ TreeCleared t ∧ SameFreq s t) ∧
  (∀ (s : State) (h : List Byte) (e : ErrorKind), s.SrcInside → s.SourceHolds h → parseHeader h = .error e →
    ∃ t, exec .hdrParse s = .next t ∧ FailedFrom s t e .headerParsing ∧ TreeCleared t ∧ CodeCleared t ∧
      (e = .malformedHeader ∨ e = .truncatedStream)) ∧
  (∀ (s : State) (b : List Byte), s.ReadyWith b → s.codeValid = true → (∃ x ∈ b, s.code.get x = []) →
    ∃ t, exec .pack s = .next t ∧ FailedFrom s t .uncodedSymbol .bitPacking) ∧
  (∀ (s : State) (p : List Byte), s.ReadyWith p → s.treeValid = true →
    unpackBits p s.bitCount.toNat ⟨s.nodes, s.root⟩ = none →
    ∃ t, exec .unpack s = .next t ∧ FailedFrom s t .truncatedStream .bitUnpacking)

/-! ## What the commands compute -/

/-- 41_rle_preprocessor.md R211: a maximal run of length L becomes floor(L / 255) pairs of count 255 and one pair of the rest, and sets
the split flag when L > 255; the output is even and at most twice the input. -/
def Obligations.RleEncodeSplitsLongRuns : Prop :=
  rleEncode [] = [] ∧ rleSplit [] = false ∧
  (∀ b, (rleEncode b).length % 2 = 0 ∧ (rleEncode b).length ≤ 2 * b.length) ∧
  ∀ (v : Byte) (n : Nat) (rest : List Byte), 0 < n → rest.head? ≠ some v →
    rleEncode (List.replicate n v ++ rest) =
      (List.replicate (n / 255) [v, 255]).flatten ++ (if n % 255 = 0 then [] else [v, BitVec.ofNat 8 (n % 255)]) ++
        rleEncode rest ∧
    rleSplit (List.replicate n v ++ rest) = (decide (255 < n) || rleSplit rest)

/-- R213: `rle_decode` succeeds exactly on a list of pairs with nonzero counts, and expands each in order. -/
def Obligations.RleDecodeExpandsPairs : Prop :=
  ∀ p out : List Byte, rleDecode p = some out ↔
    ∃ runs : List (Byte × Byte), (∀ r ∈ runs, r.2 ≠ 0) ∧ p = runs.flatMap (fun r => [r.1, r.2]) ∧
      out = runs.flatMap (fun r => List.replicate r.2.toNat r.1)

/-- R214: RLE decoding inverts RLE encoding. -/
def Obligations.RleDecodeInvertsRleEncode : Prop := ∀ b : List Byte, rleDecode (rleEncode b) = some b

/-- 43_huffman_tree_builder.md R241, R242: the tree of k symbols has 2k - 1 nodes and root 2k - 2, its first k nodes are the leaves in
ascending symbol order, every later node merges the two least keys not yet merged, the lesser on the left, and it satisfies every
condition of R67. The frequencies are those of R8, whose sums fit 32 bits; beyond them the shape holds all the same. -/
def Obligations.BuiltTreeIsWellFormed : Prop :=
  ∀ f : FreqTable, 2 ≤ (presentSymbols f).length →
    (buildTree f).nodes.length = 2 * (presentSymbols f).length - 1 ∧
    (buildTree f).root.toNat = 2 * (presentSymbols f).length - 2 ∧
    presentSymbols f = ((List.range 256).map (BitVec.ofNat 8)).filter (fun x => f.get x != 0) ∧
    (buildTree f).nodes.take (presentSymbols f).length = (presentSymbols f).map (fun x => .leaf x (f.get x)) ∧
    (buildTree f).wf ∧
    (((presentSymbols f).map (fun x => (f.get x).toNat)).sum < 2 ^ 32 →
      ∀ j, (presentSymbols f).length ≤ j → j < (buildTree f).nodes.length → MergeStep (buildTree f).nodes j)

/-- 44_code_table_rom.md R260: in a valid tree a symbol's code is the path to its leaf, and a symbol with no leaf has no code. -/
def Obligations.DerivedCodesAreLeafPaths : Prop :=
  ∀ t : Tree, t.wf →
    (∀ x ∈ leafSymbols t.nodes, 1 ≤ ((deriveCodes t).get x).length ∧ ((deriveCodes t).get x).length ≤ 255 ∧
      ∃ f, followCode t.nodes ((deriveCodes t).get x) t.root.toNat = some (.leaf x f)) ∧
    (∀ x, x ∉ leafSymbols t.nodes → (deriveCodes t).get x = [])

/-- R262: the code table of a valid tree is prefix-free and complete and has at least two codes. -/
def Obligations.DerivedCodesArePrefixFreeAndComplete : Prop :=
  ∀ t : Tree, t.wf →
    (deriveCodes t).prefixFree ∧ (deriveCodes t).complete ∧ 2 ≤ (codedSymbols (deriveCodes t)).length

/-- R271: `parse_header` accepts exactly the headers that begin with a listing of a valid code table, whatever the padding bits of its
code fields (30_encoding.md R145) and whatever follows; it then gives that table, the valid tree of it, and the listing's length. A
header with n = 1 is never accepted, and the only errors are MalformedHeader and TruncatedStream. -/
def Obligations.AcceptedHeadersAreValid : Prop :=
  (∀ (h : List Byte) (p : ParsedHeader), parseHeader h = .ok p →
    p.tree.wf ∧ p.code = deriveCodes p.tree ∧ p.tree.root = 0 ∧
    ∃ (es : List HeaderEntry) (rest : List Byte), h = headerBytesOf es.length es ++ rest ∧ p.used = (headerBytesOf es.length es).length ∧
      Listing es.length es ∧ 2 ≤ es.length ∧ es.map (·.symbol) = codedSymbols p.code) ∧
  (∀ (es : List HeaderEntry) (rest : List Byte), 1 ≤ es.length → es.length ≤ 256 → Listing es.length es →
    ∃ p, parseHeader (headerBytesOf es.length es ++ rest) = .ok p ∧ p.used = (headerBytesOf es.length es).length ∧
      (∀ e ∈ es, p.code.get e.symbol = e.bits) ∧ ∀ x, (∀ e ∈ es, e.symbol ≠ x) → p.code.get x = []) ∧
  (∀ (c : CodeTable) (es : List HeaderEntry) (rest : List Byte), c.wf → es.map (·.symbol) = codedSymbols c →
    (∀ e ∈ es, e.bits = c.get e.symbol ∧ FieldHolds e.bits e.field) →
    ∃ p, parseHeader (headerBytesOf es.length es ++ rest) = .ok p ∧ p.code = c ∧ p.used = (headerBytesOf es.length es).length) ∧
  (∀ (rest : List Byte) (p : ParsedHeader), parseHeader (0 :: rest) ≠ .ok p) ∧
  (∀ (h : List Byte) (e : ErrorKind), parseHeader h = .error e → e = .malformedHeader ∨ e = .truncatedStream)

/-- R271, R273: parse errors in byte order. After the first entries of a header, fewer than its n and themselves in order: nothing more is
TruncatedStream; a symbol that is not above the ones before (H1) is MalformedHeader; a symbol alone is TruncatedStream; a length 0 (H2)
is MalformedHeader; a code field cut short is TruncatedStream; a whole code field whose code is not prefix-free with the codes before
(H3, H5), or whose tree has more than 2n - 1 nodes (H4), is MalformedHeader. -/
def Obligations.HeaderErrorsInByteOrder : Prop :=
  parseHeader [] = .error .truncatedStream ∧
  ∀ (n : Nat) (es : List HeaderEntry), 1 ≤ n → n ≤ 256 → es.length < n → Listing n es →
    parseHeader (headerBytesOf n es) = .error .truncatedStream ∧
    (∀ x rest, (∃ e ∈ es, x.toNat ≤ e.symbol.toNat) → parseHeader (headerBytesOf n es ++ x :: rest) = .error .malformedHeader) ∧
    (∀ x, (∀ e ∈ es, e.symbol.toNat < x.toNat) →
      parseHeader (headerBytesOf n es ++ [x]) = .error .truncatedStream ∧
      (∀ rest, parseHeader (headerBytesOf n es ++ x :: 0 :: rest) = .error .malformedHeader) ∧
      (∀ len rest, len ≠ 0 → rest.length < ceilDiv len.toNat 8 →
        parseHeader (headerBytesOf n es ++ x :: len :: rest) = .error .truncatedStream) ∧
      (∀ bits field rest, 1 ≤ bits.length → bits.length ≤ 255 → FieldHolds bits field →
        ¬ Listing n (es ++ [⟨x, bits, field⟩]) →
        parseHeader (headerBytesOf n es ++ HeaderEntry.bytes ⟨x, bits, field⟩ ++ rest) = .error .malformedHeader))

/-- R274: parsing a serialized valid code table gives the table back, whatever follows the header. -/
def Obligations.HeaderRoundTrip : Prop :=
  ∀ (c : CodeTable) (rest : List Byte), c.wf →
    ∃ p, parseHeader (serializeHeader c ++ rest) = .ok p ∧ p.code = c ∧ p.used = (serializeHeader c).length ∧
      deriveCodes p.tree = c

/-- 45_bit_packer.md R291: code bit j of symbol i lands at the payload position after the codes before it, most significant bit of a
byte first, and the padding positions hold 0. -/
def Obligations.PackedCodePositions : Prop :=
  ∀ (c : CodeTable) (before after : List Byte) (x : Byte) (p : List Byte) (bc : Nat),
    packBits (before ++ x :: after) c = some (p, bc) →
    p.length = ceilDiv bc 8 ∧
    (∀ j, (h : j < (c.get x).length) →
      (p.getD (((before.flatMap c.get).length + j) / 8) 0).getLsbD (7 - ((before.flatMap c.get).length + j) % 8) =
        (c.get x)[j]) ∧
    (∀ q, bc ≤ q → q < 8 * ceilDiv bc 8 → (p.getD (q / 8) 0).getLsbD (7 - q % 8) = false)

/-- 46_bit_unpacker.md R310, R311: with a valid tree, unpacking `bc` bits gives a symbol list exactly when the byte list holds that many
bits and they are the concatenated codes of these symbols; so it inverts packing with the tree's codes, and fails on bits that end
mid-code. -/
def Obligations.UnpackInvertsPack : Prop :=
  (∀ (t : Tree) (p out : List Byte) (bc : Nat), t.wf →
    (unpackBits p bc t = some out ↔
      ceilDiv bc 8 ≤ p.length ∧ (∀ x ∈ out, (deriveCodes t).get x ≠ []) ∧
        (List.range bc).map (packedBit p) = out.flatMap (deriveCodes t).get)) ∧
  (∀ (t : Tree) (syms p : List Byte) (bc : Nat), t.wf → packBits syms (deriveCodes t) = some (p, bc) →
    unpackBits p bc t = some syms)

/-- 48_huffman_decoder.md R352: decompressing what COMPRESS produces gives the raw input back, for every input whose length fits
DMEM (R7). -/
def Obligations.DecompressInvertsCompress : Prop :=
  ∀ b : List Byte, b.length ≤ 2 ^ 28 →
    ∃ r r', compressResult b = .ok r ∧ (r.out.length ≤ 2 ^ 28 → decompressResult r.out = .ok r' ∧ r'.out = b)

/-- R353: every proper prefix of a stream COMPRESS produces (one that fits DMEM) is rejected with TruncatedStream: at STAGE 9 when it is
cut inside the payload of a Huffman stream, else at STAGE 8. -/
def Obligations.TruncationIsDetected : Prop :=
  ∀ (b : List Byte) (r : Success) (k : Nat), b.length ≤ 2 ^ 28 → compressResult b = .ok r → r.out.length ≤ 2 ^ 28 →
    k < r.out.length →
    ∃ bc, r.bitCount = some bc ∧
      decompressResult (r.out.take k) =
        .error (.truncatedStream, if k + ceilDiv bc 8 < r.out.length then .headerParsing else .bitUnpacking)

/-! ## Registers -/

/-- 10_state.md R37, R36: the STATUS bits, the reserved ones 0; a write to STATUS clears DONE, ERR and OVERRUN where the written bit is 1
and changes nothing else, busy or not. -/
def Obligations.StatusRegister : Prop :=
  (∀ s : State,
    (statusWord s).getLsbD 0 = s.busy ∧ (statusWord s).getLsbD 1 = s.stDone ∧ (statusWord s).getLsbD 2 = s.stErr ∧
    (statusWord s).getLsbD 3 = s.stOverrun ∧ (statusWord s).getLsbD 4 = s.stInfoEmpty ∧
    (statusWord s).getLsbD 5 = s.stInfoDegenerate ∧ (statusWord s).getLsbD 6 = s.stInfoRunSplit ∧
    (statusWord s).extractLsb' 8 4 = s.stErrcode ∧ (statusWord s).extractLsb' 16 4 = s.stStage ∧
    (statusWord s).getLsbD 24 = s.freqValid ∧ (statusWord s).getLsbD 25 = s.treeValid ∧
    (statusWord s).getLsbD 26 = s.codeValid ∧
    (∀ k, k ∈ [7, 12, 13, 14, 15, 20, 21, 22, 23, 27, 28, 29, 30, 31] → (statusWord s).getLsbD k = false)) ∧
  (∀ (s : State) (v : Word) (rest : List HostOp), s.busy = false ∨ s.HostMovesBusy →
    s.program = .write (s.params.regBase + 0x0C) 4 v :: rest →
    step s = .next { s.hostStepped rest with
      stDone := if v.getLsbD 1 then false else s.stDone
      stErr := if v.getLsbD 2 then false else s.stErr
      stOverrun := if v.getLsbD 3 then false else s.stOverrun })

/-- R33, R34, R49, R50, R52 to R55, R57, R59, R60, R62: the read-only registers, the views and the windows; a tree that `parse_header`
rebuilds carries frequency 0 in every node. -/
def Obligations.ReadOnlyViews : Prop :=
  ∀ s : State,
    regValue s .id = 0x48554631 ∧ regValue s .outLen = s.outLen ∧ regValue s .inUsed = s.inUsed ∧
    (s.params.sizeOk → (regValue s .cfg).toNat = s.params.dmemSize) ∧
    (regValue s .symCount).toNat = (if s.freqValid then (allBytes.filter (fun x => s.freq.get x != 0)).length else 0) ∧
    (s.nodes.length ≤ 511 → (regValue s .nodeCount).toNat = if s.treeValid then s.nodes.length else 0) ∧
    (regValue s .treeRoot).toNat = (if s.treeValid then s.root.toNat else 0) ∧
    (regValue s .codeCount).toNat = (if s.codeValid then (allBytes.filter (fun x => s.code.get x != [])).length else 0) ∧
    regValue s .freqData = (if s.freqValid then s.freq.get s.freqSel else 0) ∧
    (regValue s .treeNode).toNat = (match if s.treeValid then s.nodes[s.treeSel.toNat]? else none with
      | some (.leaf x _) => 2 ^ 31 + 2 ^ 30 + x.toNat
      | some (.internal l r _) => 2 ^ 31 + r.toNat * 2 ^ 16 + l.toNat
      | none => 0) ∧
    regValue s .treeFreq = (match if s.treeValid then s.nodes[s.treeSel.toNat]? else none with
      | some (.leaf _ f) => f
      | some (.internal _ _ f) => f
      | none => 0) ∧
    ((s.code.get s.codeSelSym).length ≤ 255 →
      (regValue s .codeLen).toNat = if s.codeValid then (s.code.get s.codeSelSym).length else 0) ∧
    (∀ j, j < 32 → (regValue s .codeWord).getLsbD (31 - j) =
      (s.codeValid && (s.code.get s.codeSelSym).getD (32 * s.codeSelWord.toNat + j) false)) ∧
    (∀ h p n, parseHeader h = .ok p → freqAt p.tree.nodes n = 0)

/-- R32, R108, R45: an idle register read at each offset of R32 returns what the register holds, a value written being read back (0 at a
reserved offset, R36), and changes nothing. An idle `wait` is one such read of STATUS (30_encoding.md R161; log entry 21). -/
def Obligations.IdleRegisterRead : Prop :=
  ∀ (s : State) (rest : List HostOp), s.busy = false →
    (∀ e ∈ ([(0x00, 0x48554631), (0x04, regValue s .cfg), (0x08, if s.ctrlIrqEn then 1 else 0), (0x0C, statusWord s),
        (0x10, s.cmd), (0x14, s.srcAddr), (0x18, s.srcLen), (0x1C, s.dstAddr), (0x20, s.dstCap), (0x24, s.outLen),
        (0x28, s.inUsed), (0x2C, s.bitCount), (0x30, regValue s .symCount), (0x34, regValue s .nodeCount),
        (0x38, regValue s .treeRoot), (0x3C, regValue s .codeCount), (0x40, BitVec.ofNat 32 s.freqSel.toNat),
        (0x44, regValue s .freqData), (0x48, BitVec.ofNat 32 s.treeSel.toNat), (0x4C, regValue s .treeNode),
        (0x50, regValue s .treeFreq), (0x54, BitVec.ofNat 32 (s.codeSelSym.toNat + 256 * s.codeSelWord.toNat)),
        (0x58, regValue s .codeLen), (0x5C, regValue s .codeWord)] : List (Nat × Word)),
      s.program = .read (s.params.regBase + e.1) 4 :: rest →
      step s = .next { s.hostStepped rest with readLog := some e.2 :: s.readLog }) ∧
    (∀ off, 0x60 ≤ off → off ≤ 0xFC → off % 4 = 0 → s.program = .read (s.params.regBase + off) 4 :: rest →
      step s = .next { s.hostStepped rest with readLog := some 0 :: s.readLog }) ∧
    (s.program = .wait :: rest → step s = .next { s.hostStepped rest with readLog := some (statusWord s) :: s.readLog })

/-- R43: while busy, ID, CFG, CTRL, CMD, the four buffer registers and STATUS bits 0 to 3 read as their values, and the reserved bits
of STATUS read as 0 (R36). A `wait` is then a poll of STATUS that leaves the host waiting (30_encoding.md R161; log entry 21). -/
def Obligations.BusyRegisterRead : Prop :=
  ∀ (s : State) (rest : List HostOp), s.HostMovesBusy →
    (∀ e ∈ ([(0x00, 0x48554631), (0x04, regValue s .cfg), (0x08, if s.ctrlIrqEn then 1 else 0), (0x10, s.cmd),
        (0x14, s.srcAddr), (0x18, s.srcLen), (0x1C, s.dstAddr), (0x20, s.dstCap)] : List (Nat × Word)),
      s.program = .read (s.params.regBase + e.1) 4 :: rest →
      step s = .next { s.hostStepped rest with readLog := some e.2 :: s.readLog }) ∧
    (∀ next, (s.program = .read (s.params.regBase + 0x0C) 4 :: rest ∧ next = rest) ∨
        (s.program = .wait :: rest ∧ next = .wait :: rest) →
      ∃ v : Word, step s = .next { s.hostStepped next with readLog := some v :: s.readLog, draws := s.draws + 1 } ∧
        v.getLsbD 0 = true ∧ v.getLsbD 1 = s.stDone ∧ v.getLsbD 2 = s.stErr ∧ v.getLsbD 3 = s.stOverrun ∧
        ∀ k ∈ [7, 12, 13, 14, 15, 20, 21, 22, 23, 27, 28, 29, 30, 31], v.getLsbD k = false)

/-- 40_command_common.md R180, R181: a write to CMD while idle stores the word, sets BUSY and clears DONE and ERR, and nothing else of the
block changes (the model also draws the command's latency, log entry 3); while busy it sets OVERRUN and changes nothing else. -/
def Obligations.CmdWriteIssuesOrOverruns : Prop :=
  ∀ (s : State) (v : Word) (rest : List HostOp), s.program = .write (s.params.regBase + 0x10) 4 v :: rest →
    (s.busy = false →
      ∃ t, step s = .next t ∧
        t = { s with
          cmd := v, busy := true, stDone := false, stErr := false, program := rest, delay := t.delay, draws := t.draws }) ∧
    (s.HostMovesBusy → step s = .next { s.hostStepped rest with stOverrun := true })

/-- R45 to R48, R51, R56, R58, R61 and R43: a write to a parameter or select register stores its fields while idle and is ignored while
busy; a write to a read-only register or to a reserved offset is ignored at any time (R32, R36). -/
def Obligations.ParameterWrites : Prop :=
  ∀ (s : State) (v : Word) (rest : List HostOp),
    (s.busy = false →
      (s.program = .write (s.params.regBase + 0x14) 4 v :: rest → step s = .next { s.hostStepped rest with srcAddr := v }) ∧
      (s.program = .write (s.params.regBase + 0x18) 4 v :: rest → step s = .next { s.hostStepped rest with srcLen := v }) ∧
      (s.program = .write (s.params.regBase + 0x1C) 4 v :: rest → step s = .next { s.hostStepped rest with dstAddr := v }) ∧
      (s.program = .write (s.params.regBase + 0x20) 4 v :: rest → step s = .next { s.hostStepped rest with dstCap := v }) ∧
      (s.program = .write (s.params.regBase + 0x2C) 4 v :: rest → step s = .next { s.hostStepped rest with bitCount := v }) ∧
      (s.program = .write (s.params.regBase + 0x40) 4 v :: rest →
        step s = .next { s.hostStepped rest with freqSel := BitVec.ofNat 8 v.toNat }) ∧
      (s.program = .write (s.params.regBase + 0x48) 4 v :: rest →
        step s = .next { s.hostStepped rest with treeSel := BitVec.ofNat 9 v.toNat }) ∧
      (s.program = .write (s.params.regBase + 0x54) 4 v :: rest →
        step s = .next { s.hostStepped rest with
          codeSelSym := BitVec.ofNat 8 v.toNat, codeSelWord := BitVec.ofNat 3 (v.toNat / 256) })) ∧
    (s.HostMovesBusy → ∀ off ∈ [0x14, 0x18, 0x1C, 0x20, 0x2C, 0x40, 0x48, 0x54],
      s.program = .write (s.params.regBase + off) 4 v :: rest → step s = .next (s.hostStepped rest)) ∧
    (s.busy = false ∨ s.HostMovesBusy → ∀ off,
      (off ∈ [0x00, 0x04, 0x24, 0x28, 0x30, 0x34, 0x38, 0x3C, 0x44, 0x4C, 0x50, 0x58, 0x5C] ∨
        (0x60 ≤ off ∧ off ≤ 0xFC ∧ off % 4 = 0)) →
      s.program = .write (s.params.regBase + off) 4 v :: rest → step s = .next (s.hostStepped rest))

/-! ## Reset -/

/-- 70_reset_and_hazards.md R450, R451: the state after reset, on every platform. -/
def Obligations.ResetState : Prop :=
  ∀ p : Params, BlockAtReset (State.resetOn p) ∧ statusWord (State.resetOn p) = 0 ∧ irq (State.resetOn p) = false ∧
    ∀ a, (State.resetOn p).dmem.get a = none

/-- R451: a hardware reset puts the block at its reset state and makes every cell INDET; it does not clear `faults`. That it is an item
of the host's program is log entry 18, that the program, the read log and the parameters are kept is log entry 17. -/
def Obligations.HardwareReset : Prop :=
  ∀ (s : State) (rest : List HostOp), s.busy = false ∨ s.HostMovesBusy → s.program = .hardReset :: rest →
    ∃ t, step s = .next t ∧ BlockAtReset t ∧ (∀ a, t.dmem.get a = none) ∧ t.faults = s.faults ∧ t.params = s.params ∧
      t.program = rest ∧ t.readLog = s.readLog

/-- R35, R452: CTRL reads as IRQ_EN; a write to it sets IRQ_EN; with bit 1 it resets the block instead, DMEM unchanged but for the destination range of an
in-flight command with a destination, which becomes INDET. That the program, the read log and the parameters are kept is log entry 17;
that a range counts before its precheck is log entry 20. -/
def Obligations.CtrlWriteAndSoftReset : Prop :=
  (∀ s : State, (regValue s .ctrl).toNat = if s.ctrlIrqEn then 1 else 0) ∧
  ∀ (s : State) (v : Word) (rest : List HostOp), s.busy = false ∨ s.HostMovesBusy →
    s.program = .write (s.params.regBase + 0x08) 4 v :: rest →
    (v.getLsbD 1 = false → step s = .next { s.hostStepped rest with ctrlIrqEn := v.getLsbD 0 }) ∧
    (v.getLsbD 1 = true → ∃ t, step s = .next t ∧ BlockAtReset t ∧ t.faults = s.faults ∧ t.params = s.params ∧
      t.program = rest ∧ t.readLog = s.readLog ∧
      ∀ a,
        (s.busy = true ∧ (∃ i, decode s.cmd = .ok i ∧ (shapeOf i).dest = true) ∧
          s.dstAddr.toNat ≤ a ∧ a < s.dstAddr.toNat + s.dstCap.toNat → t.dmem.get a = none) ∧
        (¬ (s.busy = true ∧ (∃ i, decode s.cmd = .ok i ∧ (shapeOf i).dest = true) ∧
          s.dstAddr.toNat ≤ a ∧ a < s.dstAddr.toNat + s.dstCap.toNat) → t.dmem.get a = s.dmem.get a))

/-! ## The host and DMEM -/

/-- 20_memory.md R103: an admitted idle host write of n bytes stores the n low bytes of the value, least significant first, and changes
nothing else. -/
def Obligations.HostStoreIsLittleEndian : Prop :=
  ∀ (s : State) (a n : Nat) (v : Word) (rest : List HostOp), s.busy = false → s.params.apart →
    n ∈ [1, 2, 4] → a % n = 0 → a + n ≤ s.params.dmemSize → s.program = .write (s.params.dmemBase + a) n v :: rest →
    ∃ t, step s = .next t ∧ t = { s.hostStepped rest with dmem := t.dmem } ∧
      ∀ c, t.dmem.get c =
        if a ≤ c ∧ c < a + n then some (BitVec.ofNat 8 (v.toNat / 256 ^ (c - a))) else s.dmem.get c

/-- R103, R430, R114: an admitted host read of n cells that hold bytes returns their little-endian value; one that touches an INDET cell
gets no value and records UninitRead for the first such cell (log entry 8). While a command is in flight a byte of its destination range
is an arbitrary one, INDET or not (log entry 7), and every other byte is as when idle. -/
def Obligations.HostLoad : Prop :=
  ∀ (s : State) (a n : Nat) (rest : List HostOp), s.params.apart →
    n ∈ [1, 2, 4] → a % n = 0 → a + n ≤ s.params.dmemSize → s.program = .read (s.params.dmemBase + a) n :: rest →
    (s.busy = false →
      (∀ b : List Byte, b.length = n → (∀ k, (h : k < b.length) → s.dmem.get (a + k) = some b[k]) →
        step s = .next { s.hostStepped rest with readLog := some (littleEndianWord b) :: s.readLog }) ∧
      (∀ k, k < n → s.dmem.get (a + k) = none → (∀ j, j < k → s.dmem.get (a + j) ≠ none) →
        ∃ t, step s = .next t ∧ ModelFault.uninitRead (a + k) ∈ t.faults ∧
          t = { s.hostStepped rest with readLog := none :: s.readLog, faults := t.faults })) ∧
    (s.HostMovesBusy →
      ((∀ k, k < n → ¬ s.UsesDest (a + k) → s.dmem.get (a + k) ≠ none) →
        ∃ t b, step s = .next t ∧ b.length = n ∧
          (∀ k, (h : k < b.length) → ¬ s.UsesDest (a + k) → s.dmem.get (a + k) = some b[k]) ∧
          t = { s.hostStepped rest with readLog := some (littleEndianWord b) :: s.readLog, draws := t.draws }) ∧
      (∀ k, k < n → ¬ s.UsesDest (a + k) → s.dmem.get (a + k) = none →
        (∀ j, j < k → s.UsesDest (a + j) ∨ s.dmem.get (a + j) ≠ none) →
        ∃ t, step s = .next t ∧ ModelFault.uninitRead (a + k) ∈ t.faults ∧
          t = { s.hostStepped rest with readLog := none :: s.readLog, faults := t.faults, draws := t.draws }))

/-- R114: while a command is in flight, a host write of 1, 2 or 4 bytes records HostWriteWhileBusy for each byte that lies in a range the
command uses, and stores each other byte as when idle (byte by byte, log entry 23); it changes nothing else. -/
def Obligations.HostWriteWhileBusy : Prop :=
  ∀ (s : State) (a n : Nat) (v : Word) (rest : List HostOp), s.HostMovesBusy → s.params.apart →
    n ∈ [1, 2, 4] → a % n = 0 → a + n ≤ s.params.dmemSize → s.program = .write (s.params.dmemBase + a) n v :: rest →
    ∃ t, step s = .next t ∧ t = { s.hostStepped rest with dmem := t.dmem, faults := t.faults } ∧
      (∀ c, a ≤ c → c < a + n → s.UsesSource c ∨ s.UsesDest c → ModelFault.hostWriteWhileBusy c ∈ t.faults) ∧
      (∀ c, a ≤ c → c < a + n → ¬ s.UsesSource c → ¬ s.UsesDest c →
        t.dmem.get c = some (BitVec.ofNat 8 (v.toNat / 256 ^ (c - a)))) ∧
      (∀ c, c < a ∨ a + n ≤ c → t.dmem.get c = s.dmem.get c) ∧
      ((∀ c, a ≤ c → c < a + n → ¬ s.UsesSource c ∧ ¬ s.UsesDest c) → t.faults = s.faults) ∧
      (∀ f ∈ t.faults, f ∈ s.faults ∨
        ∃ c, f = .hostWriteWhileBusy c ∧ a ≤ c ∧ c < a + n ∧ (s.UsesSource c ∨ s.UsesDest c))

/-- R106, R107: at a host access that is not admitted an idle machine, or one whose engine is stalled, has no step: a register access that
is not 4 bytes wide and aligned, a DMEM access of another width, misaligned, or past DMEM_SIZE, and an access outside the register block
and DMEM (log entry 12). The step is refused by name (log entry 12). -/
def Obligations.HostAccessNotAdmitted : Prop :=
  ∀ (s : State) (addr n : Nat) (rest : List HostOp), s.busy = false ∨ s.stalled = true → s.params.apart →
    (s.program = .read addr n :: rest ∨ ∃ v, s.program = .write addr n v :: rest) →
    ((addr < s.params.regBase ∨ s.params.regBase + 256 ≤ addr) ∧
        (addr < s.params.dmemBase ∨ s.params.dmemBase + s.params.dmemSize ≤ addr) ∨
      (∃ off, off < 256 ∧ addr = s.params.regBase + off ∧ (n ≠ 4 ∨ off % 4 ≠ 0)) ∨
      (∃ a, a < s.params.dmemSize ∧ addr = s.params.dmemBase + a ∧
        (n ∉ [1, 2, 4] ∨ a % n ≠ 0 ∨ s.params.dmemSize < a + n))) →
    step s = .refused .hostAccessNotAdmitted

/-! ## Whole-machine rules -/

/-- 60_exceptions.md R430, R429: a recorded model fault is never cleared, not even by a reset; no step changes the parameters; and a step
of one instance of a platform leaves every other instance as it is, and a well-formed platform well formed (that no two instances
share a REG_BASE is log entry 2). -/
def Obligations.FaultsAreNeverCleared : Prop :=
  (∀ s t : State, step s = .next t → t.params = s.params ∧ ∀ f ∈ s.faults, f ∈ t.faults) ∧
  (∀ (p q : Platform) (i : Nat), platformStep p i = some (.next q) →
    (p.wellFormed → q.wellFormed) ∧ q.numInstances = p.numInstances ∧ ∀ j, j ≠ i → q[j]? = p[j]?)

/-- 10_state.md R70: no host operation writes an internal table; it keeps all three, unless it is a reset, which puts all three at their
reset values. -/
def Obligations.HostNeverWritesATable : Prop :=
  ∀ (s : State) (op : HostOp) (rest : List HostOp), admitted s.params op = true →
    (¬ Resets s.params op →
      SameFreq s (s.hostPerform op rest) ∧ SameTree s (s.hostPerform op rest) ∧ SameCode s (s.hostPerform op rest)) ∧
    (Resets s.params op →
      FreqCleared (s.hostPerform op rest) ∧ TreeCleared (s.hostPerform op rest) ∧ CodeCleared (s.hostPerform op rest))

/-- R100: every step keeps DMEM in canonical form and inside `[0, DMEM_SIZE)`, and `faults` in canonical form. -/
def Obligations.StepKeepsMemoryCanonical : Prop :=
  ∀ s t : State, s.memoryOk → s.faultsOk → step s = .next t → t.memoryOk ∧ t.faultsOk

/-- R39, R42, R188, R401: every step keeps the lifecycle flags consistent, the codes legal and an invalid table at its reset value. -/
def Obligations.StepKeepsLifecycleConsistent : Prop :=
  ∀ s t : State, s.lifecycleOk → s.invalidTablesReset → step s = .next t → t.lifecycleOk ∧ t.invalidTablesReset

/-- R66, R67, R69: every step keeps a valid tree well formed and a valid code table one of a valid tree. -/
def Obligations.StepKeepsValidTablesWellFormed : Prop := ∀ s t : State, s.tablesOk → step s = .next t → t.tablesOk

/-- The invariants hold right after reset, on every platform (R450). -/
def Obligations.ResetMeetsTheInvariants : Prop :=
  ∀ p : Params, (State.resetOn p).memoryOk ∧ (State.resetOn p).faultsOk ∧ (State.resetOn p).lifecycleOk ∧
    (State.resetOn p).invalidTablesReset ∧ (State.resetOn p).tablesOk
end

