-- ==== Sys2Proof/Laws/Memory.lean ====
section
/-! SUPPORT. Laws of DMEM, the tables and the fault set: read after write, frames, canonical forms. -/

namespace Sys2Proof.Machine

/-! ## Tables -/

@[simp] theorem Table.get_tabulate {α : Type} (f : Byte → α) (b : Byte) : (Table.tabulate f).get b = f b := by
  simp [Table.get, Table.tabulate]

@[simp] theorem Table.get_const {α : Type} (a : α) (b : Byte) : (Table.const a).get b = a :=
  List.getElem_replicate _

theorem Table.get_put {α : Type} (t : Table α) (b x : Byte) (v : α) :
    (t.put b v).get x = if x = b then v else t.get x := by
  by_cases h : b.toNat = x.toNat
  · have hb : x = b := BitVec.eq_of_toNat_eq h.symm
    subst hb
    simp [Table.get, Table.put]
  · have hb : x ≠ b := fun e => h (e ▸ rfl)
    simp [Table.get, Table.put, h, hb]

theorem Table.ext_get {α : Type} (t u : Table α) (h : ∀ b, t.get b = u.get b) : t = u := by
  obtain ⟨t, ht⟩ := t
  obtain ⟨u, hu⟩ := u
  simp only [Table.mk.injEq]
  refine List.ext_getElem (by omega) fun i h1 h2 => ?_
  have hi : i % 256 = i := by omega
  have := h (BitVec.ofNat 8 i)
  simpa [Table.get, hi] using this

theorem mem_allBytes (x : Byte) : x ∈ allBytes := by
  refine List.mem_map.2 ⟨x.toNat, List.mem_range.2 x.isLt, by simp⟩

/-! ## Reading and writing cells -/

@[simp] theorem Memory.get_nil (a : Nat) : Memory.get [] a = none := rfl

/-- Every cell after a one-byte store. -/
theorem Memory.get_set (m : Memory) (a c : Nat) (v : Byte) :
    (m.set a v).get c = if c = a then some v else m.get c := by
  induction m with
  | nil => by_cases h : c = a <;> simp [Memory.set, Memory.get, h]
  | cons p m ih =>
    obtain ⟨b, w⟩ := p
    simp only [Memory.set]
    split
    · by_cases h : c = a <;> simp [Memory.get, h]
    · split
      · rename_i hab; subst hab
        by_cases h : c = a <;> simp [Memory.get, h]
      · rename_i h1 h2
        by_cases hb : c = b
        · subst hb
          simp [Memory.get, Ne.symm h2]
        · simp [Memory.get, hb, ih]

theorem Memory.get_set_same (m : Memory) (a : Nat) (v : Byte) : (m.set a v).get a = some v := by simp [Memory.get_set]

theorem Memory.get_set_other (m : Memory) (a c : Nat) (v : Byte) (h : c ≠ a) : (m.set a v).get c = m.get c := by
  simp [Memory.get_set, h]

/-- Every cell after cells of a range become INDET. -/
theorem Memory.get_forget (m : Memory) (lo hi c : Nat) :
    (m.forget lo hi).get c = if lo ≤ c ∧ c < hi then none else m.get c := by
  induction m with
  | nil => simp [Memory.forget]
  | cons p m ih =>
    obtain ⟨b, w⟩ := p
    simp only [Memory.forget, List.filter_cons] at ih ⊢
    by_cases hb : lo ≤ b ∧ b < hi
    · simp only [hb.1, hb.2, decide_true, Bool.and_self, Bool.not_true, Bool.false_eq_true, if_false, ih, Memory.get]
      by_cases hc : lo ≤ c ∧ c < hi
      · simp [hc]
      · simp only [hc, if_false]
        by_cases e : c = b
        · subst e; exact absurd hb hc
        · simp [e]
    · have : (!(decide (lo ≤ b) && decide (b < hi))) = true := by
        simp only [Bool.not_eq_true', Bool.and_eq_false_iff, decide_eq_false_iff_not]
        by_cases h : lo ≤ b
        · exact .inr fun h' => hb ⟨h, h'⟩
        · exact .inl h
      simp only [this, if_true, Memory.get, ih]
      by_cases e : c = b
      · subst e; simp [hb]
      · simp [e]

/-- Every cell after `MemWrite` (R102): the bytes written from `a` on, every other cell as before. -/
theorem Memory.get_write (m : Memory) (a c : Nat) (vs : List Byte) :
    (m.write a vs).get c = if a ≤ c ∧ c < a + vs.length then vs[c - a]? else m.get c := by
  induction vs generalizing m a with
  | nil =>
    have : ¬ (a ≤ c ∧ c < a + 0) := by omega
    simp only [Memory.write, List.length_nil, this, if_false]
  | cons v vs ih =>
    simp only [Memory.write, ih, Memory.get_set, List.length_cons]
    by_cases h1 : c = a
    · subst h1
      simp
    · by_cases h2 : a + 1 ≤ c ∧ c < a + 1 + vs.length
      · have h3 : a ≤ c ∧ c < a + (vs.length + 1) := by omega
        have h4 : c - a = (c - (a + 1)) + 1 := by omega
        rw [if_pos h2, if_pos h3, h4, List.getElem?_cons_succ]
      · have h3 : ¬ (a ≤ c ∧ c < a + (vs.length + 1)) := by omega
        rw [if_neg h2, if_neg h3, if_neg h1]

/-- What `MemRead` answers (R102): the bytes, all of them readable, or the first INDET cell. -/
theorem Memory.read_ok_iff (m : Memory) (a n : Nat) (b : List Byte) :
    m.read a n = .ok b ↔ b.length = n ∧ ∀ k, (h : k < b.length) → m.get (a + k) = some b[k] := by
  induction n generalizing a b with
  | zero =>
    cases b with
    | nil => simp [Memory.read]
    | cons v vs => simp [Memory.read]
  | succ n ih =>
    simp only [Memory.read]
    cases hg : m.get a with
    | none =>
      simp only [reduceCtorEq, false_iff, not_and]
      intro hl hk
      have := hk 0 (by omega)
      simp [hg] at this
    | some v =>
      cases b with
      | nil => cases hr : m.read (a + 1) n <;> simp [Except.map]
      | cons w ws =>
        have hstep : (Except.map (v :: ·) (m.read (a + 1) n) = .ok (w :: ws)) ↔ (v = w ∧ m.read (a + 1) n = .ok ws) := by
          cases hr : m.read (a + 1) n <;> simp [Except.map]
        rw [hstep, ih]
        constructor
        · rintro ⟨rfl, rfl, hk⟩
          refine ⟨rfl, fun k h => ?_⟩
          cases k with
          | zero => simpa using hg
          | succ k =>
            have := hk k (by simpa using h)
            simpa [Nat.add_assoc, Nat.add_comm 1 k] using this
        · rintro ⟨hl, hk⟩
          refine ⟨?_, by simpa using hl, fun k h => ?_⟩
          · have := hk 0 (by simp)
            simpa [hg] using this
          · have := hk (k + 1) (by simpa using h)
            simpa [Nat.add_assoc, Nat.add_comm 1 k] using this

/-- `MemRead` fails exactly at the first INDET cell (R102). -/
theorem Memory.read_error (m : Memory) (a n c : Nat) (h : m.read a n = .error c) :
    a ≤ c ∧ c < a + n ∧ m.get c = none ∧ ∀ d, a ≤ d → d < c → m.get d ≠ none := by
  induction n generalizing a with
  | zero => simp [Memory.read] at h
  | succ n ih =>
    simp only [Memory.read] at h
    cases hg : m.get a with
    | none =>
      simp only [hg, Except.error.injEq] at h
      subst h
      exact ⟨Nat.le_refl _, by omega, hg, fun d h1 h2 => absurd h2 (by omega)⟩
    | some v =>
      rw [hg] at h
      cases hr : m.read (a + 1) n with
      | ok b => simp [hr, Except.map] at h
      | error e =>
        simp only [hr, Except.map, Except.error.injEq] at h
        subst h
        obtain ⟨h1, h2, h3, h4⟩ := ih (a + 1) hr
        refine ⟨by omega, by omega, h3, fun d hd1 hd2 => ?_⟩
        by_cases e : d = a
        · subst e; simp [hg]
        · exact h4 d (by omega) hd2

/-! ## Canonical form -/

theorem Memory.mem_set (m : Memory) (a : Nat) (v : Byte) (c : Host.Cell) (h : c ∈ m.set a v) : c = (a, v) ∨ c ∈ m := by
  induction m with
  | nil => simpa [Memory.set] using h
  | cons p m ih =>
    obtain ⟨b, w⟩ := p
    simp only [Memory.set] at h
    split at h
    · simpa using h
    · split at h
      · rcases List.mem_cons.1 h with h | h
        · exact .inl h
        · exact .inr (List.mem_cons_of_mem _ h)
      · rcases List.mem_cons.1 h with h | h
        · exact .inr (h ▸ List.mem_cons_self)
        · exact (ih h).imp_right (List.mem_cons_of_mem _)

theorem Memory.set_wf (m : Memory) (a : Nat) (v : Byte) (h : m.wf) : (m.set a v).wf := by
  induction m with
  | nil => simp [Memory.set]
  | cons p m ih =>
    obtain ⟨b, w⟩ := p
    obtain ⟨h1, h2⟩ := List.pairwise_cons.1 h
    simp only [Memory.set]
    split
    · rename_i hab
      refine List.pairwise_cons.2 ⟨fun c hc => ?_, h⟩
      rcases List.mem_cons.1 hc with rfl | hc
      · exact hab
      · exact Nat.lt_trans hab (h1 c hc)
    · split
      · rename_i hab
        subst hab
        exact List.pairwise_cons.2 ⟨fun c hc => h1 c hc, h2⟩
      · rename_i hn1 hn2
        refine List.pairwise_cons.2 ⟨fun c hc => ?_, ih h2⟩
        rcases Memory.mem_set m a v c hc with rfl | hc
        · show b < a; omega
        · exact h1 c hc

theorem Memory.forget_wf (m : Memory) (lo hi : Nat) (h : m.wf) : (m.forget lo hi).wf := List.Pairwise.filter _ h

theorem Memory.write_wf (m : Memory) (a : Nat) (vs : List Byte) (h : m.wf) : (m.write a vs).wf := by
  induction vs generalizing m a with
  | nil => exact h
  | cons v vs ih => exact ih _ _ (Memory.set_wf m a v h)

theorem Memory.mem_forget (m : Memory) (lo hi : Nat) (c : Host.Cell) (h : c ∈ m.forget lo hi) : c ∈ m :=
  List.mem_of_mem_filter h

theorem Memory.mem_write (m : Memory) (a : Nat) (vs : List Byte) (c : Host.Cell) (h : c ∈ m.write a vs) :
    (a ≤ c.1 ∧ c.1 < a + vs.length) ∨ c ∈ m := by
  induction vs generalizing m a with
  | nil => exact .inr h
  | cons v vs ih =>
    rcases ih _ _ h with h | h
    · exact .inl (by simp only [List.length_cons]; omega)
    · rcases Memory.mem_set m a v c h with rfl | h
      · exact .inl (by simp)
      · exact .inr h

/-- The memory right after reset is in canonical form. -/
theorem reset_dmem_wf (p : Params) : (State.resetOn p).dmem.wf := List.Pairwise.nil

/-! ## The fault set -/

theorem ModelFault.mem_insert (f g : ModelFault) (fs : List ModelFault) : g ∈ f.insert fs ↔ g = f ∨ g ∈ fs := by
  have key_inj : ∀ a b : ModelFault, a.key = b.key → a = b := by
    intro a b h
    cases a <;> cases b <;> simp only [ModelFault.key] at h <;> first | omega | (congr 1; omega)
  induction fs with
  | nil => simp [ModelFault.insert]
  | cons x xs ih =>
    simp only [ModelFault.insert]
    split
    · simp
    · split
      · rename_i _ h2
        simp [key_inj f x h2]
      · simp only [List.mem_cons, ih]
        constructor
        · rintro (h | h | h) <;> simp [h]
        · rintro (h | h | h) <;> simp [h]

theorem ModelFault.insert_sorted (f : ModelFault) (fs : List ModelFault) (h : fs.Pairwise (fun a b => a.key < b.key)) :
    (f.insert fs).Pairwise (fun a b => a.key < b.key) := by
  induction fs with
  | nil => simp [ModelFault.insert]
  | cons x xs ih =>
    obtain ⟨h1, h2⟩ := List.pairwise_cons.1 h
    simp only [ModelFault.insert]
    split
    · rename_i hx
      refine List.pairwise_cons.2 ⟨fun y hy => ?_, h⟩
      rcases List.mem_cons.1 hy with rfl | hy
      · exact hx
      · exact Nat.lt_trans hx (h1 y hy)
    · split
      · exact h
      · rename_i hn1 hn2
        refine List.pairwise_cons.2 ⟨fun y hy => ?_, ih h2⟩
        rcases (ModelFault.mem_insert f y xs).1 hy with rfl | hy
        · omega
        · exact h1 y hy

end Sys2Proof.Machine
end

