-- ==== Sys2Proof/Laws/State.lean ====
section
/-! SUPPORT. One lemma per field per shared update of State, each true by `rfl`, so that no later proof unfolds a record update. -/

namespace Sys2Proof.Machine

/-! ## State.recordFault -/

@[simp] theorem State.recordFault_params (s : State) (f : ModelFault) : (s.recordFault f).params = s.params := rfl
@[simp] theorem State.recordFault_ctrlIrqEn (s : State) (f : ModelFault) : (s.recordFault f).ctrlIrqEn = s.ctrlIrqEn := rfl
@[simp] theorem State.recordFault_stDone (s : State) (f : ModelFault) : (s.recordFault f).stDone = s.stDone := rfl
@[simp] theorem State.recordFault_stErr (s : State) (f : ModelFault) : (s.recordFault f).stErr = s.stErr := rfl
@[simp] theorem State.recordFault_stOverrun (s : State) (f : ModelFault) : (s.recordFault f).stOverrun = s.stOverrun := rfl
@[simp] theorem State.recordFault_stInfoEmpty (s : State) (f : ModelFault) : (s.recordFault f).stInfoEmpty = s.stInfoEmpty := rfl
@[simp] theorem State.recordFault_stInfoDegenerate (s : State) (f : ModelFault) : (s.recordFault f).stInfoDegenerate = s.stInfoDegenerate := rfl
@[simp] theorem State.recordFault_stInfoRunSplit (s : State) (f : ModelFault) : (s.recordFault f).stInfoRunSplit = s.stInfoRunSplit := rfl
@[simp] theorem State.recordFault_stErrcode (s : State) (f : ModelFault) : (s.recordFault f).stErrcode = s.stErrcode := rfl
@[simp] theorem State.recordFault_stStage (s : State) (f : ModelFault) : (s.recordFault f).stStage = s.stStage := rfl
@[simp] theorem State.recordFault_cmd (s : State) (f : ModelFault) : (s.recordFault f).cmd = s.cmd := rfl
@[simp] theorem State.recordFault_srcAddr (s : State) (f : ModelFault) : (s.recordFault f).srcAddr = s.srcAddr := rfl
@[simp] theorem State.recordFault_srcLen (s : State) (f : ModelFault) : (s.recordFault f).srcLen = s.srcLen := rfl
@[simp] theorem State.recordFault_dstAddr (s : State) (f : ModelFault) : (s.recordFault f).dstAddr = s.dstAddr := rfl
@[simp] theorem State.recordFault_dstCap (s : State) (f : ModelFault) : (s.recordFault f).dstCap = s.dstCap := rfl
@[simp] theorem State.recordFault_outLen (s : State) (f : ModelFault) : (s.recordFault f).outLen = s.outLen := rfl
@[simp] theorem State.recordFault_inUsed (s : State) (f : ModelFault) : (s.recordFault f).inUsed = s.inUsed := rfl
@[simp] theorem State.recordFault_bitCount (s : State) (f : ModelFault) : (s.recordFault f).bitCount = s.bitCount := rfl
@[simp] theorem State.recordFault_freqSel (s : State) (f : ModelFault) : (s.recordFault f).freqSel = s.freqSel := rfl
@[simp] theorem State.recordFault_treeSel (s : State) (f : ModelFault) : (s.recordFault f).treeSel = s.treeSel := rfl
@[simp] theorem State.recordFault_codeSelSym (s : State) (f : ModelFault) : (s.recordFault f).codeSelSym = s.codeSelSym := rfl
@[simp] theorem State.recordFault_codeSelWord (s : State) (f : ModelFault) : (s.recordFault f).codeSelWord = s.codeSelWord := rfl
@[simp] theorem State.recordFault_busy (s : State) (f : ModelFault) : (s.recordFault f).busy = s.busy := rfl
@[simp] theorem State.recordFault_freq (s : State) (f : ModelFault) : (s.recordFault f).freq = s.freq := rfl
@[simp] theorem State.recordFault_freqValid (s : State) (f : ModelFault) : (s.recordFault f).freqValid = s.freqValid := rfl
@[simp] theorem State.recordFault_nodes (s : State) (f : ModelFault) : (s.recordFault f).nodes = s.nodes := rfl
@[simp] theorem State.recordFault_root (s : State) (f : ModelFault) : (s.recordFault f).root = s.root := rfl
@[simp] theorem State.recordFault_treeValid (s : State) (f : ModelFault) : (s.recordFault f).treeValid = s.treeValid := rfl
@[simp] theorem State.recordFault_code (s : State) (f : ModelFault) : (s.recordFault f).code = s.code := rfl
@[simp] theorem State.recordFault_codeValid (s : State) (f : ModelFault) : (s.recordFault f).codeValid = s.codeValid := rfl
@[simp] theorem State.recordFault_dmem (s : State) (f : ModelFault) : (s.recordFault f).dmem = s.dmem := rfl
@[simp] theorem State.recordFault_faults (s : State) (f : ModelFault) : (s.recordFault f).faults = f.insert s.faults := rfl
@[simp] theorem State.recordFault_program (s : State) (f : ModelFault) : (s.recordFault f).program = s.program := rfl
@[simp] theorem State.recordFault_readLog (s : State) (f : ModelFault) : (s.recordFault f).readLog = s.readLog := rfl
@[simp] theorem State.recordFault_stalled (s : State) (f : ModelFault) : (s.recordFault f).stalled = s.stalled := rfl
@[simp] theorem State.recordFault_delay (s : State) (f : ModelFault) : (s.recordFault f).delay = s.delay := rfl
@[simp] theorem State.recordFault_draws (s : State) (f : ModelFault) : (s.recordFault f).draws = s.draws := rfl

/-! ## State.stallAt -/

@[simp] theorem State.stallAt_params (s : State) (a : Nat) : (s.stallAt a).params = s.params := rfl
@[simp] theorem State.stallAt_ctrlIrqEn (s : State) (a : Nat) : (s.stallAt a).ctrlIrqEn = s.ctrlIrqEn := rfl
@[simp] theorem State.stallAt_stDone (s : State) (a : Nat) : (s.stallAt a).stDone = s.stDone := rfl
@[simp] theorem State.stallAt_stErr (s : State) (a : Nat) : (s.stallAt a).stErr = s.stErr := rfl
@[simp] theorem State.stallAt_stOverrun (s : State) (a : Nat) : (s.stallAt a).stOverrun = s.stOverrun := rfl
@[simp] theorem State.stallAt_stInfoEmpty (s : State) (a : Nat) : (s.stallAt a).stInfoEmpty = s.stInfoEmpty := rfl
@[simp] theorem State.stallAt_stInfoDegenerate (s : State) (a : Nat) : (s.stallAt a).stInfoDegenerate = s.stInfoDegenerate := rfl
@[simp] theorem State.stallAt_stInfoRunSplit (s : State) (a : Nat) : (s.stallAt a).stInfoRunSplit = s.stInfoRunSplit := rfl
@[simp] theorem State.stallAt_stErrcode (s : State) (a : Nat) : (s.stallAt a).stErrcode = s.stErrcode := rfl
@[simp] theorem State.stallAt_stStage (s : State) (a : Nat) : (s.stallAt a).stStage = s.stStage := rfl
@[simp] theorem State.stallAt_cmd (s : State) (a : Nat) : (s.stallAt a).cmd = s.cmd := rfl
@[simp] theorem State.stallAt_srcAddr (s : State) (a : Nat) : (s.stallAt a).srcAddr = s.srcAddr := rfl
@[simp] theorem State.stallAt_srcLen (s : State) (a : Nat) : (s.stallAt a).srcLen = s.srcLen := rfl
@[simp] theorem State.stallAt_dstAddr (s : State) (a : Nat) : (s.stallAt a).dstAddr = s.dstAddr := rfl
@[simp] theorem State.stallAt_dstCap (s : State) (a : Nat) : (s.stallAt a).dstCap = s.dstCap := rfl
@[simp] theorem State.stallAt_outLen (s : State) (a : Nat) : (s.stallAt a).outLen = s.outLen := rfl
@[simp] theorem State.stallAt_inUsed (s : State) (a : Nat) : (s.stallAt a).inUsed = s.inUsed := rfl
@[simp] theorem State.stallAt_bitCount (s : State) (a : Nat) : (s.stallAt a).bitCount = s.bitCount := rfl
@[simp] theorem State.stallAt_freqSel (s : State) (a : Nat) : (s.stallAt a).freqSel = s.freqSel := rfl
@[simp] theorem State.stallAt_treeSel (s : State) (a : Nat) : (s.stallAt a).treeSel = s.treeSel := rfl
@[simp] theorem State.stallAt_codeSelSym (s : State) (a : Nat) : (s.stallAt a).codeSelSym = s.codeSelSym := rfl
@[simp] theorem State.stallAt_codeSelWord (s : State) (a : Nat) : (s.stallAt a).codeSelWord = s.codeSelWord := rfl
@[simp] theorem State.stallAt_busy (s : State) (a : Nat) : (s.stallAt a).busy = s.busy := rfl
@[simp] theorem State.stallAt_freq (s : State) (a : Nat) : (s.stallAt a).freq = s.freq := rfl
@[simp] theorem State.stallAt_freqValid (s : State) (a : Nat) : (s.stallAt a).freqValid = s.freqValid := rfl
@[simp] theorem State.stallAt_nodes (s : State) (a : Nat) : (s.stallAt a).nodes = s.nodes := rfl
@[simp] theorem State.stallAt_root (s : State) (a : Nat) : (s.stallAt a).root = s.root := rfl
@[simp] theorem State.stallAt_treeValid (s : State) (a : Nat) : (s.stallAt a).treeValid = s.treeValid := rfl
@[simp] theorem State.stallAt_code (s : State) (a : Nat) : (s.stallAt a).code = s.code := rfl
@[simp] theorem State.stallAt_codeValid (s : State) (a : Nat) : (s.stallAt a).codeValid = s.codeValid := rfl
@[simp] theorem State.stallAt_dmem (s : State) (a : Nat) : (s.stallAt a).dmem = s.dmem := rfl
@[simp] theorem State.stallAt_faults (s : State) (a : Nat) : (s.stallAt a).faults = (ModelFault.uninitRead a).insert s.faults := rfl
@[simp] theorem State.stallAt_program (s : State) (a : Nat) : (s.stallAt a).program = s.program := rfl
@[simp] theorem State.stallAt_readLog (s : State) (a : Nat) : (s.stallAt a).readLog = s.readLog := rfl
@[simp] theorem State.stallAt_stalled (s : State) (a : Nat) : (s.stallAt a).stalled = true := rfl
@[simp] theorem State.stallAt_delay (s : State) (a : Nat) : (s.stallAt a).delay = s.delay := rfl
@[simp] theorem State.stallAt_draws (s : State) (a : Nat) : (s.stallAt a).draws = s.draws := rfl

/-! ## State.completeError -/

@[simp] theorem State.completeError_params (s : State) (w : WriteSet) (e : ErrorKind) (g : Stage) : (s.completeError w e g).params = s.params := rfl
@[simp] theorem State.completeError_ctrlIrqEn (s : State) (w : WriteSet) (e : ErrorKind) (g : Stage) : (s.completeError w e g).ctrlIrqEn = s.ctrlIrqEn := rfl
@[simp] theorem State.completeError_stDone (s : State) (w : WriteSet) (e : ErrorKind) (g : Stage) : (s.completeError w e g).stDone = s.stDone := rfl
@[simp] theorem State.completeError_stErr (s : State) (w : WriteSet) (e : ErrorKind) (g : Stage) : (s.completeError w e g).stErr = true := rfl
@[simp] theorem State.completeError_stOverrun (s : State) (w : WriteSet) (e : ErrorKind) (g : Stage) : (s.completeError w e g).stOverrun = s.stOverrun := rfl
@[simp] theorem State.completeError_stInfoEmpty (s : State) (w : WriteSet) (e : ErrorKind) (g : Stage) : (s.completeError w e g).stInfoEmpty = false := rfl
@[simp] theorem State.completeError_stInfoDegenerate (s : State) (w : WriteSet) (e : ErrorKind) (g : Stage) : (s.completeError w e g).stInfoDegenerate = false := rfl
@[simp] theorem State.completeError_stInfoRunSplit (s : State) (w : WriteSet) (e : ErrorKind) (g : Stage) : (s.completeError w e g).stInfoRunSplit = false := rfl
@[simp] theorem State.completeError_stErrcode (s : State) (w : WriteSet) (e : ErrorKind) (g : Stage) : (s.completeError w e g).stErrcode = errcodeOf e := rfl
@[simp] theorem State.completeError_stStage (s : State) (w : WriteSet) (e : ErrorKind) (g : Stage) : (s.completeError w e g).stStage = stageCode g := rfl
@[simp] theorem State.completeError_cmd (s : State) (w : WriteSet) (e : ErrorKind) (g : Stage) : (s.completeError w e g).cmd = s.cmd := rfl
@[simp] theorem State.completeError_srcAddr (s : State) (w : WriteSet) (e : ErrorKind) (g : Stage) : (s.completeError w e g).srcAddr = s.srcAddr := rfl
@[simp] theorem State.completeError_srcLen (s : State) (w : WriteSet) (e : ErrorKind) (g : Stage) : (s.completeError w e g).srcLen = s.srcLen := rfl
@[simp] theorem State.completeError_dstAddr (s : State) (w : WriteSet) (e : ErrorKind) (g : Stage) : (s.completeError w e g).dstAddr = s.dstAddr := rfl
@[simp] theorem State.completeError_dstCap (s : State) (w : WriteSet) (e : ErrorKind) (g : Stage) : (s.completeError w e g).dstCap = s.dstCap := rfl
@[simp] theorem State.completeError_outLen (s : State) (w : WriteSet) (e : ErrorKind) (g : Stage) : (s.completeError w e g).outLen = 0 := rfl
@[simp] theorem State.completeError_inUsed (s : State) (w : WriteSet) (e : ErrorKind) (g : Stage) : (s.completeError w e g).inUsed = 0 := rfl
@[simp] theorem State.completeError_bitCount (s : State) (w : WriteSet) (e : ErrorKind) (g : Stage) : (s.completeError w e g).bitCount = s.bitCount := rfl
@[simp] theorem State.completeError_freqSel (s : State) (w : WriteSet) (e : ErrorKind) (g : Stage) : (s.completeError w e g).freqSel = s.freqSel := rfl
@[simp] theorem State.completeError_treeSel (s : State) (w : WriteSet) (e : ErrorKind) (g : Stage) : (s.completeError w e g).treeSel = s.treeSel := rfl
@[simp] theorem State.completeError_codeSelSym (s : State) (w : WriteSet) (e : ErrorKind) (g : Stage) : (s.completeError w e g).codeSelSym = s.codeSelSym := rfl
@[simp] theorem State.completeError_codeSelWord (s : State) (w : WriteSet) (e : ErrorKind) (g : Stage) : (s.completeError w e g).codeSelWord = s.codeSelWord := rfl
@[simp] theorem State.completeError_busy (s : State) (w : WriteSet) (e : ErrorKind) (g : Stage) : (s.completeError w e g).busy = false := rfl
@[simp] theorem State.completeError_freq (s : State) (w : WriteSet) (e : ErrorKind) (g : Stage) : (s.completeError w e g).freq = w.invalidate.freq.content s.freq (Table.const 0) := rfl
@[simp] theorem State.completeError_freqValid (s : State) (w : WriteSet) (e : ErrorKind) (g : Stage) : (s.completeError w e g).freqValid = w.invalidate.freq.valid s.freqValid := rfl
@[simp] theorem State.completeError_nodes (s : State) (w : WriteSet) (e : ErrorKind) (g : Stage) : (s.completeError w e g).nodes = (w.invalidate.tree.content ⟨s.nodes, s.root⟩ Tree.empty).nodes := rfl
@[simp] theorem State.completeError_root (s : State) (w : WriteSet) (e : ErrorKind) (g : Stage) : (s.completeError w e g).root = (w.invalidate.tree.content ⟨s.nodes, s.root⟩ Tree.empty).root := rfl
@[simp] theorem State.completeError_treeValid (s : State) (w : WriteSet) (e : ErrorKind) (g : Stage) : (s.completeError w e g).treeValid = w.invalidate.tree.valid s.treeValid := rfl
@[simp] theorem State.completeError_code (s : State) (w : WriteSet) (e : ErrorKind) (g : Stage) : (s.completeError w e g).code = w.invalidate.code.content s.code (Table.const []) := rfl
@[simp] theorem State.completeError_codeValid (s : State) (w : WriteSet) (e : ErrorKind) (g : Stage) : (s.completeError w e g).codeValid = w.invalidate.code.valid s.codeValid := rfl
@[simp] theorem State.completeError_dmem (s : State) (w : WriteSet) (e : ErrorKind) (g : Stage) : (s.completeError w e g).dmem = s.dmem := rfl
@[simp] theorem State.completeError_faults (s : State) (w : WriteSet) (e : ErrorKind) (g : Stage) : (s.completeError w e g).faults = s.faults := rfl
@[simp] theorem State.completeError_program (s : State) (w : WriteSet) (e : ErrorKind) (g : Stage) : (s.completeError w e g).program = s.program := rfl
@[simp] theorem State.completeError_readLog (s : State) (w : WriteSet) (e : ErrorKind) (g : Stage) : (s.completeError w e g).readLog = s.readLog := rfl
@[simp] theorem State.completeError_stalled (s : State) (w : WriteSet) (e : ErrorKind) (g : Stage) : (s.completeError w e g).stalled = s.stalled := rfl
@[simp] theorem State.completeError_delay (s : State) (w : WriteSet) (e : ErrorKind) (g : Stage) : (s.completeError w e g).delay = s.delay := rfl
@[simp] theorem State.completeError_draws (s : State) (w : WriteSet) (e : ErrorKind) (g : Stage) : (s.completeError w e g).draws = s.draws := rfl

/-! ## State.completeOk -/

@[simp] theorem State.completeOk_params (s : State) (d : Bool) (r : Success) : (s.completeOk d r).params = s.params := rfl
@[simp] theorem State.completeOk_ctrlIrqEn (s : State) (d : Bool) (r : Success) : (s.completeOk d r).ctrlIrqEn = s.ctrlIrqEn := rfl
@[simp] theorem State.completeOk_stDone (s : State) (d : Bool) (r : Success) : (s.completeOk d r).stDone = true := rfl
@[simp] theorem State.completeOk_stErr (s : State) (d : Bool) (r : Success) : (s.completeOk d r).stErr = s.stErr := rfl
@[simp] theorem State.completeOk_stOverrun (s : State) (d : Bool) (r : Success) : (s.completeOk d r).stOverrun = s.stOverrun := rfl
@[simp] theorem State.completeOk_stInfoEmpty (s : State) (d : Bool) (r : Success) : (s.completeOk d r).stInfoEmpty = r.info.empty := rfl
@[simp] theorem State.completeOk_stInfoDegenerate (s : State) (d : Bool) (r : Success) : (s.completeOk d r).stInfoDegenerate = r.info.degenerate := rfl
@[simp] theorem State.completeOk_stInfoRunSplit (s : State) (d : Bool) (r : Success) : (s.completeOk d r).stInfoRunSplit = r.info.runSplit := rfl
@[simp] theorem State.completeOk_stErrcode (s : State) (d : Bool) (r : Success) : (s.completeOk d r).stErrcode = 0 := rfl
@[simp] theorem State.completeOk_stStage (s : State) (d : Bool) (r : Success) : (s.completeOk d r).stStage = stageCode .done := rfl
@[simp] theorem State.completeOk_cmd (s : State) (d : Bool) (r : Success) : (s.completeOk d r).cmd = s.cmd := rfl
@[simp] theorem State.completeOk_srcAddr (s : State) (d : Bool) (r : Success) : (s.completeOk d r).srcAddr = s.srcAddr := rfl
@[simp] theorem State.completeOk_srcLen (s : State) (d : Bool) (r : Success) : (s.completeOk d r).srcLen = s.srcLen := rfl
@[simp] theorem State.completeOk_dstAddr (s : State) (d : Bool) (r : Success) : (s.completeOk d r).dstAddr = s.dstAddr := rfl
@[simp] theorem State.completeOk_dstCap (s : State) (d : Bool) (r : Success) : (s.completeOk d r).dstCap = s.dstCap := rfl
@[simp] theorem State.completeOk_outLen (s : State) (d : Bool) (r : Success) : (s.completeOk d r).outLen = if d then BitVec.ofNat 32 r.out.length else 0 := rfl
@[simp] theorem State.completeOk_inUsed (s : State) (d : Bool) (r : Success) : (s.completeOk d r).inUsed = BitVec.ofNat 32 r.inUsed := rfl
@[simp] theorem State.completeOk_bitCount (s : State) (d : Bool) (r : Success) : (s.completeOk d r).bitCount = (match r.bitCount with | some n => BitVec.ofNat 32 n | none => s.bitCount) := rfl
@[simp] theorem State.completeOk_freqSel (s : State) (d : Bool) (r : Success) : (s.completeOk d r).freqSel = s.freqSel := rfl
@[simp] theorem State.completeOk_treeSel (s : State) (d : Bool) (r : Success) : (s.completeOk d r).treeSel = s.treeSel := rfl
@[simp] theorem State.completeOk_codeSelSym (s : State) (d : Bool) (r : Success) : (s.completeOk d r).codeSelSym = s.codeSelSym := rfl
@[simp] theorem State.completeOk_codeSelWord (s : State) (d : Bool) (r : Success) : (s.completeOk d r).codeSelWord = s.codeSelWord := rfl
@[simp] theorem State.completeOk_busy (s : State) (d : Bool) (r : Success) : (s.completeOk d r).busy = false := rfl
@[simp] theorem State.completeOk_freq (s : State) (d : Bool) (r : Success) : (s.completeOk d r).freq = r.updates.freq.content s.freq (Table.const 0) := rfl
@[simp] theorem State.completeOk_freqValid (s : State) (d : Bool) (r : Success) : (s.completeOk d r).freqValid = r.updates.freq.valid s.freqValid := rfl
@[simp] theorem State.completeOk_nodes (s : State) (d : Bool) (r : Success) : (s.completeOk d r).nodes = (r.updates.tree.content ⟨s.nodes, s.root⟩ Tree.empty).nodes := rfl
@[simp] theorem State.completeOk_root (s : State) (d : Bool) (r : Success) : (s.completeOk d r).root = (r.updates.tree.content ⟨s.nodes, s.root⟩ Tree.empty).root := rfl
@[simp] theorem State.completeOk_treeValid (s : State) (d : Bool) (r : Success) : (s.completeOk d r).treeValid = r.updates.tree.valid s.treeValid := rfl
@[simp] theorem State.completeOk_code (s : State) (d : Bool) (r : Success) : (s.completeOk d r).code = r.updates.code.content s.code (Table.const []) := rfl
@[simp] theorem State.completeOk_codeValid (s : State) (d : Bool) (r : Success) : (s.completeOk d r).codeValid = r.updates.code.valid s.codeValid := rfl
@[simp] theorem State.completeOk_dmem (s : State) (d : Bool) (r : Success) : (s.completeOk d r).dmem = if d then s.dmem.write s.dstAddr.toNat r.out else s.dmem := rfl
@[simp] theorem State.completeOk_faults (s : State) (d : Bool) (r : Success) : (s.completeOk d r).faults = s.faults := rfl
@[simp] theorem State.completeOk_program (s : State) (d : Bool) (r : Success) : (s.completeOk d r).program = s.program := rfl
@[simp] theorem State.completeOk_readLog (s : State) (d : Bool) (r : Success) : (s.completeOk d r).readLog = s.readLog := rfl
@[simp] theorem State.completeOk_stalled (s : State) (d : Bool) (r : Success) : (s.completeOk d r).stalled = s.stalled := rfl
@[simp] theorem State.completeOk_delay (s : State) (d : Bool) (r : Success) : (s.completeOk d r).delay = s.delay := rfl
@[simp] theorem State.completeOk_draws (s : State) (d : Bool) (r : Success) : (s.completeOk d r).draws = s.draws := rfl

/-! ## State.acknowledge -/

@[simp] theorem State.acknowledge_params (s : State) (v : Word) : (s.acknowledge v).params = s.params := rfl
@[simp] theorem State.acknowledge_ctrlIrqEn (s : State) (v : Word) : (s.acknowledge v).ctrlIrqEn = s.ctrlIrqEn := rfl
@[simp] theorem State.acknowledge_stDone (s : State) (v : Word) : (s.acknowledge v).stDone = (s.stDone && !v.getLsbD 1) := rfl
@[simp] theorem State.acknowledge_stErr (s : State) (v : Word) : (s.acknowledge v).stErr = (s.stErr && !v.getLsbD 2) := rfl
@[simp] theorem State.acknowledge_stOverrun (s : State) (v : Word) : (s.acknowledge v).stOverrun = (s.stOverrun && !v.getLsbD 3) := rfl
@[simp] theorem State.acknowledge_stInfoEmpty (s : State) (v : Word) : (s.acknowledge v).stInfoEmpty = s.stInfoEmpty := rfl
@[simp] theorem State.acknowledge_stInfoDegenerate (s : State) (v : Word) : (s.acknowledge v).stInfoDegenerate = s.stInfoDegenerate := rfl
@[simp] theorem State.acknowledge_stInfoRunSplit (s : State) (v : Word) : (s.acknowledge v).stInfoRunSplit = s.stInfoRunSplit := rfl
@[simp] theorem State.acknowledge_stErrcode (s : State) (v : Word) : (s.acknowledge v).stErrcode = s.stErrcode := rfl
@[simp] theorem State.acknowledge_stStage (s : State) (v : Word) : (s.acknowledge v).stStage = s.stStage := rfl
@[simp] theorem State.acknowledge_cmd (s : State) (v : Word) : (s.acknowledge v).cmd = s.cmd := rfl
@[simp] theorem State.acknowledge_srcAddr (s : State) (v : Word) : (s.acknowledge v).srcAddr = s.srcAddr := rfl
@[simp] theorem State.acknowledge_srcLen (s : State) (v : Word) : (s.acknowledge v).srcLen = s.srcLen := rfl
@[simp] theorem State.acknowledge_dstAddr (s : State) (v : Word) : (s.acknowledge v).dstAddr = s.dstAddr := rfl
@[simp] theorem State.acknowledge_dstCap (s : State) (v : Word) : (s.acknowledge v).dstCap = s.dstCap := rfl
@[simp] theorem State.acknowledge_outLen (s : State) (v : Word) : (s.acknowledge v).outLen = s.outLen := rfl
@[simp] theorem State.acknowledge_inUsed (s : State) (v : Word) : (s.acknowledge v).inUsed = s.inUsed := rfl
@[simp] theorem State.acknowledge_bitCount (s : State) (v : Word) : (s.acknowledge v).bitCount = s.bitCount := rfl
@[simp] theorem State.acknowledge_freqSel (s : State) (v : Word) : (s.acknowledge v).freqSel = s.freqSel := rfl
@[simp] theorem State.acknowledge_treeSel (s : State) (v : Word) : (s.acknowledge v).treeSel = s.treeSel := rfl
@[simp] theorem State.acknowledge_codeSelSym (s : State) (v : Word) : (s.acknowledge v).codeSelSym = s.codeSelSym := rfl
@[simp] theorem State.acknowledge_codeSelWord (s : State) (v : Word) : (s.acknowledge v).codeSelWord = s.codeSelWord := rfl
@[simp] theorem State.acknowledge_busy (s : State) (v : Word) : (s.acknowledge v).busy = s.busy := rfl
@[simp] theorem State.acknowledge_freq (s : State) (v : Word) : (s.acknowledge v).freq = s.freq := rfl
@[simp] theorem State.acknowledge_freqValid (s : State) (v : Word) : (s.acknowledge v).freqValid = s.freqValid := rfl
@[simp] theorem State.acknowledge_nodes (s : State) (v : Word) : (s.acknowledge v).nodes = s.nodes := rfl
@[simp] theorem State.acknowledge_root (s : State) (v : Word) : (s.acknowledge v).root = s.root := rfl
@[simp] theorem State.acknowledge_treeValid (s : State) (v : Word) : (s.acknowledge v).treeValid = s.treeValid := rfl
@[simp] theorem State.acknowledge_code (s : State) (v : Word) : (s.acknowledge v).code = s.code := rfl
@[simp] theorem State.acknowledge_codeValid (s : State) (v : Word) : (s.acknowledge v).codeValid = s.codeValid := rfl
@[simp] theorem State.acknowledge_dmem (s : State) (v : Word) : (s.acknowledge v).dmem = s.dmem := rfl
@[simp] theorem State.acknowledge_faults (s : State) (v : Word) : (s.acknowledge v).faults = s.faults := rfl
@[simp] theorem State.acknowledge_program (s : State) (v : Word) : (s.acknowledge v).program = s.program := rfl
@[simp] theorem State.acknowledge_readLog (s : State) (v : Word) : (s.acknowledge v).readLog = s.readLog := rfl
@[simp] theorem State.acknowledge_stalled (s : State) (v : Word) : (s.acknowledge v).stalled = s.stalled := rfl
@[simp] theorem State.acknowledge_delay (s : State) (v : Word) : (s.acknowledge v).delay = s.delay := rfl
@[simp] theorem State.acknowledge_draws (s : State) (v : Word) : (s.acknowledge v).draws = s.draws := rfl

/-! ## State.issue -/

@[simp] theorem State.issue_params (s : State) (v : Word) : (s.issue v).params = s.params := rfl
@[simp] theorem State.issue_ctrlIrqEn (s : State) (v : Word) : (s.issue v).ctrlIrqEn = s.ctrlIrqEn := rfl
@[simp] theorem State.issue_stDone (s : State) (v : Word) : (s.issue v).stDone = false := rfl
@[simp] theorem State.issue_stErr (s : State) (v : Word) : (s.issue v).stErr = false := rfl
@[simp] theorem State.issue_stOverrun (s : State) (v : Word) : (s.issue v).stOverrun = s.stOverrun := rfl
@[simp] theorem State.issue_stInfoEmpty (s : State) (v : Word) : (s.issue v).stInfoEmpty = s.stInfoEmpty := rfl
@[simp] theorem State.issue_stInfoDegenerate (s : State) (v : Word) : (s.issue v).stInfoDegenerate = s.stInfoDegenerate := rfl
@[simp] theorem State.issue_stInfoRunSplit (s : State) (v : Word) : (s.issue v).stInfoRunSplit = s.stInfoRunSplit := rfl
@[simp] theorem State.issue_stErrcode (s : State) (v : Word) : (s.issue v).stErrcode = s.stErrcode := rfl
@[simp] theorem State.issue_stStage (s : State) (v : Word) : (s.issue v).stStage = s.stStage := rfl
@[simp] theorem State.issue_cmd (s : State) (v : Word) : (s.issue v).cmd = v := rfl
@[simp] theorem State.issue_srcAddr (s : State) (v : Word) : (s.issue v).srcAddr = s.srcAddr := rfl
@[simp] theorem State.issue_srcLen (s : State) (v : Word) : (s.issue v).srcLen = s.srcLen := rfl
@[simp] theorem State.issue_dstAddr (s : State) (v : Word) : (s.issue v).dstAddr = s.dstAddr := rfl
@[simp] theorem State.issue_dstCap (s : State) (v : Word) : (s.issue v).dstCap = s.dstCap := rfl
@[simp] theorem State.issue_outLen (s : State) (v : Word) : (s.issue v).outLen = s.outLen := rfl
@[simp] theorem State.issue_inUsed (s : State) (v : Word) : (s.issue v).inUsed = s.inUsed := rfl
@[simp] theorem State.issue_bitCount (s : State) (v : Word) : (s.issue v).bitCount = s.bitCount := rfl
@[simp] theorem State.issue_freqSel (s : State) (v : Word) : (s.issue v).freqSel = s.freqSel := rfl
@[simp] theorem State.issue_treeSel (s : State) (v : Word) : (s.issue v).treeSel = s.treeSel := rfl
@[simp] theorem State.issue_codeSelSym (s : State) (v : Word) : (s.issue v).codeSelSym = s.codeSelSym := rfl
@[simp] theorem State.issue_codeSelWord (s : State) (v : Word) : (s.issue v).codeSelWord = s.codeSelWord := rfl
@[simp] theorem State.issue_busy (s : State) (v : Word) : (s.issue v).busy = true := rfl
@[simp] theorem State.issue_freq (s : State) (v : Word) : (s.issue v).freq = s.freq := rfl
@[simp] theorem State.issue_freqValid (s : State) (v : Word) : (s.issue v).freqValid = s.freqValid := rfl
@[simp] theorem State.issue_nodes (s : State) (v : Word) : (s.issue v).nodes = s.nodes := rfl
@[simp] theorem State.issue_root (s : State) (v : Word) : (s.issue v).root = s.root := rfl
@[simp] theorem State.issue_treeValid (s : State) (v : Word) : (s.issue v).treeValid = s.treeValid := rfl
@[simp] theorem State.issue_code (s : State) (v : Word) : (s.issue v).code = s.code := rfl
@[simp] theorem State.issue_codeValid (s : State) (v : Word) : (s.issue v).codeValid = s.codeValid := rfl
@[simp] theorem State.issue_dmem (s : State) (v : Word) : (s.issue v).dmem = s.dmem := rfl
@[simp] theorem State.issue_faults (s : State) (v : Word) : (s.issue v).faults = s.faults := rfl
@[simp] theorem State.issue_program (s : State) (v : Word) : (s.issue v).program = s.program := rfl
@[simp] theorem State.issue_readLog (s : State) (v : Word) : (s.issue v).readLog = s.readLog := rfl
@[simp] theorem State.issue_stalled (s : State) (v : Word) : (s.issue v).stalled = s.stalled := rfl
@[simp] theorem State.issue_delay (s : State) (v : Word) : (s.issue v).delay = Config.latency s.params s.draws := rfl
@[simp] theorem State.issue_draws (s : State) (v : Word) : (s.issue v).draws = s.draws + 1 := rfl

/-! ## State.resetBlock -/

@[simp] theorem State.resetBlock_params (s : State) : (s.resetBlock).params = s.params := rfl
@[simp] theorem State.resetBlock_ctrlIrqEn (s : State) : (s.resetBlock).ctrlIrqEn = false := rfl
@[simp] theorem State.resetBlock_stDone (s : State) : (s.resetBlock).stDone = false := rfl
@[simp] theorem State.resetBlock_stErr (s : State) : (s.resetBlock).stErr = false := rfl
@[simp] theorem State.resetBlock_stOverrun (s : State) : (s.resetBlock).stOverrun = false := rfl
@[simp] theorem State.resetBlock_stInfoEmpty (s : State) : (s.resetBlock).stInfoEmpty = false := rfl
@[simp] theorem State.resetBlock_stInfoDegenerate (s : State) : (s.resetBlock).stInfoDegenerate = false := rfl
@[simp] theorem State.resetBlock_stInfoRunSplit (s : State) : (s.resetBlock).stInfoRunSplit = false := rfl
@[simp] theorem State.resetBlock_stErrcode (s : State) : (s.resetBlock).stErrcode = 0 := rfl
@[simp] theorem State.resetBlock_stStage (s : State) : (s.resetBlock).stStage = 0 := rfl
@[simp] theorem State.resetBlock_cmd (s : State) : (s.resetBlock).cmd = 0 := rfl
@[simp] theorem State.resetBlock_srcAddr (s : State) : (s.resetBlock).srcAddr = 0 := rfl
@[simp] theorem State.resetBlock_srcLen (s : State) : (s.resetBlock).srcLen = 0 := rfl
@[simp] theorem State.resetBlock_dstAddr (s : State) : (s.resetBlock).dstAddr = 0 := rfl
@[simp] theorem State.resetBlock_dstCap (s : State) : (s.resetBlock).dstCap = 0 := rfl
@[simp] theorem State.resetBlock_outLen (s : State) : (s.resetBlock).outLen = 0 := rfl
@[simp] theorem State.resetBlock_inUsed (s : State) : (s.resetBlock).inUsed = 0 := rfl
@[simp] theorem State.resetBlock_bitCount (s : State) : (s.resetBlock).bitCount = 0 := rfl
@[simp] theorem State.resetBlock_freqSel (s : State) : (s.resetBlock).freqSel = 0 := rfl
@[simp] theorem State.resetBlock_treeSel (s : State) : (s.resetBlock).treeSel = 0 := rfl
@[simp] theorem State.resetBlock_codeSelSym (s : State) : (s.resetBlock).codeSelSym = 0 := rfl
@[simp] theorem State.resetBlock_codeSelWord (s : State) : (s.resetBlock).codeSelWord = 0 := rfl
@[simp] theorem State.resetBlock_busy (s : State) : (s.resetBlock).busy = false := rfl
@[simp] theorem State.resetBlock_freq (s : State) : (s.resetBlock).freq = Table.const 0 := rfl
@[simp] theorem State.resetBlock_freqValid (s : State) : (s.resetBlock).freqValid = false := rfl
@[simp] theorem State.resetBlock_nodes (s : State) : (s.resetBlock).nodes = [] := rfl
@[simp] theorem State.resetBlock_root (s : State) : (s.resetBlock).root = 0 := rfl
@[simp] theorem State.resetBlock_treeValid (s : State) : (s.resetBlock).treeValid = false := rfl
@[simp] theorem State.resetBlock_code (s : State) : (s.resetBlock).code = Table.const [] := rfl
@[simp] theorem State.resetBlock_codeValid (s : State) : (s.resetBlock).codeValid = false := rfl
@[simp] theorem State.resetBlock_dmem (s : State) : (s.resetBlock).dmem = s.dmem := rfl
@[simp] theorem State.resetBlock_faults (s : State) : (s.resetBlock).faults = s.faults := rfl
@[simp] theorem State.resetBlock_program (s : State) : (s.resetBlock).program = s.program := rfl
@[simp] theorem State.resetBlock_readLog (s : State) : (s.resetBlock).readLog = s.readLog := rfl
@[simp] theorem State.resetBlock_stalled (s : State) : (s.resetBlock).stalled = false := rfl
@[simp] theorem State.resetBlock_delay (s : State) : (s.resetBlock).delay = 0 := rfl
@[simp] theorem State.resetBlock_draws (s : State) : (s.resetBlock).draws = s.draws := rfl

/-! ## State.hardwareReset -/

@[simp] theorem State.hardwareReset_params (s : State) : (s.hardwareReset).params = s.params := rfl
@[simp] theorem State.hardwareReset_ctrlIrqEn (s : State) : (s.hardwareReset).ctrlIrqEn = false := rfl
@[simp] theorem State.hardwareReset_stDone (s : State) : (s.hardwareReset).stDone = false := rfl
@[simp] theorem State.hardwareReset_stErr (s : State) : (s.hardwareReset).stErr = false := rfl
@[simp] theorem State.hardwareReset_stOverrun (s : State) : (s.hardwareReset).stOverrun = false := rfl
@[simp] theorem State.hardwareReset_stInfoEmpty (s : State) : (s.hardwareReset).stInfoEmpty = false := rfl
@[simp] theorem State.hardwareReset_stInfoDegenerate (s : State) : (s.hardwareReset).stInfoDegenerate = false := rfl
@[simp] theorem State.hardwareReset_stInfoRunSplit (s : State) : (s.hardwareReset).stInfoRunSplit = false := rfl
@[simp] theorem State.hardwareReset_stErrcode (s : State) : (s.hardwareReset).stErrcode = 0 := rfl
@[simp] theorem State.hardwareReset_stStage (s : State) : (s.hardwareReset).stStage = 0 := rfl
@[simp] theorem State.hardwareReset_cmd (s : State) : (s.hardwareReset).cmd = 0 := rfl
@[simp] theorem State.hardwareReset_srcAddr (s : State) : (s.hardwareReset).srcAddr = 0 := rfl
@[simp] theorem State.hardwareReset_srcLen (s : State) : (s.hardwareReset).srcLen = 0 := rfl
@[simp] theorem State.hardwareReset_dstAddr (s : State) : (s.hardwareReset).dstAddr = 0 := rfl
@[simp] theorem State.hardwareReset_dstCap (s : State) : (s.hardwareReset).dstCap = 0 := rfl
@[simp] theorem State.hardwareReset_outLen (s : State) : (s.hardwareReset).outLen = 0 := rfl
@[simp] theorem State.hardwareReset_inUsed (s : State) : (s.hardwareReset).inUsed = 0 := rfl
@[simp] theorem State.hardwareReset_bitCount (s : State) : (s.hardwareReset).bitCount = 0 := rfl
@[simp] theorem State.hardwareReset_freqSel (s : State) : (s.hardwareReset).freqSel = 0 := rfl
@[simp] theorem State.hardwareReset_treeSel (s : State) : (s.hardwareReset).treeSel = 0 := rfl
@[simp] theorem State.hardwareReset_codeSelSym (s : State) : (s.hardwareReset).codeSelSym = 0 := rfl
@[simp] theorem State.hardwareReset_codeSelWord (s : State) : (s.hardwareReset).codeSelWord = 0 := rfl
@[simp] theorem State.hardwareReset_busy (s : State) : (s.hardwareReset).busy = false := rfl
@[simp] theorem State.hardwareReset_freq (s : State) : (s.hardwareReset).freq = Table.const 0 := rfl
@[simp] theorem State.hardwareReset_freqValid (s : State) : (s.hardwareReset).freqValid = false := rfl
@[simp] theorem State.hardwareReset_nodes (s : State) : (s.hardwareReset).nodes = [] := rfl
@[simp] theorem State.hardwareReset_root (s : State) : (s.hardwareReset).root = 0 := rfl
@[simp] theorem State.hardwareReset_treeValid (s : State) : (s.hardwareReset).treeValid = false := rfl
@[simp] theorem State.hardwareReset_code (s : State) : (s.hardwareReset).code = Table.const [] := rfl
@[simp] theorem State.hardwareReset_codeValid (s : State) : (s.hardwareReset).codeValid = false := rfl
@[simp] theorem State.hardwareReset_dmem (s : State) : (s.hardwareReset).dmem = [] := rfl
@[simp] theorem State.hardwareReset_faults (s : State) : (s.hardwareReset).faults = s.faults := rfl
@[simp] theorem State.hardwareReset_program (s : State) : (s.hardwareReset).program = s.program := rfl
@[simp] theorem State.hardwareReset_readLog (s : State) : (s.hardwareReset).readLog = s.readLog := rfl
@[simp] theorem State.hardwareReset_stalled (s : State) : (s.hardwareReset).stalled = false := rfl
@[simp] theorem State.hardwareReset_delay (s : State) : (s.hardwareReset).delay = 0 := rfl
@[simp] theorem State.hardwareReset_draws (s : State) : (s.hardwareReset).draws = s.draws := rfl

/-! ## State.softReset -/

@[simp] theorem State.softReset_params (s : State) : (s.softReset).params = s.params := rfl
@[simp] theorem State.softReset_ctrlIrqEn (s : State) : (s.softReset).ctrlIrqEn = false := rfl
@[simp] theorem State.softReset_stDone (s : State) : (s.softReset).stDone = false := rfl
@[simp] theorem State.softReset_stErr (s : State) : (s.softReset).stErr = false := rfl
@[simp] theorem State.softReset_stOverrun (s : State) : (s.softReset).stOverrun = false := rfl
@[simp] theorem State.softReset_stInfoEmpty (s : State) : (s.softReset).stInfoEmpty = false := rfl
@[simp] theorem State.softReset_stInfoDegenerate (s : State) : (s.softReset).stInfoDegenerate = false := rfl
@[simp] theorem State.softReset_stInfoRunSplit (s : State) : (s.softReset).stInfoRunSplit = false := rfl
@[simp] theorem State.softReset_stErrcode (s : State) : (s.softReset).stErrcode = 0 := rfl
@[simp] theorem State.softReset_stStage (s : State) : (s.softReset).stStage = 0 := rfl
@[simp] theorem State.softReset_cmd (s : State) : (s.softReset).cmd = 0 := rfl
@[simp] theorem State.softReset_srcAddr (s : State) : (s.softReset).srcAddr = 0 := rfl
@[simp] theorem State.softReset_srcLen (s : State) : (s.softReset).srcLen = 0 := rfl
@[simp] theorem State.softReset_dstAddr (s : State) : (s.softReset).dstAddr = 0 := rfl
@[simp] theorem State.softReset_dstCap (s : State) : (s.softReset).dstCap = 0 := rfl
@[simp] theorem State.softReset_outLen (s : State) : (s.softReset).outLen = 0 := rfl
@[simp] theorem State.softReset_inUsed (s : State) : (s.softReset).inUsed = 0 := rfl
@[simp] theorem State.softReset_bitCount (s : State) : (s.softReset).bitCount = 0 := rfl
@[simp] theorem State.softReset_freqSel (s : State) : (s.softReset).freqSel = 0 := rfl
@[simp] theorem State.softReset_treeSel (s : State) : (s.softReset).treeSel = 0 := rfl
@[simp] theorem State.softReset_codeSelSym (s : State) : (s.softReset).codeSelSym = 0 := rfl
@[simp] theorem State.softReset_codeSelWord (s : State) : (s.softReset).codeSelWord = 0 := rfl
@[simp] theorem State.softReset_busy (s : State) : (s.softReset).busy = false := rfl
@[simp] theorem State.softReset_freq (s : State) : (s.softReset).freq = Table.const 0 := rfl
@[simp] theorem State.softReset_freqValid (s : State) : (s.softReset).freqValid = false := rfl
@[simp] theorem State.softReset_nodes (s : State) : (s.softReset).nodes = [] := rfl
@[simp] theorem State.softReset_root (s : State) : (s.softReset).root = 0 := rfl
@[simp] theorem State.softReset_treeValid (s : State) : (s.softReset).treeValid = false := rfl
@[simp] theorem State.softReset_code (s : State) : (s.softReset).code = Table.const [] := rfl
@[simp] theorem State.softReset_codeValid (s : State) : (s.softReset).codeValid = false := rfl
@[simp] theorem State.softReset_dmem (s : State) : (s.softReset).dmem = if busyDest s then s.dmem.forget s.dstAddr.toNat (dstEnd s) else s.dmem := rfl
@[simp] theorem State.softReset_faults (s : State) : (s.softReset).faults = s.faults := rfl
@[simp] theorem State.softReset_program (s : State) : (s.softReset).program = s.program := rfl
@[simp] theorem State.softReset_readLog (s : State) : (s.softReset).readLog = s.readLog := rfl
@[simp] theorem State.softReset_stalled (s : State) : (s.softReset).stalled = false := rfl
@[simp] theorem State.softReset_delay (s : State) : (s.softReset).delay = 0 := rfl
@[simp] theorem State.softReset_draws (s : State) : (s.softReset).draws = s.draws := rfl

/-! ## State.readReg -/

@[simp] theorem State.readReg_params (s : State) (off : Nat) : (s.readReg off).params = s.params := rfl
@[simp] theorem State.readReg_ctrlIrqEn (s : State) (off : Nat) : (s.readReg off).ctrlIrqEn = s.ctrlIrqEn := rfl
@[simp] theorem State.readReg_stDone (s : State) (off : Nat) : (s.readReg off).stDone = s.stDone := rfl
@[simp] theorem State.readReg_stErr (s : State) (off : Nat) : (s.readReg off).stErr = s.stErr := rfl
@[simp] theorem State.readReg_stOverrun (s : State) (off : Nat) : (s.readReg off).stOverrun = s.stOverrun := rfl
@[simp] theorem State.readReg_stInfoEmpty (s : State) (off : Nat) : (s.readReg off).stInfoEmpty = s.stInfoEmpty := rfl
@[simp] theorem State.readReg_stInfoDegenerate (s : State) (off : Nat) : (s.readReg off).stInfoDegenerate = s.stInfoDegenerate := rfl
@[simp] theorem State.readReg_stInfoRunSplit (s : State) (off : Nat) : (s.readReg off).stInfoRunSplit = s.stInfoRunSplit := rfl
@[simp] theorem State.readReg_stErrcode (s : State) (off : Nat) : (s.readReg off).stErrcode = s.stErrcode := rfl
@[simp] theorem State.readReg_stStage (s : State) (off : Nat) : (s.readReg off).stStage = s.stStage := rfl
@[simp] theorem State.readReg_cmd (s : State) (off : Nat) : (s.readReg off).cmd = s.cmd := rfl
@[simp] theorem State.readReg_srcAddr (s : State) (off : Nat) : (s.readReg off).srcAddr = s.srcAddr := rfl
@[simp] theorem State.readReg_srcLen (s : State) (off : Nat) : (s.readReg off).srcLen = s.srcLen := rfl
@[simp] theorem State.readReg_dstAddr (s : State) (off : Nat) : (s.readReg off).dstAddr = s.dstAddr := rfl
@[simp] theorem State.readReg_dstCap (s : State) (off : Nat) : (s.readReg off).dstCap = s.dstCap := rfl
@[simp] theorem State.readReg_outLen (s : State) (off : Nat) : (s.readReg off).outLen = s.outLen := rfl
@[simp] theorem State.readReg_inUsed (s : State) (off : Nat) : (s.readReg off).inUsed = s.inUsed := rfl
@[simp] theorem State.readReg_bitCount (s : State) (off : Nat) : (s.readReg off).bitCount = s.bitCount := rfl
@[simp] theorem State.readReg_freqSel (s : State) (off : Nat) : (s.readReg off).freqSel = s.freqSel := rfl
@[simp] theorem State.readReg_treeSel (s : State) (off : Nat) : (s.readReg off).treeSel = s.treeSel := rfl
@[simp] theorem State.readReg_codeSelSym (s : State) (off : Nat) : (s.readReg off).codeSelSym = s.codeSelSym := rfl
@[simp] theorem State.readReg_codeSelWord (s : State) (off : Nat) : (s.readReg off).codeSelWord = s.codeSelWord := rfl
@[simp] theorem State.readReg_busy (s : State) (off : Nat) : (s.readReg off).busy = s.busy := rfl
@[simp] theorem State.readReg_freq (s : State) (off : Nat) : (s.readReg off).freq = s.freq := rfl
@[simp] theorem State.readReg_freqValid (s : State) (off : Nat) : (s.readReg off).freqValid = s.freqValid := rfl
@[simp] theorem State.readReg_nodes (s : State) (off : Nat) : (s.readReg off).nodes = s.nodes := rfl
@[simp] theorem State.readReg_root (s : State) (off : Nat) : (s.readReg off).root = s.root := rfl
@[simp] theorem State.readReg_treeValid (s : State) (off : Nat) : (s.readReg off).treeValid = s.treeValid := rfl
@[simp] theorem State.readReg_code (s : State) (off : Nat) : (s.readReg off).code = s.code := rfl
@[simp] theorem State.readReg_codeValid (s : State) (off : Nat) : (s.readReg off).codeValid = s.codeValid := rfl
@[simp] theorem State.readReg_dmem (s : State) (off : Nat) : (s.readReg off).dmem = s.dmem := rfl
@[simp] theorem State.readReg_faults (s : State) (off : Nat) : (s.readReg off).faults = s.faults := rfl
@[simp] theorem State.readReg_program (s : State) (off : Nat) : (s.readReg off).program = s.program := rfl
@[simp] theorem State.readReg_readLog (s : State) (off : Nat) : (s.readReg off).readLog = some (readValue s off (Config.freeWord s.params s.draws)) :: s.readLog := rfl
@[simp] theorem State.readReg_stalled (s : State) (off : Nat) : (s.readReg off).stalled = s.stalled := rfl
@[simp] theorem State.readReg_delay (s : State) (off : Nat) : (s.readReg off).delay = s.delay := rfl
@[simp] theorem State.readReg_draws (s : State) (off : Nat) : (s.readReg off).draws = s.draws + readDraws s off := rfl

/-! ## State.placeCommand -/

@[simp] theorem State.placeCommand_params (s : State) (w : Word) : (s.placeCommand w).params = s.params := rfl
@[simp] theorem State.placeCommand_ctrlIrqEn (s : State) (w : Word) : (s.placeCommand w).ctrlIrqEn = s.ctrlIrqEn := rfl
@[simp] theorem State.placeCommand_stDone (s : State) (w : Word) : (s.placeCommand w).stDone = false := rfl
@[simp] theorem State.placeCommand_stErr (s : State) (w : Word) : (s.placeCommand w).stErr = false := rfl
@[simp] theorem State.placeCommand_stOverrun (s : State) (w : Word) : (s.placeCommand w).stOverrun = s.stOverrun := rfl
@[simp] theorem State.placeCommand_stInfoEmpty (s : State) (w : Word) : (s.placeCommand w).stInfoEmpty = s.stInfoEmpty := rfl
@[simp] theorem State.placeCommand_stInfoDegenerate (s : State) (w : Word) : (s.placeCommand w).stInfoDegenerate = s.stInfoDegenerate := rfl
@[simp] theorem State.placeCommand_stInfoRunSplit (s : State) (w : Word) : (s.placeCommand w).stInfoRunSplit = s.stInfoRunSplit := rfl
@[simp] theorem State.placeCommand_stErrcode (s : State) (w : Word) : (s.placeCommand w).stErrcode = s.stErrcode := rfl
@[simp] theorem State.placeCommand_stStage (s : State) (w : Word) : (s.placeCommand w).stStage = s.stStage := rfl
@[simp] theorem State.placeCommand_cmd (s : State) (w : Word) : (s.placeCommand w).cmd = w := rfl
@[simp] theorem State.placeCommand_srcAddr (s : State) (w : Word) : (s.placeCommand w).srcAddr = s.srcAddr := rfl
@[simp] theorem State.placeCommand_srcLen (s : State) (w : Word) : (s.placeCommand w).srcLen = s.srcLen := rfl
@[simp] theorem State.placeCommand_dstAddr (s : State) (w : Word) : (s.placeCommand w).dstAddr = s.dstAddr := rfl
@[simp] theorem State.placeCommand_dstCap (s : State) (w : Word) : (s.placeCommand w).dstCap = s.dstCap := rfl
@[simp] theorem State.placeCommand_outLen (s : State) (w : Word) : (s.placeCommand w).outLen = s.outLen := rfl
@[simp] theorem State.placeCommand_inUsed (s : State) (w : Word) : (s.placeCommand w).inUsed = s.inUsed := rfl
@[simp] theorem State.placeCommand_bitCount (s : State) (w : Word) : (s.placeCommand w).bitCount = s.bitCount := rfl
@[simp] theorem State.placeCommand_freqSel (s : State) (w : Word) : (s.placeCommand w).freqSel = s.freqSel := rfl
@[simp] theorem State.placeCommand_treeSel (s : State) (w : Word) : (s.placeCommand w).treeSel = s.treeSel := rfl
@[simp] theorem State.placeCommand_codeSelSym (s : State) (w : Word) : (s.placeCommand w).codeSelSym = s.codeSelSym := rfl
@[simp] theorem State.placeCommand_codeSelWord (s : State) (w : Word) : (s.placeCommand w).codeSelWord = s.codeSelWord := rfl
@[simp] theorem State.placeCommand_busy (s : State) (w : Word) : (s.placeCommand w).busy = true := rfl
@[simp] theorem State.placeCommand_freq (s : State) (w : Word) : (s.placeCommand w).freq = s.freq := rfl
@[simp] theorem State.placeCommand_freqValid (s : State) (w : Word) : (s.placeCommand w).freqValid = s.freqValid := rfl
@[simp] theorem State.placeCommand_nodes (s : State) (w : Word) : (s.placeCommand w).nodes = s.nodes := rfl
@[simp] theorem State.placeCommand_root (s : State) (w : Word) : (s.placeCommand w).root = s.root := rfl
@[simp] theorem State.placeCommand_treeValid (s : State) (w : Word) : (s.placeCommand w).treeValid = s.treeValid := rfl
@[simp] theorem State.placeCommand_code (s : State) (w : Word) : (s.placeCommand w).code = s.code := rfl
@[simp] theorem State.placeCommand_codeValid (s : State) (w : Word) : (s.placeCommand w).codeValid = s.codeValid := rfl
@[simp] theorem State.placeCommand_dmem (s : State) (w : Word) : (s.placeCommand w).dmem = s.dmem := rfl
@[simp] theorem State.placeCommand_faults (s : State) (w : Word) : (s.placeCommand w).faults = s.faults := rfl
@[simp] theorem State.placeCommand_program (s : State) (w : Word) : (s.placeCommand w).program = s.program := rfl
@[simp] theorem State.placeCommand_readLog (s : State) (w : Word) : (s.placeCommand w).readLog = s.readLog := rfl
@[simp] theorem State.placeCommand_stalled (s : State) (w : Word) : (s.placeCommand w).stalled = false := rfl
@[simp] theorem State.placeCommand_delay (s : State) (w : Word) : (s.placeCommand w).delay = 0 := rfl
@[simp] theorem State.placeCommand_draws (s : State) (w : Word) : (s.placeCommand w).draws = s.draws := rfl

end Sys2Proof.Machine
end

