-- ==== Sys2Proof/Laws/Ops.lean ====
section
/-! SUPPORT. One lemma per shared operation that says everything it can do: the command frame, the schedule, the host's stores and loads. -/

namespace Sys2Proof.Machine

/-! ## The frame of a command -/

/-- Every command runs in the shared frame, with a pure function of its own on the source bytes. -/
theorem exec_runs (i : Instr) (s : State) : ∃ body, exec i s = runCommand (shapeOf i) body s := by
  cases i with
  | nop => exact ⟨fun _ => nopResult, rfl⟩
  | treeBuild => exact ⟨fun _ => treeBuildResult s.freq, rfl⟩
  | codeDerive => exact ⟨fun _ => codeDeriveResult ⟨s.nodes, s.root⟩, rfl⟩
  | hdrSerialize => exact ⟨fun _ => hdrSerializeResult s.code, rfl⟩
  | _ => exact ⟨_, rfl⟩

/-- Everything the frame of a command can answer: a failed precheck, a stalled engine, an error completion, a successful one. -/
theorem runCommand_cases (sh : Shape) (body : List Byte → Result) (s : State) :
    (∃ e, precheck sh s = some e ∧ runCommand sh body s = .next (s.completeError sh.writes e .idle)) ∨
    (∃ a, precheck sh s = none ∧ sourceBytes sh s = .error a ∧ runCommand sh body s = .next (s.stallAt a)) ∨
    (∃ bytes e, precheck sh s = none ∧ sourceBytes sh s = .ok bytes ∧ checkOverflow sh s (body bytes) = .error e ∧
      runCommand sh body s = .next (s.completeError sh.writes e.1 e.2)) ∨
    (∃ bytes r, precheck sh s = none ∧ sourceBytes sh s = .ok bytes ∧ checkOverflow sh s (body bytes) = .ok r ∧
      runCommand sh body s = .next (s.completeOk sh.dest r)) := by
  cases hp : precheck sh s with
  | some e => exact .inl ⟨e, rfl, by simp [runCommand, hp]⟩
  | none =>
    cases hs : sourceBytes sh s with
    | error a => exact .inr (.inl ⟨a, rfl, rfl, by simp [runCommand, hp, hs]⟩)
    | ok bytes =>
      cases hc : checkOverflow sh s (body bytes) with
      | error e => exact .inr (.inr (.inl ⟨bytes, e, rfl, rfl, hc, by simp [runCommand, hp, hs, applyResult, hc]⟩))
      | ok r => exact .inr (.inr (.inr ⟨bytes, r, rfl, rfl, hc, by simp [runCommand, hp, hs, applyResult, hc]⟩))

/-- A command that passes its prechecks and has a readable source completes with its function's result. -/
theorem runCommand_ready {sh : Shape} {s : State} {bytes : List Byte} (body : List Byte → Result)
    (hp : precheck sh s = none) (hs : sourceBytes sh s = .ok bytes) :
    runCommand sh body s = .next (applyResult sh s (checkOverflow sh s (body bytes))) := by
  simp [runCommand, hp, hs]

/-- The overflow check lets a success through exactly when it has no destination or fits it. -/
theorem checkOverflow_ok_iff (sh : Shape) (s : State) (r : Success) (r' : Success) :
    checkOverflow sh s (.ok r) = .ok r' ↔ r = r' ∧ (sh.dest = true → r.out.length ≤ s.dstCap.toNat) := by
  simp only [checkOverflow]
  split
  · rename_i h
    simp only [Bool.and_eq_true, decide_eq_true_eq] at h
    simp only [reduceCtorEq, false_iff, not_and]
    exact fun _ hd => absurd (hd h.1) (by omega)
  · rename_i h
    simp only [Bool.and_eq_true, decide_eq_true_eq, not_and, Nat.not_lt] at h
    simp only [Except.ok.injEq]
    exact ⟨fun e => ⟨e, h⟩, fun e => e.1⟩

/-- The prechecks all pass (R183 to R185). -/
theorem precheck_none_iff (sh : Shape) (s : State) :
    precheck sh s = none ↔
      (sh.source = true → srcEnd s ≤ s.params.dmemSize) ∧ (sh.dest = true → dstEnd s ≤ s.params.dmemSize) ∧
      (sh.source = true → sh.dest = true → buffersOverlap s = false) ∧ prereqHolds sh.prereq s = true := by
  simp only [precheck]
  cases sh.source <;> cases sh.dest <;> cases buffersOverlap s <;> cases prereqHolds sh.prereq s <;>
    by_cases h1 : s.params.dmemSize < srcEnd s <;> by_cases h2 : s.params.dmemSize < dstEnd s <;>
      simp [h1, h2] <;> omega

/-! ## The schedule -/

/-- When the turn is the engine's (R182, R194; log entry 3). -/
theorem engineTurn_iff (s : State) :
    engineTurn s = true ↔ s.busy = true ∧ s.stalled = false ∧
      (s.program = [] ∨ ∃ op rest, s.program = op :: rest ∧ (admitted s.params op = false ∨ s.delay = 0)) := by
  cases hp : s.program with
  | nil => simp [engineTurn, hp]
  | cons op rest => simp [engineTurn, hp, and_assoc]

/-- Everything one step can do. -/
theorem step_cases (s : State) :
    (engineTurn s = true ∧ (∃ i, decode s.cmd = .ok i ∧ step s = exec i s)) ∨
    (engineTurn s = true ∧ (∃ e, decode s.cmd = .error e) ∧ step s = .next (completeIllegal s)) ∨
    (engineTurn s = false ∧ step s = hostTurn s) := by
  cases ht : engineTurn s with
  | true =>
    cases hd : decode s.cmd with
    | ok i => exact .inl ⟨rfl, i, rfl, by simp [step, ht, hd]⟩
    | error e => exact .inr (.inl ⟨rfl, ⟨e, rfl⟩, by simp [step, ht, hd]⟩)
  | false => exact .inr (.inr ⟨rfl, by simp [step, ht]⟩)

/-- Everything the host's turn can do. -/
theorem hostTurn_cases (s : State) :
    (s.program = [] ∧ s.busy = true ∧ hostTurn s = .fault .engineStalled) ∨
    (s.program = [] ∧ s.busy = false ∧ hostTurn s = .next s) ∨
    (∃ op rest, s.program = op :: rest ∧ admitted s.params op = true ∧ hostTurn s = .next (s.hostPerform op rest)) ∨
    (∃ op rest, s.program = op :: rest ∧ admitted s.params op = false ∧ hostTurn s = .refused .hostAccessNotAdmitted) := by
  cases hp : s.program with
  | nil => cases hb : s.busy <;> simp [hostTurn, hp, hb]
  | cons op rest =>
    right; right
    cases ha : admitted s.params op with
    | true => exact .inl ⟨op, rest, rfl, ha, by simp [hostTurn, hp, ha]⟩
    | false => exact .inr ⟨op, rest, rfl, ha, by simp [hostTurn, hp, ha]⟩

/-! ## Host operations -/

/-- A bus address reaches offset `off` of the register block exactly when it lies `off` above REG_BASE, inside the block (R101). -/
theorem targetOf_register_iff (p : Params) (addr off : Nat) :
    targetOf p addr = .register off ↔ addr = p.regBase + off ∧ off < 256 := by
  unfold targetOf
  split
  · rw [Target.register.injEq]; omega
  · split <;> simp <;> omega

/-- On a platform whose windows are apart a bus address reaches DMEM byte `a` exactly when it lies `a` above DMEM_BASE (R101). -/
theorem targetOf_memory_iff (p : Params) (addr a : Nat) (h : p.apart) :
    targetOf p addr = .memory a ↔ addr = p.dmemBase + a ∧ a < p.dmemSize := by
  unfold targetOf
  split
  · simp; omega
  · split
    · rw [Target.memory.injEq]; omega
    · simp; omega

/-- An admitted access is a whole, aligned register or 1, 2 or 4 aligned bytes inside DMEM (R103, R107). -/
theorem accessAdmitted_cases {p : Params} {addr width : Nat} (h : accessAdmitted p addr width = true) :
    (∃ off, targetOf p addr = .register off ∧ width = 4 ∧ off % 4 = 0) ∨
    (∃ a, targetOf p addr = .memory a ∧ (width = 1 ∨ width = 2 ∨ width = 4) ∧ a % width = 0 ∧ a + width ≤ p.dmemSize) := by
  unfold accessAdmitted at h
  cases ht : targetOf p addr with
  | register off => exact .inl ⟨off, rfl, by simpa [ht] using h⟩
  | memory a =>
    simp only [ht, Bool.and_eq_true, Bool.or_eq_true, decide_eq_true_eq, or_assoc] at h
    exact .inr ⟨a, rfl, h.1.1, h.1.2, h.2⟩
  | nothing => simp [ht] at h

/-- Everything an admitted host operation can do to `t`, the state with the program moved on and a step of the latency used up: read or
write a register, load or store DMEM bytes, poll or end a `wait`, reset the block (R160, R161, R451). -/
theorem hostPerform_cases {s : State} {op : HostOp} (rest : List HostOp) (h : admitted s.params op = true) :
    let t := { s with program := rest, delay := s.delay - 1 }
    (∃ off, op = .read (s.params.regBase + off) 4 ∧ off < 256 ∧ off % 4 = 0 ∧ s.hostPerform op rest = t.readReg off) ∨
    (∃ addr a n, op = .read addr n ∧ a + n ≤ s.params.dmemSize ∧ s.hostPerform op rest = t.hostLoad a n) ∨
    (∃ off v, op = .write (s.params.regBase + off) 4 v ∧ off < 256 ∧ off % 4 = 0 ∧ s.hostPerform op rest = t.writeReg off v) ∨
    (∃ addr a n v, op = .write addr n v ∧ a + n ≤ s.params.dmemSize ∧
      s.hostPerform op rest = t.hostStore a (bytesOfWrite v n)) ∨
    (op = .wait ∧ s.busy = true ∧ s.hostPerform op rest = State.readReg { t with program := .wait :: rest } 0x0C) ∨
    (op = .wait ∧ s.busy = false ∧ s.hostPerform op rest = t.readReg 0x0C) ∨
    (op = .hardReset ∧ s.hostPerform op rest = t.hardwareReset) := by
  intro t
  cases op with
  | read addr n =>
    rcases accessAdmitted_cases h with ⟨off, ht, rfl, h4⟩ | ⟨a, ht, -, -, hb⟩
    · obtain ⟨rfl, ho⟩ := (targetOf_register_iff _ _ _).1 ht
      exact .inl ⟨off, rfl, ho, h4, by simp only [State.hostPerform, State.busRead, ht, t]⟩
    · exact .inr (.inl ⟨addr, a, n, rfl, hb, by simp only [State.hostPerform, State.busRead, ht, t]⟩)
  | write addr n v =>
    rcases accessAdmitted_cases h with ⟨off, ht, rfl, h4⟩ | ⟨a, ht, -, -, hb⟩
    · obtain ⟨rfl, ho⟩ := (targetOf_register_iff _ _ _).1 ht
      exact .inr (.inr (.inl ⟨off, v, rfl, ho, h4, by simp only [State.hostPerform, State.busWrite, ht, t]⟩))
    · exact .inr (.inr (.inr (.inl ⟨addr, a, n, v, rfl, hb, by simp only [State.hostPerform, State.busWrite, ht, t]⟩)))
  | wait =>
    right; right; right; right
    cases hb : s.busy with
    | true => exact .inl ⟨rfl, rfl, by simp only [State.hostPerform, hb, if_true, offsetOf, t]⟩
    | false => exact .inr (.inl ⟨rfl, rfl, by simp only [State.hostPerform, hb, Bool.false_eq_true, if_false, offsetOf, t]⟩)
  | hardReset => exact .inr (.inr (.inr (.inr (.inr (.inr ⟨rfl, rfl⟩)))))

/-! ## Host stores -/

/-- A host store changes DMEM and `faults` and nothing else. -/
theorem hostStore_frame (s : State) (a : Nat) (vs : List Byte) :
    s.hostStore a vs = { s with dmem := (s.hostStore a vs).dmem, faults := (s.hostStore a vs).faults } := by
  induction vs generalizing s a with
  | nil => rfl
  | cons v vs ih =>
    simp only [State.hostStore]
    rw [ih]
    simp only [State.hostStoreByte]
    split <;> rfl

/-- Which bytes are in a busy command's buffers does not depend on DMEM or on recorded faults. -/
theorem inBusyBuffers_congr (s : State) (m : Memory) (fs : List ModelFault) (a : Nat) :
    inBusyBuffers { s with dmem := m, faults := fs } a = inBusyBuffers s a := rfl

/-- Every cell after a host store (R103, R114): a byte of a busy buffer holds no value, any other stored byte is the one written,
every cell outside is as before. -/
theorem hostStore_get (s : State) (a c : Nat) (vs : List Byte) :
    (s.hostStore a vs).dmem.get c =
      if a ≤ c ∧ c < a + vs.length then (if inBusyBuffers s c then none else vs[c - a]?) else s.dmem.get c := by
  induction vs generalizing s a with
  | nil =>
    have : ¬ (a ≤ c ∧ c < a + 0) := by omega
    simp only [State.hostStore, List.length_nil, this, if_false]
  | cons v vs ih =>
    have hb : ∀ x, inBusyBuffers (s.hostStoreByte a v) x = inBusyBuffers s x := by
      intro x
      simp only [State.hostStoreByte]
      split <;> rfl
    have hm : (s.hostStoreByte a v).dmem.get c =
        if c = a then (if inBusyBuffers s a then none else some v) else s.dmem.get c := by
      simp only [State.hostStoreByte]
      split
      · simp only [State.recordFault_dmem, Memory.get_forget]
        by_cases h : c = a
        · subst h; simp
        · have : ¬ (a ≤ c ∧ c < a + 1) := by omega
          rw [if_neg this, if_neg h]
      · simp [Memory.get_set]
    simp only [State.hostStore, ih, hb, hm, List.length_cons]
    by_cases h1 : c = a
    · subst h1
      simp
    · by_cases h2 : a + 1 ≤ c ∧ c < a + 1 + vs.length
      · have h3 : a ≤ c ∧ c < a + (vs.length + 1) := by omega
        have h4 : c - a = (c - (a + 1)) + 1 := by omega
        rw [if_pos h2, if_pos h3, h4, List.getElem?_cons_succ]
      · have h3 : ¬ (a ≤ c ∧ c < a + (vs.length + 1)) := by omega
        rw [if_neg h2, if_neg h3, if_neg h1]

/-- A host store keeps DMEM's canonical form. -/
theorem hostStore_wf (s : State) (a : Nat) (vs : List Byte) (h : s.dmem.wf) : (s.hostStore a vs).dmem.wf := by
  induction vs generalizing s a with
  | nil => exact h
  | cons v vs ih =>
    refine ih _ _ ?_
    simp only [State.hostStoreByte]
    split
    · exact Memory.forget_wf _ _ _ h
    · exact Memory.set_wf _ _ _ h

/-! ## Host loads -/

/-- An idle machine draws nothing for a host read: what it gets is `MemRead`'s answer (R103). -/
theorem loadBytes_idle (s : State) (d a n : Nat) (h : s.busy = false) : loadBytes s d a n = (d, s.dmem.read a n) := by
  have hb : ∀ c, inBusyDest s c = false := fun c => by simp [inBusyDest, busyDest, inFlight, h]
  induction n generalizing d a with
  | zero => rfl
  | succ n ih =>
    simp only [loadBytes, hb, Bool.false_eq_true, if_false, Memory.read, ih]
    cases s.dmem.get a <;> rfl

/-- The bytes a host read gets: one for each cell, a cell outside the busy destination range giving its own (R103, R114). -/
theorem loadBytes_ok {s : State} {d d' a n : Nat} {b : List Byte} (h : loadBytes s d a n = (d', .ok b)) :
    b.length = n ∧ ∀ k, (hk : k < b.length) → inBusyDest s (a + k) = false → s.dmem.get (a + k) = some b[k] := by
  induction n generalizing d a b d' with
  | zero =>
    obtain rfl : [] = b := by simpa [loadBytes] using congrArg Prod.snd h
    exact ⟨rfl, fun k hk => absurd hk (by simp)⟩
  | succ n ih =>
    have key : ∀ (e : Nat) (v : Byte), (inBusyDest s a = false → s.dmem.get a = some v) →
        ((loadBytes s e (a + 1) n).1, (loadBytes s e (a + 1) n).2.map (v :: ·)) = (d', Except.ok b) →
        b.length = n + 1 ∧ ∀ k, (hk : k < b.length) → inBusyDest s (a + k) = false → s.dmem.get (a + k) = some b[k] := by
      intro e v hv heq
      cases hr : loadBytes s e (a + 1) n with
      | mk e' r =>
        cases r with
        | error c => simp [hr, Except.map] at heq
        | ok bs =>
          obtain ⟨-, rfl⟩ : e' = d' ∧ v :: bs = b := by simpa [hr, Except.map] using heq
          obtain ⟨hl, hget⟩ := ih hr
          refine ⟨by simp [hl], fun k hk hd => ?_⟩
          cases k with
          | zero => exact hv hd
          | succ k =>
            rw [show a + (k + 1) = a + 1 + k by omega] at hd ⊢
            exact hget k (by simpa using hk) hd
    simp only [loadBytes] at h
    split at h
    · rename_i hd
      exact key _ _ (fun hn => by simp [hd] at hn) h
    · cases hg : s.dmem.get a with
      | none => simp [hg] at h
      | some v => exact key _ v (fun _ => hg) (by simpa [hg] using h)

/-- The cell at which a host read ends without a value: the first INDET one outside the busy destination range (log entries 7, 8). -/
theorem loadBytes_error {s : State} {d d' a n c : Nat} (h : loadBytes s d a n = (d', .error c)) :
    a ≤ c ∧ c < a + n ∧ inBusyDest s c = false ∧ s.dmem.get c = none ∧
      ∀ k, a ≤ k → k < c → inBusyDest s k = true ∨ s.dmem.get k ≠ none := by
  induction n generalizing d a d' with
  | zero => simp [loadBytes] at h
  | succ n ih =>
    have key : ∀ (e : Nat) (v : Byte), inBusyDest s a = true ∨ s.dmem.get a ≠ none →
        ((loadBytes s e (a + 1) n).1, (loadBytes s e (a + 1) n).2.map (v :: ·)) = (d', Except.error c) →
        a ≤ c ∧ c < a + (n + 1) ∧ inBusyDest s c = false ∧ s.dmem.get c = none ∧
          ∀ k, a ≤ k → k < c → inBusyDest s k = true ∨ s.dmem.get k ≠ none := by
      intro e v ha heq
      cases hr : loadBytes s e (a + 1) n with
      | mk e' r =>
        cases r with
        | ok bs => simp [hr, Except.map] at heq
        | error c' =>
          obtain ⟨-, rfl⟩ : e' = d' ∧ c' = c := by simpa [hr, Except.map] using heq
          obtain ⟨h1, h2, h3, h4, h5⟩ := ih hr
          refine ⟨by omega, by omega, h3, h4, fun k hk hkc => ?_⟩
          by_cases hka : k = a
          · subst hka; exact ha
          · exact h5 k (by omega) hkc
    simp only [loadBytes] at h
    split at h
    · rename_i hd
      exact key _ _ (.inl hd) h
    · rename_i hd
      cases hg : s.dmem.get a with
      | none =>
        obtain ⟨-, rfl⟩ : d = d' ∧ a = c := by simpa [hg] using h
        exact ⟨le_rfl, by omega, by simpa using hd, hg, fun k h1 h2 => by omega⟩
      | some v => exact key _ v (.inr (by simp [hg])) (by simpa [hg] using h)

/-- A host load changes the read log, the draw count and `faults` and nothing else (R108). -/
theorem hostLoad_frame (s : State) (a n : Nat) :
    s.hostLoad a n =
      { s with readLog := (s.hostLoad a n).readLog, draws := (s.hostLoad a n).draws, faults := (s.hostLoad a n).faults } := by
  simp only [State.hostLoad]
  split <;> rfl

end Sys2Proof.Machine
end

