-- ==== Sys2Proof/Laws/PerInstr.lean ====
section
/-! SUPPORT. The per-command family of statements: a command word has RSVD = 0 (30_encoding.md R130). -/

namespace Sys2Proof.Laws.ReservedBitsZero

/-- The command word of `i` has bits 31:8 zero and its OPCODE in bits 7:0 (R130). -/
def Statement (i : Instr) : Prop := rsvdField (encode i) = 0 ∧ opcodeField (encode i) = opcodeOf i

theorem nop : Statement .nop := by unfold Statement; decide
theorem compress : Statement .compress := by unfold Statement; decide
theorem decompress : Statement .decompress := by unfold Statement; decide
theorem rleEncode : Statement .rleEncode := by unfold Statement; decide
theorem rleDecode : Statement .rleDecode := by unfold Statement; decide
theorem freqAnalyze : Statement .freqAnalyze := by unfold Statement; decide
theorem treeBuild : Statement .treeBuild := by unfold Statement; decide
theorem codeDerive : Statement .codeDerive := by unfold Statement; decide
theorem hdrSerialize : Statement .hdrSerialize := by unfold Statement; decide
theorem hdrParse : Statement .hdrParse := by unfold Statement; decide
theorem pack : Statement .pack := by unfold Statement; decide
theorem unpack : Statement .unpack := by unfold Statement; decide

end Sys2Proof.Laws.ReservedBitsZero
end

