-- ==== Sys2Proof/Laws/Platform.lean ====
section
/-! SUPPORT. What a step of a platform can do, and the ranges of the command in flight in the terms of claims. -/

namespace Sys2Proof.Machine

/-- A platform goes on exactly when the instance that moves does, which is then the one replaced (R429). -/
theorem platformStep_next_iff (p q : Platform) (i : Nat) :
    platformStep p i = some (.next q) ↔ ∃ s t, p[i]? = some s ∧ step s = .next t ∧ q = p.set i t := by
  unfold platformStep
  cases hs : p[i]? with
  | none => simp
  | some s => cases ht : step s <;> simp [ht, eq_comm]

/-- The destination range of a busy command (R114). -/
theorem inBusyDest_iff (s : State) (a : Nat) : inBusyDest s a = true ↔ s.busy = true ∧ s.UsesDest a := by
  unfold inBusyDest busyDest inFlight State.UsesDest
  cases s.busy <;> cases hd : decode s.cmd <;> simp [inDest, Except.toOption]
  simp [dstEnd]

/-- The ranges a busy command uses (R114). -/
theorem inBusyBuffers_iff (s : State) (a : Nat) :
    inBusyBuffers s a = true ↔ s.busy = true ∧ (s.UsesSource a ∨ s.UsesDest a) := by
  simp only [inBusyBuffers, Bool.or_eq_true, inBusyDest_iff]
  unfold busySource inFlight State.UsesSource
  cases s.busy <;> cases hd : decode s.cmd <;> simp [inSource, Except.toOption, or_comm]
  simp [srcEnd]

end Sys2Proof.Machine
end

