-- ==== Sys2Proof/Tests/Slice0.lean ====
section
/-! SUPPORT. Tests against the spec's own words, vectors and examples (95_test_vectors.md unless another file is named), and a witness
for the hypotheses of each obligation. -/

namespace Sys2Proof.Tests

open Sys2Proof Sys2Proof.Machine

-- One test after the other: a hundred of them checked at once take a thread's stack each.
set_option Elab.async false

/-! ## Helpers -/

/-- The state an outcome goes on in; the state after reset when it does not go on. -/
def after (o : Host.Outcome State Fault Refusal) : State :=
  match o with
  | .next t => t
  | _ => State.reset

/-- The outcome is a next state. -/
def goesOn (o : Host.Outcome State Fault Refusal) : Bool :=
  match o with
  | .next _ => true
  | _ => false

theorem eq_next {o : Host.Outcome State Fault Refusal} (h : goesOn o = true) : o = .next (after o) := by
  cases o with
  | next t => rfl
  | fault f => simp [goesOn] at h
  | refused r => simp [goesOn] at h

/-- `s` with `src` at 0x10 as source and `cap` bytes at 0x800 as destination. -/
def State.buffers (s : State) (src : List Byte) (cap : Nat) : State :=
  { s with
    srcAddr := 0x10, srcLen := BitVec.ofNat 32 src.length, dstAddr := 0x800, dstCap := BitVec.ofNat 32 cap
    dmem := s.dmem.write 0x10 src }

/-- The reset state with these buffers. -/
def ready (src : List Byte) (cap : Nat) : State := State.buffers State.reset src cap

/-- One step that completes command `i`. -/
def complete (i : Instr) (s : State) : State := after (step (s.withFetchWord 32 (encode i).toNat))

/-- The bytes of OUT_LEN at DST_ADDR. -/
def output (s : State) : Except Nat (List Byte) := s.dmem.read s.dstAddr.toNat s.outLen.toNat

/-- The completion of `i` from `s` leaves the output `out` and the STATUS word `status`. -/
def leaves (i : Instr) (s : State) (out : List Byte) (status : Word) : Bool :=
  (match output (complete i s) with
    | .ok b => b == out
    | .error _ => false) &&
  statusWord (complete i s) == status

/-- Byte lists of the worked example of 30_encoding.md R152: the raw input, its RLE pairs, its header, its payload. -/
def rawBytes : List Byte := [0x61, 0x61, 0x61, 0x61, 0x62, 0x62, 0x62, 0x63, 0x63]
def pairBytes : List Byte := [0x61, 0x04, 0x62, 0x03, 0x63, 0x02]
def headerBytes : List Byte :=
  [0x05, 0x02, 0x03, 0x80, 0x03, 0x03, 0xA0, 0x04, 0x03, 0xC0, 0x61, 0x03, 0xE0, 0x62, 0x02, 0x00, 0x63, 0x02, 0x40]
def payloadBytes : List Byte := [0xF8, 0xAC]
def streamBytes : List Byte := [0xA5, 0x00, 0x00, 0x00, 0x09] ++ headerBytes ++ [0x00, 0x00, 0x00, 0x10] ++ payloadBytes

/-- The frequency table, tree and code table of the pairs (30_encoding.md R152), each in a state where it is valid. -/
def withFreq : State :=
  { State.reset with
    freq := [0x02, 0x03, 0x04, 0x61, 0x62, 0x63].foldl (fun t x => t.put x 1) (Table.const 0), freqValid := true }
def withTree : State :=
  { withFreq with
    nodes :=
      [.leaf 0x02 1, .leaf 0x03 1, .leaf 0x04 1, .leaf 0x61 1, .leaf 0x62 1, .leaf 0x63 1, .internal 0 1 2, .internal 2 3 2,
        .internal 4 5 2, .internal 6 7 4, .internal 8 9 6]
    root := 10
    treeValid := true }
def withCode : State :=
  { withTree with
    code :=
      [((0x02 : Byte), [true, false, false]), (0x03, [true, false, true]), (0x04, [true, true, false]),
        (0x61, [true, true, true]), (0x62, [false, false]), (0x63, [false, true])].foldl (fun t e => t.put e.1 e.2)
        (Table.const [])
    codeValid := true }

/-- The degenerate tree of symbol 0x41 (43_huffman_tree_builder.md R244), a valid one. -/
def smallTree : Tree := ⟨[.leaf 0x41 3, .leaf 0x42 0, .internal 0 1 3], 2⟩
theorem witness_Tree_wf : smallTree.wf := by decide

/-- The entries of the worked header (30_encoding.md R152), in order. -/
def workedEntries : List HeaderEntry :=
  [⟨0x02, [true, false, false], [0x80]⟩, ⟨0x03, [true, false, true], [0xA0]⟩, ⟨0x04, [true, true, false], [0xC0]⟩,
    ⟨0x61, [true, true, true], [0xE0]⟩, ⟨0x62, [false, false], [0x00]⟩, ⟨0x63, [false, true], [0x40]⟩]

/-! ## WellFormed -/

theorem test_params_reference : Params.reference.wellFormed := by decide
theorem test_params_empty_dmem_refused : ¬ Params.wellFormed ⟨0, 0x40000000, 0x50000000⟩ := by decide
theorem test_params_large_dmem_refused : ¬ Params.wellFormed ⟨2 ^ 28 + 1, 0x40000000, 0x50000000⟩ := by decide
theorem test_params_largest_dmem : Params.wellFormed ⟨2 ^ 28, 0x40000000, 0x50000000⟩ := by decide
theorem test_params_overlap_refused : ¬ Params.wellFormed ⟨0x1000, 0x40000000, 0x400000FF⟩ := by decide
theorem test_every_command_well_formed : Instr.wellFormed .nop := by decide

/-! ## Decode: RSVD in bits 31:8, OPCODE in bits 7:0 (R130, R131) -/

theorem test_decode_nop : decode 0b00000000000000000000000000000000 = .ok .nop := by decide
theorem test_decode_compress : decode 0b00000000000000000000000000000001 = .ok .compress := by decide
theorem test_decode_decompress : decode 0b00000000000000000000000000000010 = .ok .decompress := by decide
theorem test_decode_rle_encode : decode 0b00000000000000000000000000010000 = .ok .rleEncode := by decide
theorem test_decode_rle_decode : decode 0b00000000000000000000000000010001 = .ok .rleDecode := by decide
theorem test_decode_freq_analyze : decode 0b00000000000000000000000000100000 = .ok .freqAnalyze := by decide
theorem test_decode_tree_build : decode 0b00000000000000000000000000110000 = .ok .treeBuild := by decide
theorem test_decode_code_derive : decode 0b00000000000000000000000001000000 = .ok .codeDerive := by decide
theorem test_decode_hdr_serialize : decode 0b00000000000000000000000001000001 = .ok .hdrSerialize := by decide
theorem test_decode_hdr_parse : decode 0b00000000000000000000000001000010 = .ok .hdrParse := by decide
theorem test_decode_pack : decode 0b00000000000000000000000001010000 = .ok .pack := by decide
theorem test_decode_unpack : decode 0b00000000000000000000000001010001 = .ok .unpack := by decide
theorem test_decode_rsvd_bit_8 : decode 0b00000000000000000000000100000001 = .error .reservedBits := by decide
theorem test_decode_rsvd_bit_31 : decode 0b10000000000000000000000000000001 = .error .reservedBits := by decide
theorem test_decode_reserved_opcode : decode 0b00000000000000000000000000000011 = .error .reservedOpcode := by decide

/-- Each row of the opcode table decodes and runs as the first instruction after reset. -/
theorem test_table_words_run :
    [0x00, 0x01, 0x02, 0x10, 0x11, 0x20, 0x30, 0x40, 0x41, 0x42, 0x50, 0x51].all
      (fun w => (decodeTableWord 32 w).isSome && goesOn (step (State.reset.withFetchWord 32 w))) = true := by decide +kernel

/-! ## Commands: vectors -/

theorem test_nop : leaves .nop (ready [] 0) [] 0x00070002 = true := by decide +kernel
/-- 40_command_common.md R193. -/
theorem test_illegal_word : statusWord (after (step (State.reset.withFetchWord 32 3))) = 0x00000704 := by decide +kernel
theorem test_rle_encode_pairs : leaves .rleEncode (ready rawBytes 16) pairBytes 0x00070002 = true := by decide +kernel
theorem test_rle_encode_split :
    rleEncode (List.replicate 256 0) = [0x00, 0xFF, 0x00, 0x01] ∧ rleSplit (List.replicate 256 0) = true ∧
      rleSplit (List.replicate 255 0) = false := by decide +kernel
theorem test_rle_decode_pairs : leaves .rleDecode (ready pairBytes 16) rawBytes 0x00070002 = true := by decide +kernel
/-- The malformed pair is reported although the output would also overflow. -/
theorem test_rle_decode_malformed_first :
    leaves .rleDecode (ready [0x61, 0xFF, 0x61, 0x00] 1) [] 0x000A0304 = true := by decide +kernel
theorem test_freq_analyze :
    statusWord (complete .freqAnalyze (ready pairBytes 0)) = 0x01070002 ∧
      (complete .freqAnalyze (ready pairBytes 0)).freq = withFreq.freq := by decide +kernel
theorem test_tree_build :
    statusWord (complete .treeBuild withFreq) = 0x03070002 ∧
      ((complete .treeBuild withFreq).nodes, (complete .treeBuild withFreq).root) = (withTree.nodes, withTree.root) := by
  decide +kernel
/-- One symbol: the degenerate tree, INFO_DEGENERATE set. -/
theorem test_tree_build_degenerate :
    statusWord (complete .treeBuild (complete .freqAnalyze (ready [0x41, 0x41, 0x41] 0))) = 0x03070022 := by decide +kernel
theorem test_code_derive :
    statusWord (complete .codeDerive withTree) = 0x07070002 ∧ (complete .codeDerive withTree).code = withCode.code := by
  decide +kernel
theorem test_hdr_serialize :
    leaves .hdrSerialize (State.buffers withCode [] 19) headerBytes 0x07070002 = true := by decide +kernel
/-- Padding bits and bytes after the header are not examined. -/
theorem test_hdr_parse_padding :
    statusWord (complete .hdrParse (ready [0x01, 0x02, 0x01, 0x00, 0x03, 0x01, 0xFF, 0x99] 0)) = 0x06070002 ∧
      (complete .hdrParse (ready [0x01, 0x02, 0x01, 0x00, 0x03, 0x01, 0xFF, 0x99] 0)).inUsed = 7 := by decide +kernel
theorem test_hdr_parse_one_code :
    statusWord (complete .hdrParse (ready [0x00, 0x41, 0x01, 0x80] 0)) = 0x00080404 := by decide +kernel
theorem test_pack :
    leaves .pack (State.buffers withCode pairBytes 2) payloadBytes 0x07070002 = true ∧
      (complete .pack (State.buffers withCode pairBytes 2)).bitCount = 16 := by decide +kernel
theorem test_pack_uncoded : leaves .pack (State.buffers withCode [0x41] 2) [] 0x07060C04 = true := by decide +kernel
theorem test_unpack :
    leaves .unpack (State.buffers { withCode with bitCount := 16 } payloadBytes 6) pairBytes 0x07070002 = true := by
  decide +kernel
theorem test_unpack_mid_code :
    leaves .unpack (State.buffers { withCode with bitCount := 15 } payloadBytes 6) [] 0x07090504 = true := by
  decide +kernel
theorem test_compress : leaves .compress (ready rawBytes 30) streamBytes 0x04070002 = true := by decide +kernel
theorem test_compress_empty :
    leaves .compress (ready [] 5) [0xE0, 0x00, 0x00, 0x00, 0x00] 0x00070012 = true := by decide +kernel
theorem test_decompress : leaves .decompress (ready streamBytes 9) rawBytes 0x04070002 = true := by decide +kernel
theorem test_decompress_wrong_length :
    leaves .decompress (ready (streamBytes.set 4 8) 9) [] 0x000A0404 = true := by decide +kernel

/-! ## The host's side -/

/-- The reset state with the host about to do `op`. -/
def hostWill (op : HostOp) : State := { State.reset with program := [op] }

/-- The same with command `i` in flight on 4 source bytes at 0x10 and 8 destination bytes at 0x800, one step of latency left. -/
def hostWillBusy (i : Instr) (op : HostOp) : State :=
  { State.buffers State.reset [1, 2, 3, 4] 8 with program := [op], cmd := encode i, busy := true, delay := 1 }

/-- The same with the engine stalled on an INDET byte. -/
def hostWillStalled (op : HostOp) : State :=
  { hostWillBusy .compress op with stalled := true, delay := 0, faults := [.uninitRead 0x10] }

/-- 20_memory.md R103: least significant byte first. -/
theorem test_store_word :
    (after (step (hostWill (.write 0x50000020 4 0x44332211)))).dmem =
      [(0x20, 0x11), (0x21, 0x22), (0x22, 0x33), (0x23, 0x44)] := by decide
theorem test_load_half :
    (after (step { hostWill (.read 0x50000010 2) with dmem := [(0x10, 0x34), (0x11, 0x12)] })).readLog = [some 0x1234] := by
  decide
theorem test_load_indet :
    (after (step (hostWill (.read 0x50000010 1)))).faults = [.uninitRead 0x10] := by decide
theorem test_misaligned_refused : step (hostWill (.read 0x50000011 2)) = .refused .hostAccessNotAdmitted := by rfl
theorem test_id : (after (step (hostWill (.read 0x40000000 4)))).readLog = [some 0x48554631] := by decide
theorem test_cmd_issue : (after (step (hostWill (.write 0x40000010 4 1)))).busy = true := by decide
theorem test_cmd_overrun : (after (step (hostWillBusy .nop (.write 0x40000010 4 1)))).stOverrun = true := by decide
/-- 30_encoding.md R161: a poll that reads BUSY = 1 leaves the host waiting; the next step completes the command; then the wait ends. -/
theorem test_wait_polls :
    (after (step (hostWillBusy .nop .wait))).program = [.wait] ∧ (after (step (hostWillBusy .nop .wait))).busy = true ∧
    (after (step { hostWillBusy .nop .wait with delay := 0 })).busy = false ∧
    (after (step { hostWill .wait with stDone := true })).program = [] ∧
    (after (step { hostWill .wait with stDone := true })).readLog = [some 2] := by decide
theorem test_stalled_end : step { hostWillStalled .wait with program := [] } = .fault .engineStalled := by rfl
/-- 30_encoding.md R161: `run COMPRESS` and `clr`. -/
theorem test_run_expands : progRun Params.reference .compress = [.write 0x40000010 4 0x00000001, .wait] := by decide
theorem test_clr_expands : opClr Params.reference = .write 0x4000000C 4 0x0000000E := by decide
/-- 70_reset_and_hazards.md R450: STATUS is 0 after reset. -/
theorem test_reset_status : statusWord State.reset = 0 := by decide

/-! ## Witnesses: the step -/

theorem witness_StepCompletesTheDecodedCommand_engine :
    [{ hostWillBusy .pack .wait with delay := 0 }, { hostWillBusy .pack .wait with program := [] },
      hostWillBusy .pack (.read 0x50000011 2), { hostWillBusy .pack (.read 0x50000010 2) with delay := 0 }].all (fun s =>
        s.busy && !s.stalled && decide (decode s.cmd = .ok .pack)) = true ∧
    admitted Params.reference (.read 0x50000011 2) = false := by decide
theorem witness_StepCompletesTheDecodedCommand_host :
    admitted Params.reference (.read 0x50000010 2) = true ∧ (hostWill (.read 0x50000010 2)).busy = false ∧
    (hostWillStalled (.read 0x50000010 2)).stalled = true ∧ 0 < (hostWillBusy .pack (.read 0x50000010 2)).delay ∧
    admitted Params.reference .wait = true ∧ 0 < (hostWillBusy .pack .wait).delay := by decide
theorem witness_IllegalWordCompletesWithIllegalCommand :
    (∀ s ∈ [State.reset.withFetchWord 32 0x100, State.reset.withFetchWord 32 0x52],
      engineTurn s = true) ∧
    (State.reset.withFetchWord 32 0x100).cmd.toNat / 256 ≠ 0 ∧
    ∀ i, (opcodeOf i).toNat ≠ (State.reset.withFetchWord 32 0x52).cmd.toNat % 256 := by
  refine ⟨by decide, by decide, fun i => ?_⟩
  cases i <;> decide
theorem witness_InFlightCommandEnds :
    ∀ s ∈ [hostWillBusy .pack .hardReset, State.reset.withFetchWord 32 0x51], s.busy = true ∧ s.stalled = false := by decide

/-! ## Witnesses: completion in general -/

theorem witness_CompletionSetsExactlyOneFlag :
    State.reset.stDone = false ∧ State.reset.stErr = false ∧ State.reset.stalled = false := by decide
/-- The source one byte past DMEM, the destination one byte past it, the ranges sharing one byte, and no valid tree. -/
theorem witness_PrechecksFailInOrder :
    (¬ State.SrcInside { State.reset with srcAddr := 0xFFF, srcLen := 2 }) ∧
    (State.SrcInside { State.reset with srcAddr := 0xFFF, srcLen := 1, dstAddr := 0x1001 } ∧
      ¬ State.DstInside { State.reset with srcAddr := 0xFFF, srcLen := 1, dstAddr := 0x1001 }) ∧
    (State.SrcInside { State.reset with srcLen := 4, dstAddr := 3, dstCap := 1 } ∧
      State.DstInside { State.reset with srcLen := 4, dstAddr := 3, dstCap := 1 } ∧
      State.Overlapping { State.reset with srcLen := 4, dstAddr := 3, dstCap := 1 }) ∧
    (State.SrcInside { State.reset with srcLen := 4, dstAddr := 4, dstCap := 1 } ∧
      State.DstInside { State.reset with srcLen := 4, dstAddr := 4, dstCap := 1 } ∧
      ¬ State.Overlapping { State.reset with srcLen := 4, dstAddr := 4, dstCap := 1 } ∧
      prereqHolds (shapeOf .unpack).prereq { State.reset with srcLen := 4, dstAddr := 4, dstCap := 1 } = false) := by decide
theorem witness_PrechecksFailInOrder_shapes :
    (shapeOf .unpack).source = true ∧ (shapeOf .unpack).dest = true := by decide
/-- Each command with a write set ends once in error and once in success. -/
theorem witness_ErrorsAndWriteSets :
    State.reset.stErr = false ∧ State.reset.stDone = false ∧
    (∀ c ∈ [(Instr.compress, ready [] 4), (.decompress, ready [0xA6] 9),
        (.freqAnalyze, { State.reset with srcAddr := 0x1001 }), (.treeBuild, State.reset), (.codeDerive, State.reset),
        (.hdrParse, ready [] 0)],
      goesOn (exec c.1 c.2) = true ∧ (after (exec c.1 c.2)).stErr = true) ∧
    (∀ c ∈ [(Instr.compress, ready [] 5), (.decompress, ready [0xE0, 0x00, 0x00, 0x00, 0x00] 0), (.freqAnalyze, ready [] 0),
        (.treeBuild, withFreq), (.codeDerive, withTree),
        (.hdrParse, ready headerBytes 0), (.nop, State.reset)],
      c.2.stErr = false ∧ c.2.stDone = false ∧ goesOn (exec c.1 c.2) = true ∧ (after (exec c.1 c.2)).stDone = true) := by
  decide +kernel
theorem witness_CommandFrame :
    (∃ t, exec .pack (State.buffers withCode pairBytes 2) = .next t) ∧ (∃ t, exec .rleEncode (ready rawBytes 5) = .next t) ∧
    (∃ t, exec .hdrParse (ready headerBytes 0) = .next t) :=
  ⟨⟨_, eq_next (by decide +kernel)⟩, ⟨_, eq_next (by decide +kernel)⟩, ⟨_, eq_next (by decide +kernel)⟩⟩
/-- The first byte of the source, and its last. -/
theorem witness_UninitialisedSourceStallsTheEngine :
    (shapeOf .freqAnalyze).source = true ∧
    (∀ c ∈ [({ State.reset with busy := true, srcAddr := 0xFFF, srcLen := 1 }, 0),
        ({ ready [7] 0 with busy := true, srcLen := 2 }, 1)],
      precheck (shapeOf .freqAnalyze) c.1 = none ∧ c.1.busy = true ∧ c.2 < c.1.srcLen.toNat ∧
        c.1.dmem.get (c.1.srcAddr.toNat + c.2) = none ∧ ∀ j < c.2, c.1.dmem.get (c.1.srcAddr.toNat + j) ≠ none) := by decide
theorem witness_UninitialisedSourceStallsTheEngine_later :
    ∀ s ∈ [hostWillStalled .wait, hostWillStalled .hardReset], s.busy = true ∧ s.stalled = true ∧ goesOn (step s) = true := by
  decide
/-- A destination one byte too small for each command. -/
theorem witness_OutputOverflowAtItsStage :
    State.ReadyWith (ready rawBytes 5) rawBytes ∧ 5 < (rleEncode rawBytes).length ∧
    State.ReadyWith (ready pairBytes 8) pairBytes ∧ rleDecode pairBytes = some rawBytes ∧ 8 < rawBytes.length ∧
    State.ReadyWith (State.buffers withCode pairBytes 1) pairBytes ∧
    (State.buffers withCode pairBytes 1).codeValid = true ∧
    packBits pairBytes (State.buffers withCode pairBytes 1).code = some (payloadBytes, 16) ∧ 1 < payloadBytes.length := by
  decide +kernel
theorem witness_OutputOverflowAtItsStage_unpack :
    State.ReadyWith (State.buffers { withCode with bitCount := 16 } payloadBytes 5) payloadBytes ∧
    (State.buffers { withCode with bitCount := 16 } payloadBytes 5).treeValid = true ∧
    unpackBits payloadBytes 16 ⟨withCode.nodes, withCode.root⟩ = some pairBytes ∧ 5 < pairBytes.length := by
  decide +kernel
/-- The bytes a result puts out. -/
def outputOf (r : Result) : Option (List Byte) :=
  match r with
  | .ok s => some s.out
  | .error _ => none
theorem exists_of_outputOf {r : Result} {out : List Byte} (h : outputOf r = some out) : ∃ s, r = .ok s ∧ s.out = out := by
  cases r with
  | ok s => exact ⟨s, rfl, by simpa [outputOf] using h⟩
  | error e => simp [outputOf] at h
theorem compress_raw : ∃ r, compressResult rawBytes = .ok r ∧ r.out = streamBytes := exists_of_outputOf (by decide +kernel)
theorem decompress_stream : ∃ r, decompressResult streamBytes = .ok r ∧ r.out = rawBytes :=
  exists_of_outputOf (by decide +kernel)
theorem witness_OutputOverflowAtItsStage_pipelines :
    State.ReadyWith (ready rawBytes 29) rawBytes ∧ (∃ r, compressResult rawBytes = .ok r ∧ 29 < r.out.length) ∧
    State.ReadyWith (ready streamBytes 8) streamBytes ∧ (∃ r, decompressResult streamBytes = .ok r ∧ 8 < r.out.length) := by
  obtain ⟨r, hr, hl⟩ := compress_raw
  obtain ⟨q, hq, hm⟩ := decompress_stream
  exact ⟨by decide, ⟨r, hr, by rw [hl]; decide⟩, by decide, ⟨q, hq, by rw [hm]; decide⟩⟩
theorem witness_OutputOverflowAtItsStage_header :
    State.DstInside (State.buffers withCode [] 18) ∧ (State.buffers withCode [] 18).codeValid = true ∧
    18 < (serializeHeader withCode.code).length := by decide +kernel
theorem witness_CompletionRaisesTheInterrupt_completion :
    State.reset.stalled = false ∧ goesOn (exec .nop State.reset) = true ∧ (after (exec .nop State.reset)).stalled = false ∧
    engineTurn (State.reset.withFetchWord 32 0x100) = true ∧
    decode (State.reset.withFetchWord 32 0x100).cmd = .error .reservedBits ∧
    goesOn (step (State.reset.withFetchWord 32 0x100)) = true := by decide
/-- The state with IRQ_EN as given and DONE set, idle, about to do `op`. -/
def doneWill (en : Bool) (op : HostOp) : State := { hostWill op with ctrlIrqEn := en, stDone := true }
theorem witness_CompletionRaisesTheInterrupt_host :
    (∀ s ∈ [doneWill false (.write (Params.reference.regBase + 0x08) 4 1), doneWill true (.write (Params.reference.regBase + 0x08) 4 0),
        doneWill true (.write (Params.reference.regBase + 0x0C) 4 2), doneWill true (.write (Params.reference.regBase + 0x10) 4 0),
        doneWill true .hardReset],
      s.busy = false ∧ goesOn (step s) = true ∧ irq s = s.ctrlIrqEn ∧ irq (after (step s)) = !s.ctrlIrqEn) := by decide
theorem witness_Resets :
    Resets Params.reference .hardReset ∧ Resets Params.reference (.write (Params.reference.regBase + 0x08) 4 3) ∧
    ¬ Resets Params.reference (.write (Params.reference.regBase + 0x10) 4 3) ∧
    (3 : Word).getLsbD 1 = true ∧ (1 : Word).getLsbD 0 = true ∧ (1 : Word).getLsbD 1 = false :=
  ⟨.inl rfl, .inr ⟨3, rfl, by decide⟩, by simp [Resets], by decide, by decide, by decide⟩

/-! ## Witnesses: the commands, each output exactly filling its destination -/

theorem witness_RleEncodeCompletes :
    State.ReadyWith (ready rawBytes 6) rawBytes ∧ (rleEncode rawBytes).length ≤ (ready rawBytes 6).dstCap.toNat ∧
    State.ReadyWith (ready [] 0) [] ∧ (rleEncode []).length ≤ (ready [] 0).dstCap.toNat := by decide
theorem witness_RleDecodeCompletes :
    State.ReadyWith (ready pairBytes 9) pairBytes ∧ rleDecode pairBytes = some rawBytes ∧
    rawBytes.length ≤ (ready pairBytes 9).dstCap.toNat := by decide
theorem witness_FreqAnalyzeCompletes :
    State.SrcInside (ready rawBytes 0) ∧ State.SourceHolds (ready rawBytes 0) rawBytes ∧
    State.SrcInside { State.reset with srcAddr := 0x1000 } ∧ State.SourceHolds { State.reset with srcAddr := 0x1000 } [] := by
  decide
theorem symbols_withFreq : presentSymbols withFreq.freq = [0x02, 0x03, 0x04, 0x61, 0x62, 0x63] := by decide +kernel
theorem witness_TreeBuildCompletes :
    (withFreq.freqValid = true ∧ 2 ≤ (presentSymbols withFreq.freq).length) ∧
    ∃ s : State, s.freqValid = true ∧ presentSymbols s.freq = [0xFF] :=
  ⟨⟨rfl, by rw [symbols_withFreq]; decide⟩,
    { State.reset with freq := (Table.const 0).put 0xFF 1, freqValid := true }, rfl, by decide +kernel⟩
theorem witness_CodeDeriveCompletes : withTree.treeValid = true := by decide +kernel
theorem witness_HdrSerializeCompletes :
    State.DstInside (State.buffers withCode [] 19) ∧ (State.buffers withCode [] 19).codeValid = true ∧
    (serializeHeader withCode.code).length ≤ 19 := by decide +kernel
theorem witness_HdrSerializeCompletes_table : (deriveCodes smallTree).wf := ⟨smallTree, witness_Tree_wf, rfl⟩
theorem witness_PackCompletes :
    State.ReadyWith (State.buffers withCode pairBytes 2) pairBytes ∧ (State.buffers withCode pairBytes 2).codeValid = true ∧
    (∀ x ∈ pairBytes, withCode.code.get x ≠ []) ∧ ceilDiv (pairBytes.flatMap withCode.code.get).length 8 ≤ 2 := by
  decide +kernel
theorem witness_UnpackCompletes :
    State.ReadyWith (State.buffers { withCode with bitCount := 16 } payloadBytes 6) payloadBytes ∧
    (State.buffers { withCode with bitCount := 16 } payloadBytes 6).treeValid = true ∧
    unpackBits payloadBytes 16 ⟨withCode.nodes, withCode.root⟩ = some pairBytes ∧ pairBytes.length ≤ 6 := by decide +kernel
theorem witness_EmptyStreamBothWays :
    ((ready [] 5).srcLen = 0 ∧ State.SrcInside (ready [] 5) ∧ State.DstInside (ready [] 5) ∧ 5 ≤ (ready [] 5).dstCap.toNat) ∧
    State.ReadyWith (ready [0xE0, 0x00, 0x00, 0x00, 0x00] 0) [0xE0, 0x00, 0x00, 0x00, 0x00] := by decide
theorem witness_CompressCompletes :
    (ready rawBytes 30).params.sizeOk ∧ State.ReadyWith (ready rawBytes 30) rawBytes ∧ rawBytes ≠ [] ∧
    ∃ r, compressResult rawBytes = .ok r ∧ r.out.length ≤ (ready rawBytes 30).dstCap.toNat := by
  obtain ⟨r, hr, hl⟩ := compress_raw
  exact ⟨by decide, by decide, by decide, r, hr, by rw [hl]; decide⟩

/-- The header a byte list parses to, when it does. -/
def isParsed (h : List Byte) : Bool :=
  match parseHeader h with
  | .ok _ => true
  | .error _ => false
/-- Its length, 0 when it does not parse. -/
def usedBy (h : List Byte) : Nat :=
  match parseHeader h with
  | .ok p => p.used
  | .error _ => 0
/-- Its tree. -/
def treeBy (h : List Byte) : Tree :=
  match parseHeader h with
  | .ok p => p.tree
  | .error _ => Tree.empty
theorem parsed {h : List Byte} (hp : isParsed h = true) :
    ∃ p, parseHeader h = .ok p ∧ p.used = usedBy h ∧ p.tree = treeBy h := by
  unfold isParsed usedBy treeBy at *
  cases hq : parseHeader h with
  | ok p => exact ⟨p, rfl, by simp⟩
  | error e => simp [hq] at hp
/-- The error a byte list's header raises. -/
def raisedBy (h : List Byte) : Option ErrorKind :=
  match parseHeader h with
  | .ok _ => none
  | .error e => some e
theorem raised {h : List Byte} {e : ErrorKind} (he : raisedBy h = some e) : parseHeader h = .error e := by
  unfold raisedBy at he
  cases hq : parseHeader h with
  | ok p => simp [hq] at he
  | error f => simp [hq] at he; rw [he]

theorem witness_HdrParseCompletes :
    State.SrcInside (ready headerBytes 0) ∧ State.SourceHolds (ready headerBytes 0) headerBytes ∧
    ∃ p, parseHeader headerBytes = .ok p := by
  obtain ⟨p, hp, -⟩ := parsed (h := headerBytes) (by decide +kernel)
  exact ⟨by decide, by decide, p, hp⟩
theorem witness_DecompressCompletes :
    State.ReadyWith (ready streamBytes 9) (0xA5 :: be32 9 ++ headerBytes ++ be32 16 ++ payloadBytes) ∧
    ∃ p, parseHeader (headerBytes ++ be32 16 ++ payloadBytes) = .ok p ∧ p.used = headerBytes.length ∧
      payloadBytes.length = ceilDiv 16 8 ∧ unpackBits payloadBytes 16 p.tree = some pairBytes ∧
      rleDecode pairBytes = some rawBytes ∧ rawBytes.length = 9 ∧ 9 ≤ (ready streamBytes 9).dstCap.toNat := by
  obtain ⟨p, hp, hu, ht⟩ := parsed (h := headerBytes ++ be32 16 ++ payloadBytes) (by decide +kernel)
  refine ⟨by decide, p, hp, ?_, by decide, ?_, by decide, by decide, by decide⟩
  · rw [hu]; decide +kernel
  · rw [ht]; decide +kernel

/-- A stream that is ready to be decompressed and raises `e` at stage `g`. -/
def RaisesReady (b : List Byte) (e : ErrorKind) (g : Stage) : Prop :=
  State.ReadyWith (ready b 9) b ∧ DecompressRaises b e g

theorem witness_Decompress_framing :
    RaisesReady [] .truncatedStream .headerParsing ∧
    RaisesReady [0xE0, 0x00, 0x00, 0x00] .truncatedStream .headerParsing ∧
    RaisesReady (0xE0 :: be32 1 ++ []) .malformedHeader .headerParsing ∧
    RaisesReady (0xE0 :: be32 0 ++ [0x00]) .malformedHeader .headerParsing ∧
    RaisesReady [0xA6] .malformedHeader .headerParsing ∧
    RaisesReady [0xA5, 0x00, 0x00, 0x00] .truncatedStream .headerParsing ∧
    RaisesReady (0xA5 :: be32 0 ++ []) .malformedHeader .headerParsing :=
  ⟨⟨by decide, .noMarker⟩, ⟨by decide, .emptyCut _ (by decide)⟩, ⟨by decide, .emptyLength 1 [] (by decide) (by decide)⟩,
    ⟨by decide, .emptyTrailing 0x00 []⟩, ⟨by decide, .badMarker 0xA6 [] (by decide) (by decide)⟩,
    ⟨by decide, .lengthCut _ (by decide)⟩, ⟨by decide, .zeroLength []⟩⟩
theorem witness_Decompress_header :
    RaisesReady (0xA5 :: be32 9 ++ []) .truncatedStream .headerParsing ∧
    RaisesReady (0xA5 :: be32 9 ++ [0x00, 0x41, 0x01, 0x80]) .malformedHeader .headerParsing :=
  ⟨⟨by decide, .header 9 [] _ (by decide) (by decide) (raised (by decide +kernel))⟩,
    ⟨by decide, .header 9 [0x00, 0x41, 0x01, 0x80] _ (by decide) (by decide) (raised (by decide +kernel))⟩⟩
theorem witness_Decompress_bitCountCut :
    RaisesReady (0xA5 :: be32 9 ++ (headerBytes ++ [0x00, 0x00, 0x00])) .truncatedStream .headerParsing := by
  obtain ⟨p, hp, hu, -⟩ := parsed (h := headerBytes ++ [0x00, 0x00, 0x00]) (by decide +kernel)
  exact ⟨by decide, .bitCountCut 9 _ p (by decide) (by decide) hp (by rw [hu]; decide +kernel)⟩
theorem witness_Decompress_payloadCut :
    RaisesReady (0xA5 :: be32 9 ++ (headerBytes ++ be32 16 ++ [0xF8])) .truncatedStream .bitUnpacking := by
  obtain ⟨p, hp, hu, -⟩ := parsed (h := headerBytes ++ be32 16 ++ [0xF8]) (by decide +kernel)
  exact ⟨by decide, .payloadCut 9 _ p (by decide) (by decide) hp (by rw [hu]; decide +kernel) (by rw [hu]; decide +kernel)⟩
theorem witness_Decompress_payloadTrailing :
    RaisesReady (0xA5 :: be32 9 ++ (headerBytes ++ be32 16 ++ payloadBytes ++ [0x00])) .malformedHeader .bitUnpacking := by
  obtain ⟨p, hp, hu, -⟩ := parsed (h := headerBytes ++ be32 16 ++ payloadBytes ++ [0x00]) (by decide +kernel)
  exact ⟨by decide, .payloadTrailing 9 _ p (by decide) (by decide) hp (by rw [hu]; decide +kernel)⟩
theorem witness_Decompress_midCode :
    RaisesReady (0xA5 :: be32 9 ++ (headerBytes ++ be32 15 ++ payloadBytes)) .truncatedStream .bitUnpacking := by
  obtain ⟨p, hp, hu, ht⟩ := parsed (h := headerBytes ++ be32 15 ++ payloadBytes) (by decide +kernel)
  exact ⟨by decide, .midCode 9 _ p (by decide) (by decide) hp (by rw [hu]; decide +kernel) (by rw [hu, ht]; decide +kernel)⟩
theorem witness_Decompress_badRun :
    RaisesReady (0xA5 :: be32 1 ++ [0x01, 0x00, 0x01, 0x00, 0x41, 0x01, 0x80, 0x00, 0x00, 0x00, 0x02, 0x80])
      .malformedRun .rleExpansion := by
  obtain ⟨p, hp, hu, ht⟩ :=
    parsed (h := [0x01, 0x00, 0x01, 0x00, 0x41, 0x01, 0x80, 0x00, 0x00, 0x00, 0x02, 0x80]) (by decide +kernel)
  exact ⟨by decide, .badRun 1 _ p [0x41, 0x00] (by decide) (by decide) hp (by rw [hu]; decide +kernel)
    (by rw [hu, ht]; decide +kernel) (by decide)⟩
theorem witness_Decompress_wrongLength :
    RaisesReady (0xA5 :: be32 8 ++ (headerBytes ++ be32 16 ++ payloadBytes)) .malformedHeader .rleExpansion := by
  obtain ⟨p, hp, hu, ht⟩ := parsed (h := headerBytes ++ be32 16 ++ payloadBytes) (by decide +kernel)
  exact ⟨by decide, .wrongLength 8 _ p pairBytes rawBytes (by decide) (by decide) hp (by rw [hu]; decide +kernel)
    (by rw [hu, ht]; decide +kernel) (by decide) (by decide)⟩

theorem witness_StageCommandsReportDataErrors :
    (State.ReadyWith (ready [0x61, 0x00] 9) [0x61, 0x00] ∧ rleDecode [0x61, 0x00] = none) ∧
    (State.ReadyWith (State.buffers withCode [0x61, 0x41] 9) [0x61, 0x41] ∧
      (State.buffers withCode [0x61, 0x41] 9).codeValid = true ∧ ∃ x ∈ [0x61, 0x41], withCode.code.get x = []) ∧
    (State.ReadyWith (State.buffers { withCode with bitCount := 17 } payloadBytes 9) payloadBytes ∧
      (State.buffers { withCode with bitCount := 17 } payloadBytes 9).treeValid = true ∧
      unpackBits payloadBytes 17 ⟨withCode.nodes, withCode.root⟩ = none) := by decide +kernel
theorem witness_StageCommandsReportDataErrors_empty :
    ∃ s : State, s.freqValid = true ∧ ∀ x, s.freq.get x = 0 := ⟨{ State.reset with freqValid := true }, rfl, Table.get_const 0⟩
theorem witness_StageCommandsReportDataErrors_header :
    (State.SrcInside (ready [0x01, 0x02, 0x00, 0x03, 0x01, 0x80] 0) ∧
      State.SourceHolds (ready [0x01, 0x02, 0x00, 0x03, 0x01, 0x80] 0) [0x01, 0x02, 0x00, 0x03, 0x01, 0x80]) ∧
    parseHeader [0x01, 0x02, 0x00, 0x03, 0x01, 0x80] = .error .malformedHeader :=
  ⟨by decide, raised (by decide +kernel)⟩

/-! ## Witnesses: what the commands compute -/

theorem witness_RleEncodeSplitsLongRuns :
    0 < 255 ∧ ([] : List Byte).head? ≠ some 0x41 ∧ ([0x42] : List Byte).head? ≠ some 0x41 := by decide
theorem witness_BuiltTreeIsWellFormed : 2 ≤ (presentSymbols withFreq.freq).length := by rw [symbols_withFreq]; decide
theorem witness_BuiltTreeIsWellFormed_sum :
    ((presentSymbols withFreq.freq).map (fun x => (withFreq.freq.get x).toNat)).sum < 2 ^ 32 := by
  rw [symbols_withFreq]; decide

theorem witness_DerivedCodesAreLeafPaths : smallTree.wf ∧ 0x41 ∈ leafSymbols smallTree.nodes ∧ 0x43 ∉ leafSymbols smallTree.nodes := by
  decide
theorem witness_DerivedCodesArePrefixFreeAndComplete : smallTree.wf := witness_Tree_wf
/-- The worked header is a listing, its padding bits free: the last entry's field may as well be 0x7F. -/
theorem witness_AcceptedHeadersAreValid_listing :
    headerBytes = headerBytesOf 6 workedEntries ∧ workedEntries.length = 6 ∧ Listing 6 workedEntries ∧
    FieldHolds [false, true] [0x7F] := by decide +kernel
theorem witness_AcceptedHeadersAreValid_table :
    (deriveCodes smallTree).wf ∧ [0x41, 0x42] = codedSymbols (deriveCodes smallTree) ∧
    FieldHolds ((deriveCodes smallTree).get 0x41) [0x7F] ∧ FieldHolds ((deriveCodes smallTree).get 0x42) [0x80] :=
  ⟨⟨smallTree, witness_Tree_wf, rfl⟩, by decide +kernel, by decide +kernel, by decide +kernel⟩
theorem witness_AcceptedHeadersAreValid_error : parseHeader [] = .error .truncatedStream := raised (by decide +kernel)
/-- After two entries of the worked header: a symbol not above them, one above them, a field cut short, a code that an earlier code is
the beginning of, and one that needs a node too many. -/
theorem witness_HeaderErrorsInByteOrder :
    Listing 6 (workedEntries.take 2) ∧ (workedEntries.take 2).length < 6 ∧
    (∃ e ∈ workedEntries.take 2, (0x03 : Byte).toNat ≤ e.symbol.toNat) ∧
    (∀ e ∈ workedEntries.take 2, e.symbol.toNat < (0x04 : Byte).toNat) ∧
    ([0x00] : List Byte).length < ceilDiv (9 : Byte).toNat 8 ∧
    (FieldHolds [true, false, false, true] [0x90] ∧
      ¬ Listing 6 (workedEntries.take 2 ++ [⟨0x04, [true, false, false, true], [0x90]⟩])) ∧
    (FieldHolds (List.replicate 8 false) [0x00] ∧
      ¬ Listing 6 (workedEntries.take 2 ++ [⟨0x04, List.replicate 8 false, [0x00]⟩])) := by decide +kernel
theorem witness_AcceptedHeadersAreValid : ∃ p, parseHeader headerBytes = .ok p := by
  obtain ⟨p, hp, -⟩ := parsed (h := headerBytes) (by decide +kernel)
  exact ⟨p, hp⟩
theorem witness_HeaderRoundTrip : (deriveCodes smallTree).wf := ⟨smallTree, witness_Tree_wf, rfl⟩
theorem witness_PackedCodePositions :
    packBits ([0x41] ++ 0x42 :: [0x41]) (deriveCodes smallTree) = some ([0x40], 3) ∧
    0 < ((deriveCodes smallTree).get 0x42).length := by decide +kernel
theorem witness_UnpackInvertsPack :
    smallTree.wf ∧ packBits [0x41, 0x42] (deriveCodes smallTree) = some ([0x40], 2) := ⟨witness_Tree_wf, by decide +kernel⟩
theorem witness_UnpackInvertsPack_bits :
    ceilDiv 8 8 ≤ ([0x40] : List Byte).length ∧ (∀ x ∈ [0x41, 0x42], (deriveCodes smallTree).get x ≠ []) ∧
    (List.range 2).map (packedBit [0x40]) = [0x41, 0x42].flatMap (deriveCodes smallTree).get := by decide +kernel
theorem witness_DecompressInvertsCompress :
    rawBytes.length ≤ 2 ^ 28 ∧ ∃ r, compressResult rawBytes = .ok r ∧ r.out.length ≤ 2 ^ 28 := by
  obtain ⟨r, hr, hl⟩ := compress_raw
  exact ⟨by decide, r, hr, by rw [hl]; decide⟩
theorem witness_TruncationIsDetected :
    rawBytes.length ≤ 2 ^ 28 ∧ ∃ r, compressResult rawBytes = .ok r ∧ r.out.length ≤ 2 ^ 28 ∧ 29 < r.out.length := by
  obtain ⟨r, hr, hl⟩ := compress_raw
  exact ⟨by decide, r, hr, by rw [hl]; decide, by rw [hl]; decide⟩

/-! ## Witnesses: registers and reset -/

theorem witness_HostMovesBusy :
    State.HostMovesBusy (hostWillBusy .compress .wait) ∧ State.HostMovesBusy (hostWillStalled .wait) := by decide
theorem witness_ReadOnlyViews :
    Params.reference.sizeOk ∧ withCode.nodes.length ≤ 511 ∧ (withCode.code.get 0x61).length ≤ 255 := by decide +kernel
theorem witness_IdleRegisterRead :
    (hostWill (.read (0x40000000 + 0x3C) 4)).busy = false ∧ (hostWill .wait).busy = false ∧ 0x60 ≤ 0xFC ∧ 0xFC % 4 = 0 := by decide
theorem witness_BusyRegisterRead :
    State.HostMovesBusy (hostWillBusy .compress (.read (Params.reference.regBase + 0x0C) 4)) ∧
    State.HostMovesBusy (hostWillBusy .compress (.read (Params.reference.regBase + 0x20) 4)) ∧
    State.HostMovesBusy (hostWillBusy .compress .wait) := by decide
theorem witness_StatusRegister :
    (hostWill (.write (Params.reference.regBase + 0x0C) 4 0xE)).busy = false ∧
    State.HostMovesBusy (hostWillBusy .nop (.write (Params.reference.regBase + 0x0C) 4 0xE)) := by decide
theorem witness_CmdWriteIssuesOrOverruns :
    (hostWill (.write (Params.reference.regBase + 0x10) 4 1)).busy = false ∧
    State.HostMovesBusy (hostWillStalled (.write (Params.reference.regBase + 0x10) 4 1)) := by decide
theorem witness_ParameterWrites :
    (∀ off ∈ [0x14, 0x18, 0x1C, 0x20, 0x2C, 0x40, 0x48, 0x54, 0x5C, 0x60, 0xFC],
      (hostWill (.write (Params.reference.regBase + off) 4 0xFFFFFFFF)).busy = false ∧
      State.HostMovesBusy (hostWillBusy .pack (.write (Params.reference.regBase + off) 4 0xFFFFFFFF))) := by decide
theorem witness_HardwareReset :
    (hostWill .hardReset).program = [.hardReset] ∧ State.HostMovesBusy (hostWillBusy .pack .hardReset) := by decide
theorem witness_CtrlWriteAndSoftReset :
    (hostWill (.write (Params.reference.regBase + 0x08) 4 3)).busy = false ∧
    State.HostMovesBusy (hostWillBusy .pack (.write (Params.reference.regBase + 0x08) 4 2)) ∧
    (3 : Word).getLsbD 1 = true ∧ (1 : Word).getLsbD 1 = false ∧
    decode (hostWillBusy .pack (.write (Params.reference.regBase + 0x08) 4 2)).cmd = .ok .pack ∧
    (shapeOf .pack).dest = true := by decide

/-! ## Witnesses: the host and DMEM -/

/-- The last admitted access of each width. -/
theorem witness_HostStoreIsLittleEndian :
    Params.reference.apart ∧ ∀ c ∈ [(0xFFF, 1), (0xFFE, 2), (0xFFC, 4)],
      c.2 ∈ [1, 2, 4] ∧ c.1 % c.2 = 0 ∧ c.1 + c.2 ≤ Params.reference.dmemSize ∧
      (hostWill (.write (Params.reference.dmemBase + c.1) c.2 0x12345678)).busy = false := by decide
theorem witness_HostLoad :
    Params.reference.apart ∧ (hostWill (.read (Params.reference.dmemBase + 0xFFE) 2)).busy = false ∧
    (∀ k, (h : k < [(0x34 : Byte), 0x12].length) →
      Memory.get [(0xFFE, 0x34), (0xFFF, 0x12)] (0xFFE + k) = some [(0x34 : Byte), 0x12][k]) ∧
    (Memory.get [(0xFFE, 0x34)] (0xFFE + 1) = none ∧ ∀ j < 1, Memory.get [(0xFFE, 0x34)] (0xFFE + j) ≠ none) := by decide
/-- A command in flight on 4 source bytes at 0x10 and 8 destination bytes at 0x800. -/
theorem witness_UsesRanges (op : HostOp) :
    (∀ a, (hostWillBusy .rleEncode op).UsesSource a ↔ 0x10 ≤ a ∧ a < 0x14) ∧
    (∀ a, (hostWillBusy .rleEncode op).UsesDest a ↔ 0x800 ≤ a ∧ a < 0x808) := by
  have hd : decode (hostWillBusy .rleEncode op).cmd = .ok .rleEncode := by
    show decode (encode .rleEncode) = .ok .rleEncode
    decide
  refine ⟨fun a => ⟨fun ⟨i, _, _, h1, h2⟩ => ⟨h1, h2⟩, fun h => ⟨_, hd, rfl, h.1, h.2⟩⟩,
    fun a => ⟨fun ⟨i, _, _, h1, h2⟩ => ⟨h1, h2⟩, fun h => ⟨_, hd, rfl, h.1, h.2⟩⟩⟩
/-- While busy: two destination bytes, then the last source bytes and one past them that is INDET. -/
theorem witness_HostLoad_busy :
    State.HostMovesBusy (hostWillBusy .rleEncode (.read (Params.reference.dmemBase + 0x806) 2)) ∧
    State.HostMovesBusy (hostWillBusy .rleEncode (.read (Params.reference.dmemBase + 0x10) 4)) ∧
    (hostWillBusy .rleEncode .wait).dmem.get 0x13 = some 4 ∧ (hostWillBusy .rleEncode .wait).dmem.get 0x14 = none ∧
    0x806 % 2 = 0 ∧ 0x10 % 4 = 0 ∧ 0x14 + 1 ≤ Params.reference.dmemSize := by decide
/-- The last source byte, the first and the last destination byte, and the bytes next to them outside both ranges. -/
theorem witness_HostWriteWhileBusy :
    Params.reference.apart ∧
    (∀ c ∈ [(0x13, 1), (0x800, 4), (0x806, 2), (0x14, 4), (0x7FE, 2), (0x808, 1)],
      State.HostMovesBusy (hostWillBusy .rleEncode (.write (Params.reference.dmemBase + c.1) c.2 0x12345678)) ∧
      c.2 ∈ [1, 2, 4] ∧ c.1 % c.2 = 0 ∧ c.1 + c.2 ≤ Params.reference.dmemSize) := by decide
theorem witness_HostAccessNotAdmitted :
    (hostWill (.read 0x40000100 4)).busy = false ∧ (hostWillStalled (.read 0x40000100 4)).stalled = true ∧
    Params.reference.apart ∧
    (0x40000100 < Params.reference.dmemBase ∧ Params.reference.regBase + 256 ≤ 0x40000100) ∧
    ((0xFE : Nat) < 256 ∧ 0xFE % 4 ≠ 0) ∧
    (0xFFE < Params.reference.dmemSize ∧ Params.reference.dmemSize < 0xFFE + 4) := by decide

/-! ## Witnesses: whole-machine rules -/

theorem witness_FaultsAreNeverCleared :
    goesOn (step { hostWillStalled .hardReset with program := [.hardReset] }) = true ∧
    ModelFault.uninitRead 0x10 ∈ (hostWillStalled .hardReset).faults := by decide
/-- Two instances, the second of which moves. -/
def twoInstances : Platform := [State.reset, State.resetOn ⟨0x1000, 0x60000000, 0x70000000⟩]
theorem witness_FaultsAreNeverCleared_platform :
    twoInstances.wellFormed ∧ ¬ Platform.wellFormed [] ∧ ¬ Platform.wellFormed [State.reset, State.reset] ∧
    ∃ q, platformStep twoInstances 1 = some (.next q) :=
  ⟨by decide, by decide, by decide, _, rfl⟩
theorem witness_HostNeverWritesATable :
    admitted Params.reference .hardReset = true ∧
    admitted Params.reference (.write (Params.reference.regBase + 0x08) 4 2) = true := by decide
theorem witness_StepKeepsMemoryCanonical :
    State.memoryOk (hostWillBusy .rleEncode .hardReset) ∧ State.faultsOk (hostWillStalled .hardReset) ∧
    goesOn (step (hostWillBusy .rleEncode .hardReset)) = true := by decide
theorem witness_StepKeepsLifecycleConsistent :
    State.lifecycleOk (hostWillStalled .hardReset) ∧ State.lifecycleOk State.reset ∧
    State.invalidTablesReset (hostWillStalled .hardReset) ∧ goesOn (step (hostWillStalled .hardReset)) = true :=
  ⟨by decide, by decide, ⟨fun _ => rfl, fun _ => ⟨rfl, rfl⟩, fun _ => rfl⟩, by decide⟩
/-- A state whose tree and code table are valid and well formed. -/
theorem witness_StepKeepsValidTablesWellFormed :
    State.tablesOk { State.reset with
      nodes := smallTree.nodes, root := smallTree.root, treeValid := true, code := deriveCodes smallTree, codeValid := true } :=
  ⟨fun _ => witness_Tree_wf, fun _ => witness_HeaderRoundTrip⟩

end Sys2Proof.Tests
end

section
/-! PROOFS. The host's turn at a register: when the host moves, and what its access to the register block does. -/

namespace Sys2Proof.Machine

/-- The host performs the next operation of its program while the engine is idle, has latency left or is stalled (R112, R182). -/
theorem step_eq_hostPerform {s : State} {op : HostOp} {rest : List HostOp} (hm : s.busy = false ∨ s.HostMovesBusy)
    (hp : s.program = op :: rest) (ha : admitted s.params op = true) : step s = .next (s.hostPerform op rest) := by
  have ht : engineTurn s = false := by
    rcases hm with hb | ⟨hb, hd | hs⟩
    · simp [engineTurn, hb]
    · simp [engineTurn, hp, ha, Nat.pos_iff_ne_zero.1 hd]
    · simp [engineTurn, hs]
  simp [step, ht, hostTurn, hp, ha]

theorem targetOf_regBase_add (p : Params) {off : Nat} (h : off < 256) : targetOf p (p.regBase + off) = .register off :=
  (targetOf_register_iff _ _ _).2 ⟨rfl, h⟩

theorem accessAdmitted_register (p : Params) {off : Nat} (h : off < 256) (h4 : off % 4 = 0) :
    accessAdmitted p (p.regBase + off) 4 = true := by
  simp [accessAdmitted, targetOf_regBase_add p h, h4]

/-- The host's write to a register, busy or not: the register's own effect, on the state with the host moved on (R107, R108). -/
theorem step_write_register {s : State} {off : Nat} {v : Word} {rest : List HostOp} (hm : s.busy = false ∨ s.HostMovesBusy)
    (h : off < 256) (h4 : off % 4 = 0) (hp : s.program = .write (s.params.regBase + off) 4 v :: rest) :
    step s = .next ((s.hostStepped rest).writeReg off v) := by
  rw [step_eq_hostPerform hm hp (accessAdmitted_register _ h h4)]
  simp only [State.hostPerform, State.busWrite, targetOf_regBase_add _ h]

theorem writeReg_status (s : State) (v : Word) : s.writeReg 0x0C v = s.acknowledge v := rfl

/-- The write-1-to-clear, one choice per bit (R37). -/
theorem acknowledge_eq (s : State) (v : Word) :
    s.acknowledge v = { s with
      stDone := if v.getLsbD 1 then false else s.stDone
      stErr := if v.getLsbD 2 then false else s.stErr
      stOverrun := if v.getLsbD 3 then false else s.stOverrun } := by
  have clear (b c : Bool) : (b && !c) = if c then false else b := by cases c <;> simp
  simp only [State.acknowledge, clear]

end Sys2Proof.Machine
end

section
/-! PROOFS. The fields of a register word, and the bits of STATUS. -/

namespace Sys2Proof.Machine

@[simp] theorem getLsbD_fieldAt {w : Nat} (v : BitVec w) (k i : Nat) :
    (fieldAt v k).getLsbD i = (decide (i < 32) && decide (k ≤ i) && v.getLsbD (i - k)) := by
  have hle : (!decide (i < k)) = decide (k ≤ i) := by
    rw [← decide_not]
    exact decide_eq_decide.2 Nat.not_lt
  have hlt : i < 32 → i - k < 32 := by omega
  rw [fieldAt, BitVec.getLsbD_shiftLeft, hle, BitVec.getLsbD_setWidth]
  by_cases h : i < 32 <;> simp [h, hlt]

/-- A flag is a field one bit wide. -/
theorem flagAt_eq_fieldAt (b : Bool) (k : Nat) : flagAt b k = fieldAt (BitVec.ofBool b) k := rfl

@[simp] theorem getLsbD_flagAt (b : Bool) (k i : Nat) : (flagAt b k).getLsbD i = (decide (i < 32) && decide (i = k) && b) := by
  have hk : (decide (k ≤ i) && decide (i - k = 0)) = decide (i = k) := by
    rw [← Bool.decide_and]
    exact decide_eq_decide.2 (by omega)
  rw [flagAt_eq_fieldAt, getLsbD_fieldAt, BitVec.getLsbD_ofBool, Bool.and_assoc, ← Bool.and_assoc (decide (k ≤ i)), hk,
    ← Bool.and_assoc]

/-- Every bit of STATUS: the flag or the field bit whose place it is (R37). -/
theorem getLsbD_statusWord (s : State) (k : Nat) : (statusWord s).getLsbD k =
    (decide (k = 0) && s.busy || decide (k = 1) && s.stDone || decide (k = 2) && s.stErr || decide (k = 3) && s.stOverrun ||
      decide (k = 4) && s.stInfoEmpty || decide (k = 5) && s.stInfoDegenerate || decide (k = 6) && s.stInfoRunSplit ||
      decide (8 ≤ k) && s.stErrcode.getLsbD (k - 8) || decide (16 ≤ k) && s.stStage.getLsbD (k - 16) ||
      decide (k = 24) && s.freqValid || decide (k = 25) && s.treeValid || decide (k = 26) && s.codeValid) := by
  by_cases h : k < 32
  · simp only [statusWord, BitVec.getLsbD_or, getLsbD_flagAt, getLsbD_fieldAt, h, decide_true, Bool.true_and]
  · have hne (c : Nat) (hc : c < 32) : k ≠ c := by omega
    have he : s.stErrcode.getLsbD (k - 8) = false := BitVec.getLsbD_of_ge _ _ (by omega)
    have hg : s.stStage.getLsbD (k - 16) = false := BitVec.getLsbD_of_ge _ _ (by omega)
    simp [BitVec.getLsbD_of_ge _ _ (Nat.not_lt.1 h), he, hg, hne]

theorem extractLsb'_statusWord_errcode (s : State) : (statusWord s).extractLsb' 8 4 = s.stErrcode := by
  ext i hi
  rw [BitVec.getElem_extractLsb', getLsbD_statusWord]
  interval_cases i <;> simp

theorem extractLsb'_statusWord_stage (s : State) : (statusWord s).extractLsb' 16 4 = s.stStage := by
  ext i hi
  rw [BitVec.getElem_extractLsb', getLsbD_statusWord]
  interval_cases i <;> simp

end Sys2Proof.Machine

open Sys2Proof Sys2Proof.Machine

/-- Settles O41: bit by bit from the layout, and a write to STATUS is the write-1-to-clear of the host's turn. -/
theorem statusRegister : Obligations.StatusRegister := by
  refine ⟨fun s => ?_, fun s v rest hm hp => ?_⟩
  · simp only [getLsbD_statusWord, extractLsb'_statusWord_errcode, extractLsb'_statusWord_stage]
    simp
  · rw [step_write_register hm (by decide) (by decide) hp, writeReg_status, acknowledge_eq]

end

section
/-! PROOFS. The read-only registers, the views of the tables and the table windows as numbers. -/

namespace Sys2Proof.Machine

/-! ## Fields of a register word as numbers -/

theorem toNat_fieldAt {w : Nat} (v : BitVec w) (k : Nat) (h : w + k ≤ 32) : (fieldAt v k).toNat = v.toNat * 2 ^ k := by
  have hv : v.toNat * 2 ^ k < 2 ^ 32 :=
    calc v.toNat * 2 ^ k < 2 ^ w * 2 ^ k := Nat.mul_lt_mul_of_pos_right v.isLt (by positivity)
      _ = 2 ^ (w + k) := (Nat.pow_add ..).symm
      _ ≤ 2 ^ 32 := Nat.pow_le_pow_right (by decide) h
  have hw : v.toNat % 2 ^ 32 = v.toNat := Nat.mod_eq_of_lt (lt_of_le_of_lt (Nat.le_mul_of_pos_right _ (by positivity)) hv)
  rw [fieldAt, BitVec.toNat_shiftLeft, BitVec.toNat_setWidth, hw, Nat.shiftLeft_eq, Nat.mod_eq_of_lt hv]

/-- A field below bit `k` beside a word whose low `k` bits are 0 adds to it. -/
theorem toNat_or_fieldAt_zero {w k : Nat} (u : Word) (v : BitVec w) (a : Nat) (hu : u.toNat = 2 ^ k * a) (hw : w ≤ k)
    (hk : w ≤ 32) : (u ||| fieldAt v 0).toNat = 2 ^ k * a + v.toNat := by
  have hv : v.toNat < 2 ^ k := lt_of_lt_of_le v.isLt (Nat.pow_le_pow_right (by decide) hw)
  rw [BitVec.toNat_or, toNat_fieldAt v 0 hk, hu, pow_zero, Nat.mul_one, Nat.two_pow_add_eq_or_of_lt hv]

/-- A leaf in TREE_NODE: VALID, IS_LEAF and the symbol (R59). -/
theorem toNat_leafWord (x : Byte) :
    (flagAt true 31 ||| flagAt true 30 ||| fieldAt x 0).toNat = 2 ^ 31 + 2 ^ 30 + x.toNat :=
  toNat_or_fieldAt_zero (k := 30) _ x 3 (by decide) (by decide) (by decide)

/-- An internal node in TREE_NODE: VALID and the two child indices (R59). -/
theorem toNat_internalWord (l r : BitVec 9) :
    (flagAt true 31 ||| fieldAt r 16 ||| fieldAt l 0).toNat = 2 ^ 31 + r.toNat * 2 ^ 16 + l.toNat := by
  have hr : r.toNat * 2 ^ 16 < 2 ^ 31 := by have := r.isLt; omega
  have hu : (flagAt true 31 ||| fieldAt r 16).toNat = 2 ^ 16 * (2 ^ 15 + r.toNat) := by
    rw [BitVec.toNat_or, toNat_fieldAt r 16 (by decide), show (flagAt true 31).toNat = 2 ^ 31 * 1 from by decide,
      ← Nat.two_pow_add_eq_or_of_lt hr]
    ring
  rw [toNat_or_fieldAt_zero _ l _ hu (by decide) (by decide)]
  ring

/-! ## Counts -/

/-- A count of byte values fits a register. -/
theorem toNat_ofNat_length_filter_allBytes (p : Byte → Bool) :
    (BitVec.ofNat 32 (allBytes.filter p).length).toNat = (allBytes.filter p).length := by
  have h : (allBytes.filter p).length ≤ 256 :=
    calc (allBytes.filter p).length ≤ allBytes.length := List.length_filter_le ..
      _ = 256 := by simp [allBytes]
  rw [BitVec.toNat_ofNat, Nat.mod_eq_of_lt (by omega)]

theorem codedSymbols_eq_filter_ne_nil (c : CodeTable) : codedSymbols c = allBytes.filter (fun x => c.get x != []) := by
  have h (b : Bits) : (!b.isEmpty) = (b != []) := by cases b <;> rfl
  simp only [codedSymbols, h]

theorem toNat_symCountView (s : State) : (symCountView s).toNat =
    if s.freqValid then (allBytes.filter (fun x => s.freq.get x != 0)).length else 0 := by
  rw [symCountView, apply_ite BitVec.toNat, presentSymbols, toNat_ofNat_length_filter_allBytes]
  rfl

theorem toNat_codeCountView (s : State) : (codeCountView s).toNat =
    if s.codeValid then (allBytes.filter (fun x => s.code.get x != [])).length else 0 := by
  rw [codeCountView, apply_ite BitVec.toNat, codedSymbols_eq_filter_ne_nil, toNat_ofNat_length_filter_allBytes]
  rfl

theorem toNat_nodeCountView (s : State) (h : s.nodes.length ≤ 511) :
    (nodeCountView s).toNat = if s.treeValid then s.nodes.length else 0 := by
  rw [nodeCountView, apply_ite BitVec.toNat, BitVec.toNat_ofNat, Nat.mod_eq_of_lt (by omega)]
  rfl

theorem toNat_treeRootView (s : State) : (treeRootView s).toNat = if s.treeValid then s.root.toNat else 0 := by
  rw [treeRootView, apply_ite BitVec.toNat, BitVec.toNat_setWidth_of_le (by decide)]
  rfl

theorem toNat_codeLenView (s : State) (h : (s.code.get s.codeSelSym).length ≤ 255) :
    (codeLenView s).toNat = if s.codeValid then (s.code.get s.codeSelSym).length else 0 := by
  have hl : (selectedCode s).length = if s.codeValid then (s.code.get s.codeSelSym).length else 0 := apply_ite ..
  rw [codeLenView, BitVec.toNat_ofNat, hl, Nat.mod_eq_of_lt (by split <;> omega)]

/-! ## CODE_WORD -/

/-- In a sum of bits, the first one shifted furthest, each bit stands where it was shifted to. -/
theorem testBit_sum_shiftLeft (f : Nat → Bool) (n j : Nat) (h : j < n) :
    (((List.range n).map (fun i => (f i).toNat <<< (n - 1 - i))).sum).testBit (n - 1 - j) = f j := by
  induction n generalizing j with
  | zero => omega
  | succ n ih =>
    have hdouble : (List.range n).map (fun i => (f i).toNat <<< (n - i)) =
        (List.range n).map (fun i => 2 * ((f i).toNat <<< (n - 1 - i))) := by
      refine List.map_congr_left fun i hi => ?_
      have hi : i < n := List.mem_range.1 hi
      rw [show n - i = (n - 1 - i) + 1 by omega, Nat.shiftLeft_succ]
    rw [List.range_succ, List.map_append, List.sum_append, Nat.add_sub_cancel, hdouble, List.sum_map_mul_left]
    simp only [List.map_cons, List.map_nil, List.sum_cons, List.sum_nil, Nat.sub_self, Nat.shiftLeft_zero, Nat.add_zero]
    rw [← Nat.bit_val]
    rcases Nat.lt_succ_iff_lt_or_eq.1 h with hj | rfl
    · rw [show n - j = (n - 1 - j) + 1 by omega, Nat.testBit_bit_succ, ih j hj]
    · rw [Nat.sub_self, Nat.testBit_bit_zero]

theorem getLsbD_codeWordView (s : State) {j : Nat} (hj : j < 32) : (codeWordView s).getLsbD (31 - j) =
    (s.codeValid && (s.code.get s.codeSelSym).getD (32 * s.codeSelWord.toNat + j) false) := by
  rw [codeWordView, BitVec.getLsbD_ofNat, testBit_sum_shiftLeft _ 32 j hj, decide_eq_true (by omega), Bool.true_and]
  cases hc : s.codeValid <;> simp [selectedCode, hc]

/-! ## A parsed tree -/

/-- Each value of a successful `mapM` is the image of an element. -/
theorem exists_of_mem_mapM {α β : Type} {f : α → Option β} {l : List α} {bs : List β} (h : l.mapM f = some bs)
    {b : β} (hb : b ∈ bs) : ∃ a ∈ l, f a = some b := by
  induction l generalizing bs with
  | nil =>
    obtain rfl : [] = bs := by simpa using h
    exact absurd hb List.not_mem_nil
  | cons a l ih =>
    simp only [List.mapM_cons, Option.bind_eq_bind, Option.bind_eq_some_iff, Option.pure_def, Option.some.injEq] at h
    obtain ⟨b', ha, bs', hl, rfl⟩ := h
    rcases List.mem_cons.1 hb with rfl | hb
    · exact ⟨a, List.mem_cons_self, ha⟩
    · obtain ⟨a', ha', hf⟩ := ih hl hb
      exact ⟨a', List.mem_cons_of_mem _ ha', hf⟩

/-- What `parse_header` returns as the tree: the closed slots of the arena, rooted at 0 (R270, R275). -/
theorem parseHeader_ok_tree {h : List Byte} {p : ParsedHeader} (hp : parseHeader h = .ok p) :
    ∃ arena : List Slot, arena.mapM closeSlot = some p.tree.nodes ∧ p.tree.root = 0 := by
  unfold parseHeader at hp
  split at hp
  · cases hp
  · dsimp only at hp
    split at hp
    · cases hp
    · split at hp
      · cases hp
      · rename_i q _ _ _ hn
        cases hp
        exact ⟨q.arena, hn, rfl⟩

theorem freqAt_parseHeader {h : List Byte} {p : ParsedHeader} (hp : parseHeader h = .ok p) (n : Nat) :
    freqAt p.tree.nodes n = 0 := by
  obtain ⟨arena, harena, -⟩ := parseHeader_ok_tree hp
  cases hn : p.tree.nodes[n]? with
  | none => simp [freqAt, hn]
  | some node =>
    obtain ⟨slot, -, hs⟩ := exists_of_mem_mapM harena (List.mem_of_getElem? hn)
    match slot, hs with
    | .leaf x, hs => cases hs; simp [freqAt, hn]
    | .branch (some l) (some r), hs => cases hs; simp [freqAt, hn]

/-! ## TREE_NODE -/

theorem toNat_treeNodeView (s : State) : (treeNodeView s).toNat =
    match selectedNode s with
    | some (.leaf x _) => 2 ^ 31 + 2 ^ 30 + x.toNat
    | some (.internal l r _) => 2 ^ 31 + r.toNat * 2 ^ 16 + l.toNat
    | none => 0 := by
  unfold treeNodeView
  rcases selectedNode s with _ | ⟨x, f⟩ | ⟨l, r, f⟩
  · rfl
  · exact toNat_leafWord x
  · exact toNat_internalWord l r

end Sys2Proof.Machine

open Sys2Proof Sys2Proof.Machine

/-- Settles O42: one lemma per view, and the frequency of every closed slot of a parsed header. -/
theorem readOnlyViews : Obligations.ReadOnlyViews := by
  intro s
  refine ⟨rfl, rfl, rfl, fun hsize => ?_, toNat_symCountView s, toNat_nodeCountView s, toNat_treeRootView s,
    toNat_codeCountView s, rfl, toNat_treeNodeView s, ?_, toNat_codeLenView s, fun j => getLsbD_codeWordView s,
    fun h p n hp => freqAt_parseHeader hp n⟩
  · have hlt : s.params.dmemSize < 2 ^ 32 := lt_of_le_of_lt hsize.2 (by decide)
    exact Nat.mod_eq_of_lt hlt
  · show treeFreqView s = _
    unfold treeFreqView selectedNode
    rcases (if s.treeValid then s.nodes[s.treeSel.toNat]? else none) with _ | ⟨x, f⟩ | ⟨l, r, f⟩ <;> rfl

end

section
/-! PROOFS. The decoder and the encoder of a command word: each answer of `decode` in terms of the word's fields and of `encode`. -/

namespace Sys2Proof

/-! ## The fields of a command word -/

/-- RSVD is bits 31:8 (R130). -/
theorem toNat_rsvdField (w : Word) : (rsvdField w).toNat = w.toNat / 256 := by
  have := w.isLt
  rw [rsvdField, BitVec.extractLsb'_toNat, Nat.shiftRight_eq_div_pow]
  omega

/-- OPCODE is bits 7:0 (R130). -/
theorem toNat_opcodeField (w : Word) : (opcodeField w).toNat = w.toNat % 256 := by
  rw [opcodeField, BitVec.extractLsb'_toNat, Nat.shiftRight_zero]

theorem toNat_encode (i : Instr) : (encode i).toNat = (opcodeOf i).toNat :=
  BitVec.toNat_setWidth_of_le (by decide)

theorem rsvdField_eq_zero_iff (w : Word) : rsvdField w = 0 ↔ w.toNat / 256 = 0 := by
  rw [← BitVec.toNat_inj, toNat_rsvdField]
  rfl

/-- A word is a command's word exactly when RSVD is 0 and OPCODE is the command's (R131). -/
theorem eq_encode_iff (w : Word) (i : Instr) : w = encode i ↔ rsvdField w = 0 ∧ opcodeField w = opcodeOf i := by
  rw [rsvdField_eq_zero_iff, ← BitVec.toNat_inj, ← BitVec.toNat_inj, toNat_encode, toNat_opcodeField]
  have := (opcodeOf i).isLt
  omega

/-! ## The opcode map -/

/-- The opcode map pairs each command with its OPCODE (R131). -/
theorem fst_eq_opcodeOf_of_mem_opcodeMap : ∀ row ∈ opcodeMap, row.1 = opcodeOf row.2 := by decide

theorem decode_encode (i : Instr) : decode (encode i) = .ok i := by
  cases i <;> rfl

/-! ## What `decode` answers -/

theorem decode_eq_ok_iff (w : Word) (i : Instr) : decode w = .ok i ↔ w = encode i := by
  refine ⟨fun h => ?_, fun h => h ▸ decode_encode i⟩
  unfold decode at h
  split at h
  next hr =>
    split at h
    next row hf =>
      cases h
      have hop : row.1 = opcodeField w := by simpa using List.find?_some hf
      have hmap : row.1 = opcodeOf row.2 := fst_eq_opcodeOf_of_mem_opcodeMap row (List.mem_of_find?_eq_some hf)
      exact (eq_encode_iff w row.2).2 ⟨hr, hop.symm.trans hmap⟩
    next => cases h
  next => cases h

/-- RSVD is checked first (R133). -/
theorem decode_eq_reservedBits_iff (w : Word) : decode w = .error .reservedBits ↔ rsvdField w ≠ 0 := by
  unfold decode
  split
  next hr => split <;> simp [hr]
  next hr => exact iff_of_true rfl hr

theorem decode_eq_reservedOpcode_iff (w : Word) :
    decode w = .error .reservedOpcode ↔ rsvdField w = 0 ∧ ∀ i, w ≠ encode i := by
  cases hd : decode w with
  | ok i =>
    have hw : w = encode i := (decode_eq_ok_iff w i).1 hd
    simpa using fun _ => ⟨i, hw⟩
  | error e =>
    have hne (i : Instr) : w ≠ encode i := fun hw => nomatch hd.symm.trans ((decode_eq_ok_iff w i).2 hw)
    have hbits := decode_eq_reservedBits_iff w
    cases e with
    | reservedBits => exact iff_of_false nofun fun h => hbits.1 hd h.1
    | reservedOpcode =>
      have hr : rsvdField w = 0 := by
        by_contra hr
        cases hd.symm.trans (hbits.2 hr)
      exact iff_of_true rfl ⟨hr, hne⟩

end Sys2Proof

open Sys2Proof Sys2Proof.Machine

/-- Settles O1: each answer of `decode` by the word's fields; the word of each command is read off its OPCODE. -/
theorem noOtherWordSelectsACommand : Obligations.NoOtherWordSelectsACommand := by
  refine fun w => ⟨fun i => ?_, ?_, ?_⟩
  · intro word
    have hword : encode i = word := by cases i <;> rfl
    exact ⟨hword, hword ▸ decode_eq_ok_iff w i⟩
  · rw [decode_eq_reservedBits_iff, Ne, rsvdField_eq_zero_iff]
  · rw [decode_eq_reservedOpcode_iff, rsvdField_eq_zero_iff]

end

section
/-! PROOFS. The completion of a command with a source and a destination, in the terms of claims. -/

namespace Sys2Proof.Machine

/-! ## A command that is ready -/

/-- The source read of a command whose source holds `b` (R182). -/
theorem sourceBytes_of_sourceHolds {sh : Shape} {s : State} {b : List Byte} (hsrc : sh.source = true) (h : s.SourceHolds b) :
    sourceBytes sh s = .ok b := by
  rw [sourceBytes, if_pos hsrc, Memory.read_ok_iff]
  exact h

theorem buffersOverlap_iff (s : State) : buffersOverlap s = true ↔ s.Overlapping := by
  simp only [buffersOverlap, Bool.and_eq_true, decide_eq_true_eq, and_assoc]
  rfl

/-- A command whose source holds `b` and that needs no other prerequisite passes its prechecks (R183 to R185). -/
theorem precheck_eq_none_of_readyWith {sh : Shape} {s : State} {b : List Byte} (hpre : prereqHolds sh.prereq s = true)
    (h : s.ReadyWith b) : precheck sh s = none := by
  obtain ⟨hsrc, hdst, hover, -⟩ := h
  rw [← buffersOverlap_iff, Bool.not_eq_true] at hover
  exact (precheck_none_iff sh s).2 ⟨fun _ => hsrc, fun _ => hdst, fun _ _ => hover, hpre⟩

/-- A ready command whose function succeeds with an output that fits stores it and completes (R186). -/
theorem runCommand_eq_completeOk {sh : Shape} {s : State} {b : List Byte} {body : List Byte → Result} {r : Success}
    (hsrc : sh.source = true) (hpre : prereqHolds sh.prereq s = true) (h : s.ReadyWith b) (hr : body b = .ok r)
    (hfit : r.out.length ≤ s.dstCap.toNat) : runCommand sh body s = .next (s.completeOk sh.dest r) := by
  have ⟨_, _, _, hholds⟩ := h
  have hbytes : sourceBytes sh s = .ok b := sourceBytes_of_sourceHolds hsrc hholds
  have hcheck : checkOverflow sh s (body b) = .ok r := hr ▸ (checkOverflow_ok_iff sh s r r).2 ⟨rfl, fun _ => hfit⟩
  rw [runCommand_ready body (precheck_eq_none_of_readyWith hpre h) hbytes, hcheck]
  rfl

/-- A command with an empty source reads no bytes, and its ranges cannot overlap (R184). -/
theorem readyWith_nil {s : State} (h0 : s.srcLen = 0) (hsrc : s.SrcInside) (hdst : s.DstInside) : s.ReadyWith [] := by
  have hlen : s.srcLen.toNat = 0 := by simp [h0]
  exact ⟨hsrc, hdst, fun hover => absurd hover.1 (by omega), by simpa using hlen.symm, fun k hk => absurd hk (by simp)⟩

/-! ## What the completion leaves -/

theorem succeededFrom_completeOk {s : State} {r : Success} (hfit : r.out.length ≤ s.dstCap.toNat) :
    SucceededFrom s (s.completeOk true r) r.out.length (BitVec.ofNat 32 r.inUsed) r.info
      ((r.bitCount.map (BitVec.ofNat 32)).getD s.bitCount) := by
  have hlt : r.out.length < 2 ^ 32 := lt_of_le_of_lt hfit s.dstCap.isLt
  constructor
  case outLen => simpa using Nat.mod_eq_of_lt hlt
  case bitCount => cases h : r.bitCount <;> simp [h]
  all_goals rfl

theorem storedAtDest_completeOk (s : State) (r : Success) : StoredAtDest s (s.completeOk true r) r.out :=
  fun a => Memory.get_write s.dmem s.dstAddr.toNat a r.out

theorem sameOperands_completeOk (s : State) (hasDest : Bool) (r : Success) : SameOperands s (s.completeOk hasDest r) := by
  constructor <;> rfl

theorem freqCleared_completeOk {s : State} {r : Success} (hasDest : Bool) (h : r.updates.freq = .clear) :
    FreqCleared (s.completeOk hasDest r) := by
  rw [FreqCleared, State.completeOk_freq, State.completeOk_freqValid, h]
  exact ⟨rfl, rfl⟩

theorem treeCleared_completeOk {s : State} {r : Success} (hasDest : Bool) (h : r.updates.tree = .clear) :
    TreeCleared (s.completeOk hasDest r) := by
  rw [TreeCleared, State.completeOk_nodes, State.completeOk_root, State.completeOk_treeValid, h]
  exact ⟨rfl, rfl, rfl⟩

theorem codeCleared_completeOk {s : State} {r : Success} (hasDest : Bool) (h : r.updates.code = .clear) :
    CodeCleared (s.completeOk hasDest r) := by
  rw [CodeCleared, State.completeOk_code, State.completeOk_codeValid, h]
  exact ⟨rfl, rfl⟩

end Sys2Proof.Machine

end

section
/-! PROOFS. The empty stream (R142): what `compress` makes of no bytes, and which byte lists `decompress` accepts with INFO_EMPTY. -/

namespace Sys2Proof.Machine

/-- What both pipeline commands answer on the empty stream, `out` stored and `used` bytes consumed (R331, R351). -/
def emptyStreamSuccess (out : List Byte) (used : Nat) : Success := ⟨out, used, ⟨true, false, false⟩, some 0, clearAll⟩

theorem compressResult_nil : compressResult [] = .ok (emptyStreamSuccess emptyStream 0) := rfl

theorem decompressResult_emptyStream : decompressResult emptyStream = .ok (emptyStreamSuccess [] 5) := by decide

/-- A ready pipeline command that answers as on the empty stream completes with INFO_EMPTY and all three tables invalid. -/
theorem completes_emptyStreamSuccess {sh : Shape} {s : State} {b out : List Byte} {used : Nat} {body : List Byte → Result}
    (hsrc : sh.source = true) (hdest : sh.dest = true) (hpre : prereqHolds sh.prereq s = true) (h : s.ReadyWith b)
    (hr : body b = .ok (emptyStreamSuccess out used)) (hfit : out.length ≤ s.dstCap.toNat) :
    ∃ t, runCommand sh body s = .next t ∧ SucceededFrom s t out.length (BitVec.ofNat 32 used) ⟨true, false, false⟩ 0 ∧
      StoredAtDest s t out ∧ FreqCleared t ∧ TreeCleared t ∧ CodeCleared t ∧ SameOperands s t :=
  ⟨_, hdest ▸ runCommand_eq_completeOk hsrc hpre h hr hfit, succeededFrom_completeOk hfit, storedAtDest_completeOk s _,
    freqCleared_completeOk true rfl, treeCleared_completeOk true rfl, codeCleared_completeOk true rfl,
    sameOperands_completeOk s true _⟩

/-! ## The streams with INFO_EMPTY -/

theorem foldl_bigEndian_eq_zero_iff (b : List Byte) (v : Nat) :
    b.foldl (fun v x => v * 256 + x.toNat) v = 0 ↔ v = 0 ∧ ∀ x ∈ b, x = 0 := by
  induction b generalizing v with
  | nil => simp
  | cons x b ih =>
    have hx : x.toNat = 0 ↔ x = 0 := BitVec.toNat_inj (y := 0)
    rw [List.foldl_cons, ih, List.forall_mem_cons, Nat.add_eq_zero_iff, hx]
    simp [and_assoc]

/-- A big-endian number is 0 exactly when all its bytes are (R11). -/
theorem rdBe32_eq_zero_iff (b : List Byte) : rdBe32 b = 0 ↔ ∀ x ∈ b, x = 0 := by
  simp [rdBe32, foldl_bigEndian_eq_zero_iff]

/-- The empty-stream branch accepts a stream that begins with the empty marker only when it is the empty stream (R142, R351). -/
theorem decompressEmpty_eq_ok {rest : List Byte} {r : Success} (h : decompressEmpty (emptyMarker :: rest) = .ok r) :
    emptyMarker :: rest = emptyStream ∧ r = emptyStreamSuccess [] 5 := by
  unfold decompressEmpty at h
  split at h
  next => cases h
  next hshort =>
    split at h
    next => cases h
    next hzero =>
      split at h
      next => cases h
      next hlong =>
        have hlen : rest.length = 4 := by simp only [List.length_cons] at hshort hlong; omega
        have hbytes : ∀ x ∈ rest, x = 0 := by
          rw [not_not, rdBe32_eq_zero_iff, List.drop_one, List.tail_cons, List.take_of_length_le hlen.le] at hzero
          exact hzero
        have hrest : rest = List.replicate 4 0 := List.eq_replicate_iff.2 ⟨hlen, hbytes⟩
        cases h
        exact ⟨hrest ▸ rfl, rfl⟩

/-! ## The Huffman branch sets no INFO bit -/

theorem info_of_decompressExpand_eq_ok {len n bc : Nat} {c : CodeTable} {syms : List Byte} {r : Success}
    (h : decompressExpand len n bc c syms = .ok r) : r.info = Info.none := by
  unfold decompressExpand at h
  split at h
  next => cases h
  next =>
    split at h
    next => cases h
    next => cases h; rfl

theorem info_of_decompressPayload_eq_ok {len n bc : Nat} {p : ParsedHeader} {rest : List Byte} {r : Success}
    (h : decompressPayload len n bc p rest = .ok r) : r.info = Info.none := by
  unfold decompressPayload at h
  split at h
  next => cases h
  next =>
    split at h
    next => cases h
    next =>
      split at h
      next => cases h
      next => exact info_of_decompressExpand_eq_ok h

theorem info_of_decompressHuffman_eq_ok {b : List Byte} {r : Success} (h : decompressHuffman b = .ok r) :
    r.info = Info.none := by
  unfold decompressHuffman at h
  split at h
  next => cases h
  next =>
    dsimp only at h
    split at h
    next => cases h
    next =>
      split at h
      next => cases h
      next =>
        split at h
        next => cases h
        next => exact info_of_decompressPayload_eq_ok h

/-- A stream decompresses with INFO_EMPTY exactly when it is the empty stream (R142). -/
theorem infoEmpty_of_decompressResult_eq_ok {b : List Byte} {r : Success} (h : decompressResult b = .ok r) :
    r.info.empty = true ↔ b = emptyStream := by
  unfold decompressResult at h
  split at h
  next => cases h
  next m rest =>
    split at h
    next hm =>
      subst hm
      obtain ⟨hb, rfl⟩ := decompressEmpty_eq_ok h
      exact iff_of_true rfl hb
    next hm =>
      have hne : m :: rest ≠ emptyStream := fun hb => hm (List.cons.inj hb).1
      split at h
      next => simp [info_of_decompressHuffman_eq_ok h, Info.none, hne]
      next => cases h

end Sys2Proof.Machine

open Sys2Proof Sys2Proof.Machine

/-- Settles O24: both commands complete with one and the same success, and the other branches of `decompress` leave INFO_EMPTY 0. -/
theorem emptyStreamBothWays : Obligations.EmptyStreamBothWays := by
  refine ⟨fun s h0 hsrc hdst hcap => ?_, fun s h => ?_, fun b r => infoEmpty_of_decompressResult_eq_ok⟩
  · exact completes_emptyStreamSuccess (sh := shapeOf .compress) rfl rfl rfl (readyWith_nil h0 hsrc hdst) compressResult_nil hcap
  · exact completes_emptyStreamSuccess (sh := shapeOf .decompress) rfl rfl rfl h decompressResult_emptyStream (Nat.zero_le _)

end

section
/-! PROOFS. The error completion in the terms of claims, and the illegal command word (R186, R193). -/

namespace Sys2Proof.Machine

theorem failedFrom_completeError (s : State) (w : WriteSet) (e : ErrorKind) (g : Stage) :
    FailedFrom s (s.completeError w e g) e g := by
  constructor <;> rfl

theorem sameOperands_completeError (s : State) (w : WriteSet) (e : ErrorKind) (g : Stage) :
    SameOperands s (s.completeError w e g) := by
  constructor <;> rfl

/-- A word with a nonzero RSVD, or whose low byte is no OPCODE, is the word of no command (R131, R133). -/
theorem ne_encode_of_illegal {w : Word} (h : w.toNat / 256 ≠ 0 ∨ ∀ i, (opcodeOf i).toNat ≠ w.toNat % 256) (i : Instr) :
    w ≠ encode i := by
  rintro rfl
  have hlt := (opcodeOf i).isLt
  rw [toNat_encode, Nat.div_eq_of_lt hlt, Nat.mod_eq_of_lt hlt] at h
  exact h.elim (· rfl) (· i rfl)

end Sys2Proof.Machine

open Sys2Proof Sys2Proof.Machine

/-- Settles O4: of the three things a step can do only the illegal completion is left, an error completion with no write set. -/
theorem illegalWordCompletesWithIllegalCommand : Obligations.IllegalWordCompletesWithIllegalCommand := by
  intro s hturn hillegal
  rcases step_cases s with ⟨-, i, hdecode, -⟩ | ⟨-, -, hstep⟩ | ⟨hhost, -⟩
  · exact absurd ((decode_eq_ok_iff _ _).1 hdecode) (ne_encode_of_illegal hillegal i)
  · exact ⟨_, hstep, failedFrom_completeError .., rfl, rfl, ⟨rfl, rfl⟩, ⟨rfl, rfl, rfl⟩, ⟨rfl, rfl⟩,
      sameOperands_completeError ..⟩
  · rw [hturn] at hhost
    cases hhost

end

section
/-! PROOFS. The prechecks of a command, in the terms of claims (R183 to R185, R189). -/

namespace Sys2Proof.Machine

/-- The prechecks in their order, the first that fails (R189). -/
theorem precheck_eq (sh : Shape) (s : State) : precheck sh s =
    if sh.source = true ∧ ¬ s.SrcInside then some .rangeFault
    else if sh.dest = true ∧ ¬ s.DstInside then some .rangeFault
    else if sh.source = true ∧ sh.dest = true ∧ s.Overlapping then some .bufferOverlap
    else if prereqHolds sh.prereq s = true then none
    else some .stateError := by
  have hsrc : ¬ s.SrcInside ↔ s.params.dmemSize < srcEnd s := Nat.not_le
  have hdst : ¬ s.DstInside ↔ s.params.dmemSize < dstEnd s := Nat.not_le
  simp only [precheck, Bool.and_eq_true, decide_eq_true_eq, buffersOverlap_iff, and_assoc, hsrc, hdst]

/-- A failing precheck ends the command in an error at STAGE 0. -/
theorem exec_fails_of_precheck {i : Instr} {s : State} {e : ErrorKind} (h : precheck (shapeOf i) s = some e) :
    ∃ t, exec i s = .next t ∧ FailedFrom s t e .idle := by
  obtain ⟨body, hbody⟩ := exec_runs i s
  refine ⟨_, ?_, failedFrom_completeError s (shapeOf i).writes e .idle⟩
  rw [hbody, runCommand, h]

end Sys2Proof.Machine

open Sys2Proof Sys2Proof.Machine

/-- Settles O7: each clause is one branch of the prechecks, those before it passed. -/
theorem prechecksFailInOrder : Obligations.PrechecksFailInOrder := by
  refine fun i s => ⟨fun hs hout => ?_, fun hsrc hd hout => ?_, fun hs hd hsrc hdst hover => ?_,
    fun hsrc hdst hover hpre => ?_⟩ <;> refine exec_fails_of_precheck ?_ <;> rw [precheck_eq]
  · rw [if_pos ⟨hs, hout⟩]
  · rw [if_neg fun h => h.2 (hsrc h.1), if_pos ⟨hd, hout⟩]
  · rw [if_neg fun h => h.2 hsrc, if_neg fun h => h.2 hdst, if_pos ⟨hs, hd, hover⟩]
  · rw [if_neg fun h => h.2 (hsrc h.1), if_neg fun h => h.2 (hdst h.1), if_neg fun h => hover h.1 h.2.1 h.2.2, hpre,
      if_neg Bool.false_ne_true]

end

section
/-! PROOFS. What a completion does to the three tables, by the write set of the command (R132, R188). -/

namespace Sys2Proof.Machine

/-! ## Updates and write sets -/

/-- The update rewrites or invalidates its table. -/
def Update.writes {α : Type} : Update α → Bool
  | .keep => false
  | .clear => true
  | .set _ => true

/-- The tables that the updates rewrite or invalidate. -/
def TableUpdates.writeSet (u : TableUpdates) : WriteSet := ⟨u.freq.writes, u.tree.writes, u.code.writes⟩

theorem Update.eq_keep_of_writes {α : Type} {u : Update α} (h : u.writes = false) : u = .keep := by
  cases u with
  | keep => rfl
  | clear => cases h
  | set v => cases h

/-- A written table is valid, or invalid at its reset value (R188). -/
theorem Update.valid_or_reset {α : Type} {u : Update α} (h : u.writes = true) (old reset : α) (valid : Bool) :
    u.valid valid = true ∨ u.content old reset = reset ∧ u.valid valid = false := by
  cases u with
  | keep => cases h
  | clear => exact .inr ⟨rfl, rfl⟩
  | set v => exact .inl rfl

theorem WriteSet.writeSet_invalidate (w : WriteSet) : w.invalidate.writeSet = w := by
  obtain ⟨freq, tree, code⟩ := w
  cases freq <;> cases tree <;> cases code <;> rfl

/-! ## The tables after a completion -/

/-- The tables of `t` are those of `s` with the updates `u` applied. -/
structure TablesUpdated (s t : State) (u : TableUpdates) : Prop where
  freq : t.freq = u.freq.content s.freq (Table.const 0)
  freqValid : t.freqValid = u.freq.valid s.freqValid
  nodes : t.nodes = (u.tree.content ⟨s.nodes, s.root⟩ Tree.empty).nodes
  root : t.root = (u.tree.content ⟨s.nodes, s.root⟩ Tree.empty).root
  treeValid : t.treeValid = u.tree.valid s.treeValid
  code : t.code = u.code.content s.code (Table.const [])
  codeValid : t.codeValid = u.code.valid s.codeValid

theorem tablesUpdated_completeOk (s : State) (hasDest : Bool) (r : Success) :
    TablesUpdated s (s.completeOk hasDest r) r.updates := by
  constructor <;> rfl

theorem tablesUpdated_completeError (s : State) (w : WriteSet) (e : ErrorKind) (g : Stage) :
    TablesUpdated s (s.completeError w e g) w.invalidate := by
  constructor <;> rfl

theorem tablesUpdated_stallAt (s : State) (a : Nat) : TablesUpdated s (s.stallAt a) TableUpdates.none := by
  constructor <;> rfl

section
variable {s t : State} {u : TableUpdates}

theorem TablesUpdated.sameFreq (h : TablesUpdated s t u) (hw : u.freq.writes = false) : SameFreq s t := by
  rw [SameFreq, h.freq, h.freqValid, Update.eq_keep_of_writes hw]
  exact ⟨rfl, rfl⟩

theorem TablesUpdated.sameTree (h : TablesUpdated s t u) (hw : u.tree.writes = false) : SameTree s t := by
  rw [SameTree, h.nodes, h.root, h.treeValid, Update.eq_keep_of_writes hw]
  exact ⟨rfl, rfl, rfl⟩

theorem TablesUpdated.sameCode (h : TablesUpdated s t u) (hw : u.code.writes = false) : SameCode s t := by
  rw [SameCode, h.code, h.codeValid, Update.eq_keep_of_writes hw]
  exact ⟨rfl, rfl⟩

/-- A table outside the write set is kept (R188). -/
theorem TablesUpdated.frame {w : WriteSet} (h : TablesUpdated s t u) (hw : u.writeSet = w) :
    (w.freq = false → SameFreq s t) ∧ (w.tree = false → SameTree s t) ∧ (w.code = false → SameCode s t) := by
  subst hw
  exact ⟨h.sameFreq, h.sameTree, h.sameCode⟩

theorem TablesUpdated.freqValid_or_cleared (h : TablesUpdated s t u) (hw : u.freq.writes = true) :
    t.freqValid = true ∨ FreqCleared t := by
  rw [FreqCleared, h.freq, h.freqValid]
  exact Update.valid_or_reset hw ..

theorem TablesUpdated.treeValid_or_cleared (h : TablesUpdated s t u) (hw : u.tree.writes = true) :
    t.treeValid = true ∨ TreeCleared t := by
  rw [TreeCleared, h.nodes, h.root, h.treeValid]
  refine (Update.valid_or_reset hw ⟨s.nodes, s.root⟩ Tree.empty s.treeValid).imp_right fun ⟨hreset, hvalid⟩ => ?_
  exact ⟨congrArg Tree.nodes hreset, congrArg Tree.root hreset, hvalid⟩

theorem TablesUpdated.codeValid_or_cleared (h : TablesUpdated s t u) (hw : u.code.writes = true) :
    t.codeValid = true ∨ CodeCleared t := by
  rw [CodeCleared, h.code, h.codeValid]
  exact Update.valid_or_reset hw ..

end

/-! ## The write set of an error completion -/

theorem freqCleared_completeError {w : WriteSet} (s : State) (e : ErrorKind) (g : Stage) (h : w.freq = true) :
    FreqCleared (s.completeError w e g) := by
  simp [FreqCleared, WriteSet.invalidate, h, Update.content, Update.valid]

theorem treeCleared_completeError {w : WriteSet} (s : State) (e : ErrorKind) (g : Stage) (h : w.tree = true) :
    TreeCleared (s.completeError w e g) := by
  simp [TreeCleared, WriteSet.invalidate, h, Update.content, Update.valid, Tree.empty]

theorem codeCleared_completeError {w : WriteSet} (s : State) (e : ErrorKind) (g : Stage) (h : w.code = true) :
    CodeCleared (s.completeError w e g) := by
  simp [CodeCleared, WriteSet.invalidate, h, Update.content, Update.valid]

/-! ## Each command's function updates its write set -/

/-- A success with this result writes exactly the tables of `w`. -/
def WritesOnSuccess (w : WriteSet) : Result → Prop
  | .error _ => True
  | .ok r => r.updates.writeSet = w

theorem writesOnSuccess_treeBuildResult (f : FreqTable) : WritesOnSuccess (shapeOf .treeBuild).writes (treeBuildResult f) := by
  unfold treeBuildResult
  split
  · trivial
  · rfl

theorem writesOnSuccess_hdrParseResult (h : List Byte) : WritesOnSuccess (shapeOf .hdrParse).writes (hdrParseResult h) := by
  unfold hdrParseResult
  split
  · trivial
  · rfl

theorem writesOnSuccess_packResult (c : CodeTable) (b : List Byte) :
    WritesOnSuccess (shapeOf .pack).writes (packResult c b) := by
  unfold packResult
  split
  · trivial
  · rfl

theorem writesOnSuccess_unpackResult (bc : Nat) (t : Tree) (p : List Byte) :
    WritesOnSuccess (shapeOf .unpack).writes (unpackResult bc t p) := by
  unfold unpackResult
  split
  · trivial
  · rfl

theorem writesOnSuccess_rleDecodeResult (p : List Byte) : WritesOnSuccess (shapeOf .rleDecode).writes (rleDecodeResult p) := by
  unfold rleDecodeResult
  split
  · trivial
  · rfl

theorem writesOnSuccess_compressResult (b : List Byte) : WritesOnSuccess (shapeOf .compress).writes (compressResult b) := by
  unfold compressResult
  split
  · rfl
  · split
    · trivial
    · dsimp only
      split
      · trivial
      · rfl

theorem writesOnSuccess_decompressEmpty (b : List Byte) :
    WritesOnSuccess (shapeOf .decompress).writes (decompressEmpty b) := by
  unfold decompressEmpty
  split
  · trivial
  · split
    · trivial
    · split
      · trivial
      · rfl

theorem writesOnSuccess_decompressExpand (len n bc : Nat) (c : CodeTable) (syms : List Byte) :
    WritesOnSuccess (shapeOf .decompress).writes (decompressExpand len n bc c syms) := by
  unfold decompressExpand
  split
  · trivial
  · split
    · trivial
    · rfl

theorem writesOnSuccess_decompressPayload (len n bc : Nat) (p : ParsedHeader) (rest : List Byte) :
    WritesOnSuccess (shapeOf .decompress).writes (decompressPayload len n bc p rest) := by
  unfold decompressPayload
  split
  · trivial
  · split
    · trivial
    · split
      · trivial
      · exact writesOnSuccess_decompressExpand ..

theorem writesOnSuccess_decompressHuffman (b : List Byte) :
    WritesOnSuccess (shapeOf .decompress).writes (decompressHuffman b) := by
  unfold decompressHuffman
  split
  · trivial
  · dsimp only
    split
    · trivial
    · split
      · trivial
      · split
        · trivial
        · exact writesOnSuccess_decompressPayload ..

theorem writesOnSuccess_decompressResult (b : List Byte) :
    WritesOnSuccess (shapeOf .decompress).writes (decompressResult b) := by
  unfold decompressResult
  split
  · trivial
  · split
    · exact writesOnSuccess_decompressEmpty _
    · split
      · exact writesOnSuccess_decompressHuffman _
      · trivial

/-- Every command runs in the shared frame, with a function that on success writes exactly the command's write set. -/
theorem exec_runs_writing (i : Instr) (s : State) :
    ∃ body, exec i s = runCommand (shapeOf i) body s ∧ ∀ b, WritesOnSuccess (shapeOf i).writes (body b) := by
  cases i with
  | nop => exact ⟨fun _ => nopResult, rfl, fun _ => rfl⟩
  | compress => exact ⟨_, rfl, writesOnSuccess_compressResult⟩
  | decompress => exact ⟨_, rfl, writesOnSuccess_decompressResult⟩
  | rleEncode => exact ⟨rleEncodeResult, rfl, fun _ => rfl⟩
  | rleDecode => exact ⟨_, rfl, writesOnSuccess_rleDecodeResult⟩
  | freqAnalyze => exact ⟨freqAnalyzeResult, rfl, fun _ => rfl⟩
  | treeBuild => exact ⟨fun _ => treeBuildResult s.freq, rfl, fun _ => writesOnSuccess_treeBuildResult _⟩
  | codeDerive => exact ⟨fun _ => codeDeriveResult ⟨s.nodes, s.root⟩, rfl, fun _ => rfl⟩
  | hdrSerialize => exact ⟨fun _ => hdrSerializeResult s.code, rfl, fun _ => rfl⟩
  | hdrParse => exact ⟨_, rfl, writesOnSuccess_hdrParseResult⟩
  | pack => exact ⟨_, rfl, writesOnSuccess_packResult _⟩
  | unpack => exact ⟨_, rfl, writesOnSuccess_unpackResult _ _⟩

theorem eq_ok_of_checkOverflow_eq_ok {sh : Shape} {s : State} {r : Result} {ok : Success}
    (h : checkOverflow sh s r = .ok ok) : r = .ok ok := by
  cases r with
  | error e => cases h
  | ok r => rw [((checkOverflow_ok_iff sh s r ok).1 h).1]

/-- Everything a command can do: stall the engine, fail, or succeed with updates of exactly its write set. -/
theorem exec_next_cases {i : Instr} {s t : State} (h : exec i s = .next t) :
    (∃ a, t = s.stallAt a) ∨
    (∃ e g, t = s.completeError (shapeOf i).writes e g) ∨
    (∃ r, r.updates.writeSet = (shapeOf i).writes ∧ t = s.completeOk (shapeOf i).dest r) := by
  obtain ⟨body, hbody, hwrites⟩ := exec_runs_writing i s
  rw [hbody] at h
  rcases runCommand_cases (shapeOf i) body s with ⟨e, -, hr⟩ | ⟨a, -, -, hr⟩ | ⟨b, e, -, -, -, hr⟩ | ⟨b, r, -, -, hc, hr⟩ <;>
    rw [hr, Host.Outcome.next.injEq] at h <;> subst h
  · exact .inr (.inl ⟨e, .idle, rfl⟩)
  · exact .inl ⟨a, rfl⟩
  · exact .inr (.inl ⟨e.1, e.2, rfl⟩)
  · have hb := hwrites b
    rw [eq_ok_of_checkOverflow_eq_ok hc] at hb
    exact .inr (.inr ⟨r, hb, rfl⟩)

/-! ## The write sets of R132 as lists of commands -/

theorem mem_freqWriters_iff (i : Instr) :
    i ∈ [Instr.compress, .decompress, .freqAnalyze] ↔ (shapeOf i).writes.freq = true := by
  cases i <;> decide

theorem mem_treeWriters_iff (i : Instr) :
    i ∈ [Instr.compress, .decompress, .treeBuild, .hdrParse] ↔ (shapeOf i).writes.tree = true := by
  cases i <;> decide

theorem mem_codeWriters_iff (i : Instr) :
    i ∈ [Instr.compress, .decompress, .codeDerive, .hdrParse] ↔ (shapeOf i).writes.code = true := by
  cases i <;> decide

end Sys2Proof.Machine

open Sys2Proof Sys2Proof.Machine

/-- Settles O9: a stalled engine has touched no table, an error completion has cleared the write set, and the updates of a success
write exactly the write set. -/
theorem errorsAndWriteSets : Obligations.ErrorsAndWriteSets := by
  intro i s t herr hdone h
  simp only [mem_freqWriters_iff, mem_treeWriters_iff, mem_codeWriters_iff, Bool.not_eq_true]
  rcases exec_next_cases h with ⟨a, rfl⟩ | ⟨e, g, rfl⟩ | ⟨r, hw, rfl⟩
  · have hu := tablesUpdated_stallAt s a
    exact ⟨fun _ => hu.sameFreq rfl, fun _ => hu.sameTree rfl, fun _ => hu.sameCode rfl,
      fun he => absurd he (by simp [herr]), fun hd => absurd hd (by simp [hdone])⟩
  · obtain ⟨hfreq, htree, hcode⟩ :=
      (tablesUpdated_completeError s (shapeOf i).writes e g).frame (WriteSet.writeSet_invalidate _)
    exact ⟨hfreq, htree, hcode, fun _ => ⟨rfl, freqCleared_completeError s e g, treeCleared_completeError s e g,
      codeCleared_completeError s e g⟩, fun hd => absurd hd (by simp [hdone])⟩
  · have hu := tablesUpdated_completeOk s (shapeOf i).dest r
    rw [← hw]
    exact ⟨hu.sameFreq, hu.sameTree, hu.sameCode, fun he => absurd he (by simp [herr]),
      fun _ => ⟨hu.freqValid_or_cleared, hu.treeValid_or_cleared, hu.codeValid_or_cleared⟩⟩

end

section
/-! PROOFS. Data errors and the overflow check of a command past its prechecks (R191). -/

namespace Sys2Proof.Machine

/-- A command past its prechecks completes with the error of its function or of the overflow check. -/
theorem runCommand_fails {sh : Shape} {s : State} {b : List Byte} {body : List Byte → Result} {e : ErrorKind} {g : Stage}
    (hpre : precheck sh s = none) (hb : sourceBytes sh s = .ok b) (h : checkOverflow sh s (body b) = .error (e, g)) :
    ∃ t, runCommand sh body s = .next t ∧ FailedFrom s t e g := by
  refine ⟨_, ?_, failedFrom_completeError s sh.writes e g⟩
  rw [runCommand_ready body hpre hb, h]
  rfl

theorem checkOverflow_eq_outputOverflow {sh : Shape} {s : State} {r : Success} (hdest : sh.dest = true)
    (h : s.dstCap.toNat < r.out.length) : checkOverflow sh s (.ok r) = .error (.outputOverflow, sh.overflowStage) := by
  simp [checkOverflow, hdest, h]

section
variable {sh : Shape} {s : State} {b : List Byte} {body : List Byte → Result} (hsrc : sh.source = true)
  (hpre : prereqHolds sh.prereq s = true) (h : s.ReadyWith b)
include hsrc hpre h

/-- A ready command whose output is longer than its destination fails with OutputOverflow at its stage (R190, R191). -/
theorem runCommand_overflows {r : Success} (hdest : sh.dest = true) (hr : body b = .ok r)
    (hlong : s.dstCap.toNat < r.out.length) :
    ∃ t, runCommand sh body s = .next t ∧ FailedFrom s t .outputOverflow sh.overflowStage := by
  have ⟨_, _, _, hholds⟩ := h
  refine runCommand_fails (precheck_eq_none_of_readyWith hpre h) (sourceBytes_of_sourceHolds hsrc hholds) ?_
  rw [hr, checkOverflow_eq_outputOverflow hdest hlong]

/-- A ready command reports a data error before the overflow check (R189, R191). -/
theorem runCommand_fails_of_dataError {e : ErrorKind} {g : Stage} (hr : body b = .error (e, g)) :
    ∃ t, runCommand sh body s = .next t ∧ FailedFrom s t e g := by
  have ⟨_, _, _, hholds⟩ := h
  refine runCommand_fails (precheck_eq_none_of_readyWith hpre h) (sourceBytes_of_sourceHolds hsrc hholds) ?_
  rw [hr, checkOverflow]

end

/-! ## The functions of the stage commands, on success -/

theorem rleDecodeResult_of_some {b out : List Byte} (h : rleDecode b = some out) :
    rleDecodeResult b = .ok ⟨out, b.length, Info.none, none, TableUpdates.none⟩ := by
  rw [rleDecodeResult, h]

theorem packResult_of_some {b p : List Byte} {bc : Nat} {c : CodeTable} (h : packBits b c = some (p, bc)) :
    packResult c b = .ok ⟨p, b.length, Info.none, some bc, TableUpdates.none⟩ := by
  rw [packResult, h]

theorem unpackResult_of_some {b out : List Byte} {bc : Nat} {t : Tree} (h : unpackBits b bc t = some out) :
    unpackResult bc t b = .ok ⟨out, ceilDiv bc 8, Info.none, none, TableUpdates.none⟩ := by
  rw [unpackResult, h]

/-- HDR_SERIALIZE with a valid code table passes its prechecks when its destination lies inside DMEM (R183, R185). -/
theorem precheck_hdrSerialize {s : State} (hdst : s.DstInside) (hvalid : s.codeValid = true) :
    precheck (shapeOf .hdrSerialize) s = none :=
  (precheck_none_iff _ s).2 ⟨nofun, fun _ => hdst, nofun, hvalid⟩

end Sys2Proof.Machine

open Sys2Proof Sys2Proof.Machine

/-- Settles O12: each command's function on the source bytes, then the overflow check, which lets a data error through. -/
theorem outputOverflowAtItsStage : Obligations.OutputOverflowAtItsStage := by
  refine ⟨fun s b h => ⟨?_, ?_, ?_, ?_, ?_, ?_, fun e g => ⟨?_, ?_, ?_, ?_⟩⟩, fun s hdst hvalid hlong => ?_⟩
  · exact fun hlong => runCommand_overflows (sh := shapeOf .rleEncode) rfl rfl h rfl rfl hlong
  · exact fun out hout hlong =>
      runCommand_overflows (sh := shapeOf .rleDecode) rfl rfl h rfl (rleDecodeResult_of_some hout) hlong
  · exact fun p bc hvalid hp hlong =>
      runCommand_overflows (sh := shapeOf .pack) rfl hvalid h rfl (packResult_of_some hp) hlong
  · exact fun out hvalid hout hlong =>
      runCommand_overflows (sh := shapeOf .unpack) rfl hvalid h rfl (unpackResult_of_some hout) hlong
  · exact fun r hr hlong => runCommand_overflows (sh := shapeOf .compress) rfl rfl h rfl hr hlong
  · exact fun r hr hlong => runCommand_overflows (sh := shapeOf .decompress) rfl rfl h rfl hr hlong
  · exact runCommand_fails_of_dataError (sh := shapeOf .rleDecode) rfl rfl h
  · exact fun hvalid => runCommand_fails_of_dataError (sh := shapeOf .pack) rfl hvalid h
  · exact fun hvalid => runCommand_fails_of_dataError (sh := shapeOf .unpack) rfl hvalid h
  · exact runCommand_fails_of_dataError (sh := shapeOf .decompress) rfl rfl h
  · exact runCommand_fails (sh := shapeOf .hdrSerialize) (body := fun _ => hdrSerializeResult s.code)
      (precheck_hdrSerialize hdst hvalid) rfl (checkOverflow_eq_outputOverflow rfl hlong)

end

section
/-! PROOFS. The host's write to CMD (R180, R181). -/

namespace Sys2Proof.Machine

theorem writeReg_cmd (s : State) (v : Word) : s.writeReg 0x10 v = s.writeCmd v := rfl

theorem writeCmd_of_idle {s : State} (v : Word) (h : s.busy = false) : s.writeCmd v = s.issue v := by
  simp [State.writeCmd, h]

theorem writeCmd_of_busy {s : State} (v : Word) (h : s.busy = true) : s.writeCmd v = { s with stOverrun := true } := by
  simp [State.writeCmd, h]

end Sys2Proof.Machine

open Sys2Proof Sys2Proof.Machine

/-- Settles O45: the write is the host's turn, and CMD issues or overruns by BUSY. -/
theorem cmdWriteIssuesOrOverruns : Obligations.CmdWriteIssuesOrOverruns := by
  refine fun s v rest hp => ⟨fun hidle => ?_, fun hbusy => ?_⟩
  · refine ⟨(s.hostStepped rest).issue v, ?_, rfl⟩
    rw [step_write_register (.inl hidle) (by decide) (by decide) hp, writeReg_cmd,
      writeCmd_of_idle (s := s.hostStepped rest) v hidle]
  · rw [step_write_register (.inr hbusy) (by decide) (by decide) hp, writeReg_cmd,
      writeCmd_of_busy (s := s.hostStepped rest) v hbusy.1]

end

section
/-! PROOFS. NOP (R192). -/

namespace Sys2Proof.Machine

/-- The success of a command without a destination: it stores nothing, and OUT_LEN is 0 (R186). -/
theorem succeededFrom_completeOk_noDest (s : State) (r : Success) :
    SucceededFrom s (s.completeOk false r) 0 (BitVec.ofNat 32 r.inUsed) r.info
      ((r.bitCount.map (BitVec.ofNat 32)).getD s.bitCount) := by
  constructor
  case bitCount => cases h : r.bitCount <;> simp [h]
  all_goals rfl

theorem precheck_nop (s : State) : precheck (shapeOf .nop) s = none :=
  (precheck_none_iff _ s).2 ⟨nofun, nofun, nofun, rfl⟩

/-- NOP succeeds in every state, with no output and no table touched. -/
theorem exec_nop (s : State) : exec .nop s = .next (s.completeOk false ⟨[], 0, Info.none, none, TableUpdates.none⟩) :=
  runCommand_ready (fun _ => nopResult) (precheck_nop s) rfl

end Sys2Proof.Machine

open Sys2Proof Sys2Proof.Machine

/-- Settles O14: one success without a destination and without updates. -/
theorem nopCompletes : Obligations.NopCompletes := by
  refine ⟨by decide, ⟨_, exec_nop _, by decide⟩, fun s => ⟨_, exec_nop s, succeededFrom_completeOk_noDest s _, rfl, ?_⟩⟩
  have hu := tablesUpdated_completeOk s false ⟨[], 0, Info.none, none, TableUpdates.none⟩
  exact ⟨hu.sameFreq rfl, hu.sameTree rfl, hu.sameCode rfl, sameOperands_completeOk s false _⟩

end

section
/-! PROOFS. Pairs: RLE decoding (R213). -/

namespace Sys2Proof.Machine

/-- The two bytes of a pair (R140). -/
def bytesOfPair (r : Byte × Byte) : List Byte := [r.1, r.2]

/-- What a pair stands for: its value, as often as its count says (R213). -/
def expandPair (r : Byte × Byte) : List Byte := List.replicate r.2.toNat r.1

theorem rleDecode_zeroCount (v : Byte) (rest : List Byte) : rleDecode (v :: 0 :: rest) = none := if_pos rfl

theorem rleDecode_pair {c : Byte} (h : c ≠ 0) (v : Byte) (rest : List Byte) :
    rleDecode (v :: c :: rest) = (rleDecode rest).map (expandPair (v, c) ++ ·) := if_neg h

/-- Decoding goes pair by pair, so it may be cut wherever a decodable beginning ends. -/
theorem rleDecode_append {p out : List Byte} (hp : rleDecode p = some out) (q : List Byte) :
    rleDecode (p ++ q) = (rleDecode q).map (out ++ ·) := by
  induction p using rleDecode.induct generalizing out with
  | case1 =>
    obtain rfl : [] = out := by simpa [rleDecode] using hp
    simp
  | case2 v => cases hp
  | case3 v rest => rw [rleDecode_zeroCount] at hp; cases hp
  | case4 v c rest hc ih =>
    rw [rleDecode_pair hc] at hp
    obtain ⟨tail, htail, rfl⟩ := Option.map_eq_some_iff.1 hp
    rw [List.cons_append, List.cons_append, rleDecode_pair hc, ih htail, Option.map_map]
    simp only [Function.comp_def, List.append_assoc]

/-- Blocks that decode one by one decode together, in order. -/
theorem rleDecode_flatMap {α : Type} {block expand : α → List Byte} {xs : List α}
    (h : ∀ x ∈ xs, rleDecode (block x) = some (expand x)) : rleDecode (xs.flatMap block) = some (xs.flatMap expand) := by
  induction xs with
  | nil => rfl
  | cons x xs ih =>
    obtain ⟨hx, hxs⟩ := List.forall_mem_cons.1 h
    rw [List.flatMap_cons, rleDecode_append hx, ih hxs]
    rfl

theorem rleDecode_bytesOfPair {r : Byte × Byte} (h : r.2 ≠ 0) : rleDecode (bytesOfPair r) = some (expandPair r) := by
  rw [bytesOfPair, rleDecode_pair h]
  simp [rleDecode]

theorem rleDecode_flatMap_bytesOfPair {pairs : List (Byte × Byte)} (h : ∀ r ∈ pairs, r.2 ≠ 0) :
    rleDecode (pairs.flatMap bytesOfPair) = some (pairs.flatMap expandPair) :=
  rleDecode_flatMap fun r hr => rleDecode_bytesOfPair (h r hr)

/-- What decodes is a list of pairs with nonzero counts, and decodes to their expansion. -/
theorem exists_pairs_of_rleDecode_eq_some {p out : List Byte} (h : rleDecode p = some out) :
    ∃ pairs : List (Byte × Byte), (∀ r ∈ pairs, r.2 ≠ 0) ∧ p = pairs.flatMap bytesOfPair ∧ out = pairs.flatMap expandPair := by
  induction p using rleDecode.induct generalizing out with
  | case1 => exact ⟨[], nofun, rfl, (Option.some.inj h).symm⟩
  | case2 v => cases h
  | case3 v rest => rw [rleDecode_zeroCount] at h; cases h
  | case4 v c rest hc ih =>
    rw [rleDecode_pair hc] at h
    obtain ⟨tail, htail, rfl⟩ := Option.map_eq_some_iff.1 h
    obtain ⟨pairs, hne, rfl, rfl⟩ := ih htail
    exact ⟨(v, c) :: pairs, List.forall_mem_cons.2 ⟨hc, hne⟩, rfl, rfl⟩

end Sys2Proof.Machine

open Sys2Proof Sys2Proof.Machine

/-- Settles O30: the pairs are read off a successful decoding, and a list of such pairs decodes block by block. -/
theorem rleDecodeExpandsPairs : Obligations.RleDecodeExpandsPairs := by
  refine fun p out => ⟨exists_pairs_of_rleDecode_eq_some, ?_⟩
  rintro ⟨pairs, hne, rfl, rfl⟩
  exact rleDecode_flatMap_bytesOfPair hne

end

section
/-! PROOFS. Maximal runs: RLE encoding (R210, R211), and decoding as its inverse (R214). -/

namespace Sys2Proof.Machine

/-- The bytes a run stands for (R210). -/
def expandRun (run : Byte × Nat) : List Byte := List.replicate run.2 run.1

/-! ## The maximal runs of a byte list -/

theorem maximalRuns_cons_of_eq {v w : Byte} {n : Nat} {bs : List Byte} {rest : List (Byte × Nat)}
    (h : maximalRuns bs = (w, n) :: rest) :
    maximalRuns (v :: bs) = if w = v then (v, n + 1) :: rest else (v, 1) :: maximalRuns bs := by
  simp only [maximalRuns, h]

/-- The runs, each written out again, are the byte list. -/
theorem flatMap_expandRun_maximalRuns (b : List Byte) : (maximalRuns b).flatMap expandRun = b := by
  induction b with
  | nil => rfl
  | cons v bs ih =>
    cases hruns : maximalRuns bs with
    | nil =>
      obtain rfl : [] = bs := by rwa [hruns] at ih
      rfl
    | cons run rest =>
      obtain ⟨w, n⟩ := run
      rw [maximalRuns_cons_of_eq hruns]
      split
      next h =>
        rw [hruns, h] at ih
        simpa [expandRun, List.replicate_succ] using ih
      next => simpa [expandRun] using ih

/-- The first run is one of the first byte. -/
theorem head?_maximalRuns (b : List Byte) : (maximalRuns b).head?.map Prod.fst = b.head? := by
  cases b with
  | nil => rfl
  | cons v bs =>
    cases hruns : maximalRuns bs with
    | nil => simp [maximalRuns, hruns]
    | cons run rest =>
      rw [maximalRuns_cons_of_eq (w := run.1) (n := run.2) hruns]
      split <;> rfl

/-- A byte that differs from the next one begins a run of its own. -/
theorem maximalRuns_cons_of_head?_ne {v : Byte} {bs : List Byte} (h : bs.head? ≠ some v) :
    maximalRuns (v :: bs) = (v, 1) :: maximalRuns bs := by
  cases hruns : maximalRuns bs with
  | nil => simp [maximalRuns, hruns]
  | cons run rest =>
    have hne : run.1 ≠ v := by
      rintro rfl
      exact h (by rw [← head?_maximalRuns, hruns]; rfl)
    rw [maximalRuns_cons_of_eq (w := run.1) (n := run.2) hruns, if_neg hne, hruns]

/-- Equal bytes that cannot be continued by the rest are one maximal run (R210). -/
theorem maximalRuns_replicate_append {v : Byte} {rest : List Byte} (h : rest.head? ≠ some v) (n : Nat) :
    maximalRuns (List.replicate (n + 1) v ++ rest) = (v, n + 1) :: maximalRuns rest := by
  induction n with
  | zero => exact maximalRuns_cons_of_head?_ne h
  | succ n ih =>
    rw [List.replicate_succ, List.cons_append, maximalRuns_cons_of_eq ih, if_pos rfl]

/-! ## The pairs of one run -/

/-- A pair whose count is in the range 1 to 255 of R211 decodes to that many bytes. -/
theorem rleDecode_count {n : Nat} (hpos : n ≠ 0) (hlt : n < 256) (v : Byte) :
    rleDecode [v, BitVec.ofNat 8 n] = some (List.replicate n v) := by
  have hcount : (BitVec.ofNat 8 n).toNat = n := Nat.mod_eq_of_lt hlt
  have hne : BitVec.ofNat 8 n ≠ 0 := fun hzero => hpos (by rw [← hcount, hzero]; rfl)
  calc rleDecode [v, BitVec.ofNat 8 n]
      = some (List.replicate (BitVec.ofNat 8 n).toNat v) := rleDecode_bytesOfPair (r := (v, BitVec.ofNat 8 n)) hne
    _ = some (List.replicate n v) := by rw [hcount]

/-- The pairs of a run decode to the run: the full pairs to the multiple of 255, the last one to the remainder (R214). -/
theorem rleDecode_runPairs (run : Byte × Nat) : rleDecode (runPairs run) = some (expandRun run) := by
  obtain ⟨v, n⟩ := run
  have hfull : rleDecode (List.replicate (n / rleMax) [v, BitVec.ofNat 8 rleMax]).flatten =
      some (List.replicate (n / rleMax * rleMax) v) := by
    have hblocks := rleDecode_flatMap (xs := List.replicate (n / rleMax) v)
      fun w _ => rleDecode_count (n := rleMax) (by decide) (by decide) w
    rwa [List.flatMap_replicate, List.flatMap_replicate, List.flatten_replicate_replicate] at hblocks
  have hrest : rleDecode (if n % rleMax = 0 then [] else [v, BitVec.ofNat 8 (n % rleMax)]) =
      some (List.replicate (n % rleMax) v) := by
    split
    next h => rw [h]; rfl
    next h => exact rleDecode_count h ((Nat.mod_lt n (by decide)).trans (by decide)) v
  rw [runPairs, rleDecode_append hfull, hrest, Option.map_some, ← List.replicate_add, Nat.div_add_mod', expandRun]

theorem length_runPairs (run : Byte × Nat) :
    (runPairs run).length = 2 * (run.2 / rleMax + if run.2 % rleMax = 0 then 0 else 1) := by
  unfold runPairs
  split <;> simp <;> omega

/-- A run of `n` bytes becomes at most `n` pairs. -/
theorem length_runPairs_le (run : Byte × Nat) : (runPairs run).length ≤ 2 * (expandRun run).length := by
  rw [length_runPairs, expandRun, List.length_replicate, rleMax]
  split <;> omega

/-! ## The encoding of a byte list -/

theorem two_dvd_length_rleEncode (b : List Byte) : 2 ∣ (rleEncode b).length := by
  rw [rleEncode, List.length_flatMap]
  refine List.dvd_sum fun x hx => ?_
  obtain ⟨run, -, rfl⟩ := List.mem_map.1 hx
  exact Dvd.intro _ (length_runPairs run).symm

theorem length_rleEncode_le (b : List Byte) : (rleEncode b).length ≤ 2 * b.length := by
  calc (rleEncode b).length
      = ((maximalRuns b).map fun run => (runPairs run).length).sum := List.length_flatMap
    _ ≤ ((maximalRuns b).map fun run => 2 * (expandRun run).length).sum :=
        List.sum_le_sum fun run _ => length_runPairs_le run
    _ = 2 * ((maximalRuns b).flatMap expandRun).length := by rw [List.sum_map_mul_left, List.length_flatMap]
    _ = 2 * b.length := by rw [flatMap_expandRun_maximalRuns]

end Sys2Proof.Machine

open Sys2Proof Sys2Proof.Machine

/-- Settles O29: a maximal run in front is the first of the runs, and the lengths are sums over the runs. -/
theorem rleEncodeSplitsLongRuns : Obligations.RleEncodeSplitsLongRuns := by
  refine ⟨rfl, rfl, fun b => ⟨Nat.mod_eq_zero_of_dvd (two_dvd_length_rleEncode b), length_rleEncode_le b⟩, ?_⟩
  intro v n rest hpos hne
  obtain ⟨k, rfl⟩ := Nat.exists_eq_add_one.2 hpos
  rw [rleEncode, rleSplit, maximalRuns_replicate_append hne]
  exact ⟨rfl, rfl⟩

/-- Settles O31: each run's pairs decode to the run, and the runs written out are the byte list. -/
theorem rleDecodeInvertsRleEncode : Obligations.RleDecodeInvertsRleEncode := by
  intro b
  have hruns := rleDecode_flatMap (xs := maximalRuns b) fun run _ => rleDecode_runPairs run
  rwa [flatMap_expandRun_maximalRuns] at hruns

end

section
/-! PROOFS. Code tables as lists of codes, and the binary tree that an arena unfolds to (10_state.md R67, R69). -/

namespace Sys2Proof.Machine

/-- A symbol with its code. -/
abbrev SymbolCode := Byte × Bits

/-- The table that holds the given codes and no others. -/
def tableOf (cs : List SymbolCode) : CodeTable := cs.foldl (fun c sc => c.put sc.1 sc.2) (Table.const [])

theorem tableOf_concat (cs : List SymbolCode) (sc : SymbolCode) : tableOf (cs ++ [sc]) = (tableOf cs).put sc.1 sc.2 := by
  simp [tableOf]

theorem get_tableOf_of_notMem {cs : List SymbolCode} {x : Byte} (h : x ∉ cs.map Prod.fst) : (tableOf cs).get x = [] := by
  induction cs using List.reverseRecOn with
  | nil => exact Table.get_const [] x
  | append_singleton cs sc ih =>
    rw [List.map_append, List.mem_append, not_or] at h
    obtain ⟨hcs, hsc⟩ := h
    rw [tableOf_concat, Table.get_put, if_neg (by simpa using hsc), ih hcs]

theorem get_tableOf_of_mem {cs : List SymbolCode} {x : Byte} {b : Bits} (hnodup : (cs.map Prod.fst).Nodup) (h : (x, b) ∈ cs) :
    (tableOf cs).get x = b := by
  induction cs using List.reverseRecOn with
  | nil => cases h
  | append_singleton cs sc ih =>
    rw [List.map_append, List.nodup_append] at hnodup
    obtain ⟨hcs, -, hdisjoint⟩ := hnodup
    rw [tableOf_concat, Table.get_put]
    rcases List.mem_append.1 h with hmem | hmem
    · have hne : x ≠ sc.1 := hdisjoint x (List.mem_map_of_mem hmem) sc.1 (by simp)
      rw [if_neg hne, ih hcs hmem]
    · obtain rfl : (x, b) = sc := List.mem_singleton.1 hmem
      exact if_pos rfl

theorem mem_codedSymbols (c : CodeTable) (x : Byte) : x ∈ codedSymbols c ↔ c.get x ≠ [] := by
  simp [codedSymbols, mem_allBytes]

/-- `S` of R263 is in ascending order. -/
theorem pairwise_lt_codedSymbols (c : CodeTable) : (codedSymbols c).Pairwise (fun x y => x.toNat < y.toNat) := by
  refine List.Pairwise.filter _ (List.pairwise_map.2 (List.pairwise_lt_range.imp_of_mem fun {i j} hi hj hlt => ?_))
  have hi := List.mem_range.1 hi
  have hj := List.mem_range.1 hj
  rwa [BitVec.toNat_ofNat, BitVec.toNat_ofNat, Nat.mod_eq_of_lt hi, Nat.mod_eq_of_lt hj]

theorem nodup_codedSymbols (c : CodeTable) : (codedSymbols c).Nodup :=
  (pairwise_lt_codedSymbols c).imp fun hlt heq => absurd (congrArg BitVec.toNat heq) (Nat.ne_of_lt hlt)

/-- The codes of a table, in ascending symbol order. -/
def codesOf (c : CodeTable) : List SymbolCode := (codedSymbols c).map fun x => (x, c.get x)

theorem map_fst_codesOf (c : CodeTable) : (codesOf c).map Prod.fst = codedSymbols c := by
  simp [codesOf, Function.comp_def]

theorem mem_codesOf (c : CodeTable) (x : Byte) (b : Bits) : (x, b) ∈ codesOf c ↔ c.get x = b ∧ b ≠ [] := by
  simp only [codesOf, List.mem_map, Prod.mk.injEq, mem_codedSymbols]
  constructor
  · rintro ⟨y, hy, rfl, rfl⟩
    exact ⟨rfl, hy⟩
  · rintro ⟨rfl, hb⟩
    exact ⟨x, hb, rfl, rfl⟩

/-- A code table is determined by its codes. -/
theorem tableOf_codesOf (c : CodeTable) : tableOf (codesOf c) = c := by
  refine Table.ext_get _ _ fun x => ?_
  by_cases h : c.get x = []
  · rw [h]
    exact get_tableOf_of_notMem (by rw [map_fst_codesOf, mem_codedSymbols]; exact not_not.2 h)
  · exact get_tableOf_of_mem (by rw [map_fst_codesOf]; exact nodup_codedSymbols c) ((mem_codesOf c x _).2 ⟨rfl, h⟩)

/-! ## Binary trees -/

/-- A full binary tree with a symbol at each leaf: what a valid arena stands for. -/
inductive CodeTree where
  | leaf (symbol : Byte)
  | node (left right : CodeTree)

namespace CodeTree

/-- The number of nodes, leaves and inner ones. -/
def size : CodeTree → Nat
  | leaf _ => 1
  | node l r => l.size + r.size + 1

/-- The symbols of the leaves with the paths to them, left to right (0 left, 1 right). -/
def paths : CodeTree → List SymbolCode
  | leaf x => [(x, [])]
  | node l r => l.paths.map (fun sc => (sc.1, false :: sc.2)) ++ r.paths.map (fun sc => (sc.1, true :: sc.2))

/-- The symbols of the leaves, left to right. -/
def symbols : CodeTree → List Byte
  | leaf x => [x]
  | node l r => l.symbols ++ r.symbols

theorem map_fst_paths (T : CodeTree) : T.paths.map Prod.fst = T.symbols := by
  induction T with
  | leaf x => rfl
  | node l r ihl ihr => simp [paths, symbols, ← ihl, ← ihr, Function.comp_def]

theorem size_add_one (T : CodeTree) : T.size + 1 = 2 * T.symbols.length := by
  induction T with
  | leaf x => rfl
  | node l r ihl ihr =>
    rw [size, symbols, List.length_append]
    omega

theorem symbols_length_pos (T : CodeTree) : 0 < T.symbols.length := by
  have := T.size_add_one
  omega

theorem exists_mem_paths (T : CodeTree) : ∃ sc, sc ∈ T.paths := by
  refine List.exists_mem_of_length_pos ?_
  rw [← List.length_map Prod.fst, map_fst_paths]
  exact T.symbols_length_pos

/-- The paths of an inner node go through its left or its right child. -/
theorem mem_paths_node {l r : CodeTree} {x : Byte} {b : Bits} :
    (x, b) ∈ (node l r).paths ↔ ∃ bit b', b = bit :: b' ∧ (x, b') ∈ (if bit then r else l).paths := by
  simp only [paths, List.mem_append, List.mem_map, Prod.exists, Prod.mk.injEq]
  constructor
  · rintro (⟨_, b', h, rfl, rfl⟩ | ⟨_, b', h, rfl, rfl⟩)
    · exact ⟨false, b', rfl, h⟩
    · exact ⟨true, b', rfl, h⟩
  · rintro ⟨bit, b', rfl, h⟩
    cases bit
    · exact .inl ⟨x, b', h, rfl, rfl⟩
    · exact .inr ⟨x, b', h, rfl, rfl⟩

theorem ne_nil_of_mem_paths_node {l r : CodeTree} {x : Byte} {b : Bits} (h : (x, b) ∈ (node l r).paths) : b ≠ [] := by
  obtain ⟨bit, b', rfl, -⟩ := mem_paths_node.1 h
  exact List.cons_ne_nil bit b'

/-- Each step of a path leaves at least one leaf aside. -/
theorem length_lt_of_mem_paths {T : CodeTree} {x : Byte} {b : Bits} (h : (x, b) ∈ T.paths) : b.length < T.symbols.length := by
  induction T generalizing b with
  | leaf y =>
    obtain ⟨-, rfl⟩ := Prod.mk.inj (List.mem_singleton.1 h)
    exact Nat.one_pos
  | node l r ihl ihr =>
    obtain ⟨bit, b', rfl, hsub⟩ := mem_paths_node.1 h
    have hl := l.symbols_length_pos
    have hr := r.symbols_length_pos
    rw [symbols, List.length_append, List.length_cons]
    cases bit with
    | false => have := ihl hsub; omega
    | true => have := ihr hsub; omega

/-- A path that begins another one is that path: it ends at a leaf. -/
theorem eq_of_prefix_of_mem_paths {T : CodeTree} {x y : Byte} {b d : Bits} (hx : (x, b) ∈ T.paths) (hy : (y, d) ∈ T.paths)
    (h : b <+: d) : x = y ∧ b = d := by
  induction T generalizing b d with
  | leaf z =>
    obtain ⟨rfl, rfl⟩ := Prod.mk.inj (List.mem_singleton.1 hx)
    obtain ⟨rfl, rfl⟩ := Prod.mk.inj (List.mem_singleton.1 hy)
    exact ⟨rfl, rfl⟩
  | node l r ihl ihr =>
    obtain ⟨bit, b', rfl, hxs⟩ := mem_paths_node.1 hx
    obtain ⟨bit', d', rfl, hys⟩ := mem_paths_node.1 hy
    obtain ⟨rfl, hsub⟩ := List.cons_prefix_cons.1 h
    have heq : x = y ∧ b' = d' := by
      cases bit with
      | false => exact ihl hxs hys hsub
      | true => exact ihr hxs hys hsub
    exact ⟨heq.1, congrArg (bit :: ·) heq.2⟩

/-- The Kraft sum of a full binary tree, scaled by `2 ^ d` for a depth `d` that no path exceeds, is `2 ^ d` (R262). -/
theorem kraft_sum {T : CodeTree} {d : Nat} (h : ∀ x b, (x, b) ∈ T.paths → b.length ≤ d) :
    (T.paths.map fun sc => 2 ^ (d - sc.2.length)).sum = 2 ^ d := by
  induction T generalizing d with
  | leaf x => simp [paths]
  | node l r ihl ihr =>
    have hsub (bit : Bool) (x : Byte) (b : Bits) (hb : (x, b) ∈ (if bit then r else l).paths) : b.length + 1 ≤ d :=
      h x (bit :: b) (mem_paths_node.2 ⟨bit, b, rfl, hb⟩)
    obtain ⟨⟨x, b⟩, hb⟩ := l.exists_mem_paths
    obtain ⟨e, rfl⟩ : ∃ e, d = e + 1 := ⟨d - 1, by have := hsub false x b hb; omega⟩
    have hl := ihl fun x b hb => Nat.le_of_succ_le_succ (hsub false x b hb)
    have hr := ihr fun x b hb => Nat.le_of_succ_le_succ (hsub true x b hb)
    calc ((node l r).paths.map fun sc => 2 ^ (e + 1 - sc.2.length)).sum
        = (l.paths.map fun sc => 2 ^ (e - sc.2.length)).sum + (r.paths.map fun sc => 2 ^ (e - sc.2.length)).sum := by
          simp [paths, Function.comp_def]
      _ = 2 ^ (e + 1) := by rw [hl, hr, Nat.pow_succ]; omega

end CodeTree

/-! ## The tree of an arena -/

/-- From node `n` down, the arena is the tree `T`. -/
inductive Unfolds (nodes : List Node) : Nat → CodeTree → Prop where
  | leaf {n : Nat} {x : Byte} {f : Word} (h : nodes[n]? = some (.leaf x f)) : Unfolds nodes n (.leaf x)
  | node {n : Nat} {l r : BitVec 9} {f : Word} {L R : CodeTree} (h : nodes[n]? = some (.internal l r f))
      (hl : Unfolds nodes l.toNat L) (hr : Unfolds nodes r.toNat R) : Unfolds nodes n (.node L R)

/-- The symbol of a leaf. -/
def Node.symbol? : Node → Option Byte
  | .leaf x _ => some x
  | .internal _ _ _ => none

theorem leafSymbols_eq_filterMap_range (nodes : List Node) :
    leafSymbols nodes = (List.range nodes.length).filterMap fun n => nodes[n]?.bind Node.symbol? := by
  have hnodes : nodes.map some = (List.range nodes.length).map (nodes[·]?) := by
    refine List.ext_getElem? fun n => ?_
    by_cases hn : n < nodes.length <;> simp [hn]
  calc leafSymbols nodes = (nodes.map some).filterMap (·.bind Node.symbol?) := by
        rw [List.filterMap_map]; rfl
    _ = (List.range nodes.length).filterMap fun n => nodes[n]?.bind Node.symbol? := by
        rw [hnodes, List.filterMap_map]; rfl

/-- The nodes met from `n` down either are those of a tree, or some path from `n` is longer than the bound. -/
theorem unfolds_or_le_length_subtreeNodes {nodes : List Node} {fuel n : Nat}
    (h : ∀ m ∈ subtreeNodes nodes fuel n, m < nodes.length) :
    (∃ T, Unfolds nodes n T ∧ T.size = (subtreeNodes nodes fuel n).length ∧
      T.symbols = (subtreeNodes nodes fuel n).filterMap fun m => nodes[m]?.bind Node.symbol?) ∨
    fuel ≤ (subtreeNodes nodes fuel n).length := by
  induction fuel generalizing n with
  | zero => exact .inr (Nat.zero_le _)
  | succ fuel ih =>
    unfold subtreeNodes at h ⊢
    split at h
    next l r f hn =>
      obtain ⟨hroot, hsub⟩ := List.forall_mem_cons.1 h
      obtain ⟨hl, hr⟩ := List.forall_mem_append.1 hsub
      rw [List.length_cons, List.length_append]
      rcases ih hl with ⟨L, hL, hLsize, hLsyms⟩ | hlong
      · rcases ih hr with ⟨R, hR, hRsize, hRsyms⟩ | hlong
        · refine .inl ⟨.node L R, .node hn hL hR, by rw [CodeTree.size, hLsize, hRsize], ?_⟩
          simp [CodeTree.symbols, hLsyms, hRsyms, hn, Node.symbol?]
        · exact .inr (by omega)
      · exact .inr (by omega)
    next x f hn => exact .inl ⟨.leaf x, .leaf hn, rfl, by simp [CodeTree.symbols, hn, Node.symbol?]⟩
    next hn => exact absurd (h n List.mem_cons_self) (by simpa using hn)

/-- A valid tree is a binary tree with an inner node as root, and its leaves are those of the arena (R67). -/
theorem exists_unfolds_of_wf {t : Tree} (h : t.wf) : ∃ L R, Unfolds t.nodes t.root.toNat (.node L R) ∧
    (CodeTree.node L R).size = t.nodes.length ∧ (CodeTree.node L R).symbols.Perm (leafSymbols t.nodes) := by
  obtain ⟨hperm, hroot, -, -, -⟩ := h
  have hlen := hperm.length_eq
  rw [List.length_range] at hlen
  rcases unfolds_or_le_length_subtreeNodes fun m hm => List.mem_range.1 (hperm.mem_iff.1 hm) with ⟨T, hT, hsize, hsyms⟩ | hlong
  · cases hT with
    | leaf hleaf => simp [isInternal, hleaf] at hroot
    | node hn hL hR =>
      refine ⟨_, _, .node hn hL hR, hsize.trans hlen, ?_⟩
      rw [hsyms, leafSymbols_eq_filterMap_range]
      exact hperm.filterMap _
  · omega

/-- A path of the tree leads to a leaf of its symbol. -/
theorem Unfolds.followCode_eq_leaf {nodes : List Node} {n : Nat} {T : CodeTree} (h : Unfolds nodes n T) {x : Byte} {b : Bits}
    (hb : (x, b) ∈ T.paths) : ∃ f, followCode nodes b n = some (.leaf x f) := by
  induction h generalizing b with
  | leaf hn =>
    obtain ⟨rfl, rfl⟩ := Prod.mk.inj (List.mem_singleton.1 hb)
    exact ⟨_, hn⟩
  | node hn _ _ ihl ihr =>
    obtain ⟨bit, b', rfl, hsub⟩ := CodeTree.mem_paths_node.1 hb
    simp only [followCode, hn]
    cases bit with
    | false => exact ihl hsub
    | true => exact ihr hsub

/-! ## Derivation -/

theorem deriveLoop_nil (nodes : List Node) (fuel : Nat) (c : CodeTable) : deriveLoop nodes fuel [] c = c := by
  cases fuel <;> rfl

/-- Traversing a subtree adds its paths to the table, each below the path to the subtree (R260). -/
theorem deriveLoop_of_unfolds {nodes : List Node} {n : Nat} {T : CodeTree} (h : Unfolds nodes n T) (fuel : Nat) (path : Bits)
    (stack : List (Nat × Bits)) (cs : List SymbolCode) :
    deriveLoop nodes (fuel + T.size) ((n, path) :: stack) (tableOf cs) =
      deriveLoop nodes fuel stack (tableOf (cs ++ T.paths.map fun sc => (sc.1, path ++ sc.2))) := by
  induction h generalizing fuel path stack cs with
  | leaf hn => simp [CodeTree.size, CodeTree.paths, deriveLoop, hn, tableOf_concat]
  | @node n l r f L R hn _ _ ihl ihr =>
    rw [CodeTree.size, show fuel + (L.size + R.size + 1) = (fuel + R.size + L.size) + 1 by omega]
    simp only [deriveLoop, hn]
    rw [ihl, ihr]
    simp [CodeTree.paths, Function.comp_def]

theorem deriveCodes_eq_tableOf {t : Tree} {T : CodeTree} (h : Unfolds t.nodes t.root.toNat T) (hsize : T.size ≤ t.nodes.length) :
    deriveCodes t = tableOf T.paths := by
  obtain ⟨fuel, hfuel⟩ := Nat.exists_eq_add_of_le' hsize
  have hloop := deriveLoop_of_unfolds h fuel [] [] []
  rw [← hfuel, deriveLoop_nil] at hloop
  calc deriveCodes t = tableOf ([] ++ T.paths.map fun sc => (sc.1, [] ++ sc.2)) := hloop
    _ = tableOf T.paths := by simp

/-- A table whose codes are the paths to the leaves of a full binary tree that is no leaf alone, each leaf with a symbol of its own. -/
structure CodesFrom (T : CodeTree) (c : CodeTable) : Prop where
  nodup : T.symbols.Nodup
  few : T.symbols.length ≤ 256
  ne_nil : ∀ x b, (x, b) ∈ T.paths → b ≠ []
  table : c = tableOf T.paths

theorem codesFrom_deriveCodes {t : Tree} (h : t.wf) : ∃ T, Unfolds t.nodes t.root.toNat T ∧ T.symbols.Perm (leafSymbols t.nodes) ∧
    CodesFrom T (deriveCodes t) := by
  obtain ⟨L, R, hT, hsize, hperm⟩ := exists_unfolds_of_wf h
  obtain ⟨-, -, -, hnodup, -, -, hmax⟩ := h
  exact ⟨_, hT, hperm, hperm.nodup_iff.2 hnodup, hperm.length_eq.trans_le hmax,
    fun x b => CodeTree.ne_nil_of_mem_paths_node, deriveCodes_eq_tableOf hT hsize.le⟩

namespace CodesFrom

variable {T : CodeTree} {c : CodeTable} (h : CodesFrom T c)
include h

/-- The codes of the table are the paths of the tree. -/
theorem mem_paths_iff (x : Byte) (b : Bits) : (x, b) ∈ T.paths ↔ c.get x = b ∧ b ≠ [] := by
  obtain ⟨hnodup, -, hne, rfl⟩ := h
  rw [← T.map_fst_paths] at hnodup
  refine ⟨fun hb => ⟨get_tableOf_of_mem hnodup hb, hne x b hb⟩, ?_⟩
  rintro ⟨rfl, hb⟩
  have hx : x ∈ T.paths.map Prod.fst := by
    by_contra hx
    exact hb (get_tableOf_of_notMem hx)
  obtain ⟨⟨y, d⟩, hd, rfl⟩ := List.mem_map.1 hx
  rwa [get_tableOf_of_mem hnodup hd]

theorem mem_symbols_iff (x : Byte) : x ∈ T.symbols ↔ c.get x ≠ [] := by
  rw [← T.map_fst_paths, List.mem_map]
  constructor
  · rintro ⟨⟨y, b⟩, hb, rfl⟩
    obtain ⟨rfl, hne⟩ := (h.mem_paths_iff y b).1 hb
    exact hne
  · exact fun hx => ⟨(x, c.get x), (h.mem_paths_iff x _).2 ⟨rfl, hx⟩, rfl⟩

theorem perm_codedSymbols : (codedSymbols c).Perm T.symbols :=
  (List.perm_ext_iff_of_nodup (nodup_codedSymbols c) h.nodup).2 fun x => by rw [mem_codedSymbols, h.mem_symbols_iff]

/-- A code has at most 255 bits (R260). -/
theorem length_get_le (x : Byte) : (c.get x).length ≤ 255 := by
  by_cases hx : c.get x = []
  · simp [hx]
  · have := CodeTree.length_lt_of_mem_paths ((h.mem_paths_iff x _).2 ⟨rfl, hx⟩)
    have := h.few
    omega

theorem two_le_length_codedSymbols : 2 ≤ (codedSymbols c).length := by
  rw [h.perm_codedSymbols.length_eq]
  cases hT : T with
  | leaf x => exact absurd rfl (h.ne_nil x [] (hT ▸ List.mem_singleton.2 rfl))
  | node l r =>
    have := l.symbols_length_pos
    have := r.symbols_length_pos
    rw [CodeTree.symbols, List.length_append]
    omega

theorem prefixFree : c.prefixFree := by
  intro x y hxy hx hprefix
  have hy : c.get y ≠ [] := fun hy => hx (List.prefix_nil.1 (hy ▸ hprefix))
  exact hxy (CodeTree.eq_of_prefix_of_mem_paths ((h.mem_paths_iff x _).2 ⟨rfl, hx⟩) ((h.mem_paths_iff y _).2 ⟨rfl, hy⟩) hprefix).1

/-- The sum over the coded symbols is the Kraft sum of the tree. -/
theorem complete : c.complete := by
  have hlen (x : Byte) (b : Bits) (hb : (x, b) ∈ T.paths) : b.length ≤ 255 := by
    obtain ⟨rfl, -⟩ := (h.mem_paths_iff x b).1 hb
    exact h.length_get_le x
  have hweights : T.symbols.map (fun x => 2 ^ (255 - (c.get x).length)) = T.paths.map fun sc => 2 ^ (255 - sc.2.length) := by
    rw [← T.map_fst_paths, List.map_map]
    refine List.map_congr_left fun ⟨x, b⟩ hb => ?_
    obtain ⟨rfl, -⟩ := (h.mem_paths_iff x b).1 hb
    rfl
  refine ⟨h.length_get_le, ?_⟩
  rw [(h.perm_codedSymbols.map _).sum_eq, hweights, CodeTree.kraft_sum hlen]

end CodesFrom

end Sys2Proof.Machine

open Sys2Proof Sys2Proof.Machine

/-- Settles O33: the derived codes are the paths of the tree that the arena unfolds to. -/
theorem derivedCodesAreLeafPaths : Obligations.DerivedCodesAreLeafPaths := by
  intro t ht
  obtain ⟨T, hT, hperm, hcodes⟩ := codesFrom_deriveCodes ht
  have hiff (x : Byte) : x ∈ leafSymbols t.nodes ↔ (deriveCodes t).get x ≠ [] := by
    rw [← hperm.mem_iff, hcodes.mem_symbols_iff]
  refine ⟨fun x hx => ?_, fun x hx => not_not.1 ((hiff x).not.1 hx)⟩
  have hne := (hiff x).1 hx
  exact ⟨List.length_pos_iff.2 hne, hcodes.length_get_le x, hT.followCode_eq_leaf ((hcodes.mem_paths_iff x _).2 ⟨rfl, hne⟩)⟩

/-- Settles O34: the paths of a full binary tree do not begin one another, and their Kraft sum is 1. -/
theorem derivedCodesArePrefixFreeAndComplete : Obligations.DerivedCodesArePrefixFreeAndComplete := by
  intro t ht
  obtain ⟨T, -, -, hcodes⟩ := codesFrom_deriveCodes ht
  exact ⟨hcodes.prefixFree, hcodes.complete, hcodes.two_le_length_codedSymbols⟩

end

section
/-! PROOFS. The arena that `parse_header` builds, as a function of the codes read so far (44_code_table_rom.md R270). -/

namespace Sys2Proof.Machine

/-! ## Bit strings that begin one another -/

/-- What lies on the way from `p` through `bit` is `p` itself or lies below its child. -/
theorem eq_or_child_prefix {p q bits : Bits} {bit : Bool} (hp : p <+: q) (hq : q <+: p ++ bit :: bits) :
    q = p ∨ p ++ [bit] <+: q := by
  obtain ⟨r, rfl⟩ := hp
  rw [List.prefix_append_right_inj] at hq
  cases r with
  | nil => exact .inl (List.append_nil p)
  | cons b r =>
    obtain ⟨rfl, -⟩ := List.cons_prefix_cons.1 hq
    exact .inr ⟨r, by simp⟩

theorem not_child_prefix_self (p : Bits) (bit : Bool) : ¬ p ++ [bit] <+: p := fun h => by
  simpa using h.length_le

theorem child_ne_self (p : Bits) (bit : Bool) : p ++ [bit] ≠ p := by simp

/-! ## The arena of numbered nodes -/

/-- The place of a node in the creation order `L`, each node being named by the path to it. -/
def indexOf? (L : List Bits) (q : Bits) : Option Nat := if q ∈ L then some (L.idxOf q) else none

/-- The slot of node `p`: a leaf where a code ends, else a branch to those of its children that are numbered. -/
def slotOf (L : List Bits) (cs : List SymbolCode) (p : Bits) : Slot :=
  match cs.find? (fun sc => sc.2 == p) with
  | some sc => .leaf sc.1
  | none => .branch (indexOf? L (p ++ [false])) (indexOf? L (p ++ [true]))

/-- The arena of the codes `cs` whose nodes were created in the order `L`. -/
def arenaOf (L : List Bits) (cs : List SymbolCode) : List Slot := L.map (slotOf L cs)

/-- The creation order after the walk of `bits` from node `p`: the missing nodes are added on the way. -/
def grow (L : List Bits) (p : Bits) : Bits → List Bits
  | [] => L
  | bit :: bits => grow (if p ++ [bit] ∈ L then L else L ++ [p ++ [bit]]) (p ++ [bit]) bits

/-- The creation order of the nodes that the codes span, from the root alone (R270). -/
def numbering (cs : List SymbolCode) : List Bits := cs.foldl (fun L sc => grow L [] sc.2) [[]]

theorem numbering_concat (cs : List SymbolCode) (sc : SymbolCode) : numbering (cs ++ [sc]) = grow (numbering cs) [] sc.2 := by
  simp [numbering]

theorem indexOf?_concat {L : List Bits} {q : Bits} (h : q ∉ L) (r : Bits) :
    indexOf? (L ++ [q]) r = if r = q then some L.length else indexOf? L r := by
  by_cases hr : r = q
  · subst hr
    simp [indexOf?, List.idxOf_append_of_notMem h]
  · by_cases hL : r ∈ L <;> simp [indexOf?, hr, hL, List.idxOf_append_of_mem]

theorem childOf_indexOf? (L : List Bits) (p : Bits) (bit : Bool) :
    childOf bit (indexOf? L (p ++ [false])) (indexOf? L (p ++ [true])) = indexOf? L (p ++ [bit]) := by
  cases bit <;> rfl

theorem slotOf_of_uncoded {cs : List SymbolCode} {p : Bits} (h : ∀ sc ∈ cs, sc.2 ≠ p) (L : List Bits) :
    slotOf L cs p = .branch (indexOf? L (p ++ [false])) (indexOf? L (p ++ [true])) := by
  have hnone : cs.find? (fun sc => sc.2 == p) = none := by simpa [List.find?_eq_none] using h
  rw [slotOf, hnone]

theorem exists_slotOf_eq_leaf {cs : List SymbolCode} {sc : SymbolCode} (h : sc ∈ cs) (L : List Bits) :
    ∃ sd ∈ cs, sd.2 = sc.2 ∧ slotOf L cs sc.2 = .leaf sd.1 := by
  have hsome : (cs.find? fun sd => sd.2 == sc.2).isSome := List.find?_isSome.2 ⟨sc, h, beq_self_eq_true sc.2⟩
  obtain ⟨sd, hsd⟩ := Option.isSome_iff_exists.1 hsome
  exact ⟨sd, List.mem_of_find?_eq_some hsd, by simpa using List.find?_some hsd, by rw [slotOf, hsd]⟩

theorem length_arenaOf (L : List Bits) (cs : List SymbolCode) : (arenaOf L cs).length = L.length := List.length_map _

theorem getElem?_arenaOf {L : List Bits} {p : Bits} (h : p ∈ L) (cs : List SymbolCode) :
    (arenaOf L cs)[L.idxOf p]? = some (slotOf L cs p) := by
  rw [arenaOf, List.getElem?_map, List.getElem?_idxOf h, Option.map_some]

/-- Replacing the value at one element of a list without repetition. -/
theorem set_map_idxOf {α : Type} {L : List Bits} {p : Bits} {f g : Bits → α} (hnodup : L.Nodup)
    (h : ∀ r ∈ L, r ≠ p → f r = g r) : (L.map g).set (L.idxOf p) (f p) = L.map f := by
  refine List.ext_getElem (by simp) fun i hi hi' => ?_
  rw [List.getElem_set, List.getElem_map, List.getElem_map]
  have hi : i < L.length := by simpa using hi'
  split
  next heq =>
    subst heq
    rw [List.getElem_idxOf]
  next hne =>
    refine (h L[i] (List.getElem_mem hi) fun heq => hne ?_).symm
    rw [← heq, hnodup.idxOf_getElem i hi]

/-- The nodes of `L` are the first `L.length` ones created: each after its parent, and every code ends at one of them. -/
structure Numbers (L : List Bits) (cs : List SymbolCode) : Prop where
  nodup : L.Nodup
  closed : ∀ p bit, p ++ [bit] ∈ L → p ∈ L
  coded : ∀ sc ∈ cs, sc.2 ∈ L

namespace Numbers

variable {L : List Bits} {cs : List SymbolCode} {p : Bits} {bit : Bool}

theorem concat (h : Numbers L cs) (hp : p ∈ L) (hnew : p ++ [bit] ∉ L) : Numbers (L ++ [p ++ [bit]]) cs where
  nodup := List.concat_eq_append ▸ h.nodup.concat hnew
  closed := fun q b hq => by
    rcases List.mem_append.1 hq with hq | hq
    · exact List.mem_append_left _ (h.closed q b hq)
    · obtain ⟨rfl, -⟩ := List.append_inj' (List.mem_singleton.1 hq) rfl
      exact List.mem_append_left _ hp
  coded := fun sc hsc => List.mem_append_left _ (h.coded sc hsc)

/-- Creating a child of an open branch is one more node in the creation order. -/
theorem arenaOf_concat (h : Numbers L cs) (hnew : p ++ [bit] ∉ L) (hopen : ∀ sc ∈ cs, sc.2 ≠ p) :
    (arenaOf L cs).set (L.idxOf p) (withChild bit (indexOf? L (p ++ [false])) (indexOf? L (p ++ [true])) L.length) ++
      [.branch none none] = arenaOf (L ++ [p ++ [bit]]) cs := by
  have hchild (r : Bits) (b : Bool) (hr : r ≠ p) : indexOf? (L ++ [p ++ [bit]]) (r ++ [b]) = indexOf? L (r ++ [b]) := by
    rw [indexOf?_concat hnew, if_neg fun heq : r ++ [b] = p ++ [bit] => hr (List.append_inj' heq rfl).1]
  have hrest : ∀ r ∈ L, r ≠ p → slotOf (L ++ [p ++ [bit]]) cs r = slotOf L cs r := fun r _ hr => by
    rw [slotOf, slotOf, hchild r false hr, hchild r true hr]
  have hparent : withChild bit (indexOf? L (p ++ [false])) (indexOf? L (p ++ [true])) L.length =
      slotOf (L ++ [p ++ [bit]]) cs p := by
    rw [slotOf_of_uncoded hopen, indexOf?_concat hnew, indexOf?_concat hnew]
    cases bit <;> simp [withChild]
  have hfresh : slotOf (L ++ [p ++ [bit]]) cs (p ++ [bit]) = .branch none none := by
    have hnone (b : Bool) : indexOf? L (p ++ [bit] ++ [b]) = none := if_neg fun hmem => hnew (h.closed _ b hmem)
    have hne := child_ne_self p bit
    have huncoded : ∀ sc ∈ cs, sc.2 ≠ p ++ [bit] := fun sc hsc heq => hnew (heq ▸ h.coded sc hsc)
    rw [slotOf_of_uncoded huncoded, hchild _ _ hne, hchild _ _ hne, hnone, hnone]
  rw [hparent, arenaOf, set_map_idxOf h.nodup hrest, ← hfresh, arenaOf, List.map_append, List.map_singleton]

end Numbers

/-! ## Growth of the numbering -/

theorem prefix_grow (L : List Bits) (p bits : Bits) : L <+: grow L p bits := by
  induction bits generalizing L p with
  | nil => exact List.prefix_rfl
  | cons bit bits ih =>
    refine List.IsPrefix.trans ?_ (ih _ _)
    split
    · exact List.prefix_rfl
    · exact List.prefix_append _ _

theorem nodup_grow {L : List Bits} (h : L.Nodup) (p bits : Bits) : (grow L p bits).Nodup := by
  induction bits generalizing L p with
  | nil => exact h
  | cons bit bits ih =>
    rw [grow]
    split
    next => exact ih h _
    next hnew => exact ih (List.concat_eq_append ▸ h.concat hnew) _

/-- The walk adds exactly the nodes on its way. -/
theorem mem_grow {L : List Bits} {p : Bits} (hp : p ∈ L) (bits q : Bits) :
    q ∈ grow L p bits ↔ q ∈ L ∨ p <+: q ∧ q <+: p ++ bits := by
  induction bits generalizing L p with
  | nil =>
    rw [grow, List.append_nil]
    refine ⟨.inl, fun h => h.elim id fun ⟨hpq, hqp⟩ => ?_⟩
    rwa [← hpq.eq_of_length_le hqp.length_le]
  | cons bit bits ih =>
    have hway : p <+: q ∧ q <+: p ++ bit :: bits ↔ q = p ∨ p ++ [bit] <+: q ∧ q <+: p ++ bit :: bits := by
      refine ⟨fun ⟨hpq, hq⟩ => (eq_or_child_prefix hpq hq).imp_right (⟨·, hq⟩), ?_⟩
      rintro (rfl | ⟨hpq, hq⟩)
      · exact ⟨List.prefix_rfl, List.prefix_append _ _⟩
      · exact ⟨(List.prefix_append _ _).trans hpq, hq⟩
    have hself : q = p → q ∈ L := fun h => h ▸ hp
    have hchild : q = p ++ [bit] → p ++ [bit] <+: q ∧ q <+: p ++ bit :: bits := by
      rintro rfl
      exact ⟨List.prefix_rfl, bits, by simp⟩
    rw [grow, hway]
    split
    next hq =>
      rw [ih hq, List.append_assoc, List.singleton_append]
      tauto
    next hq =>
      rw [ih (by simp), List.mem_append, List.mem_singleton, List.append_assoc, List.singleton_append]
      tauto

/-- The root is created first. -/
theorem singleton_nil_prefix_numbering (cs : List SymbolCode) : [[]] <+: numbering cs := by
  induction cs using List.reverseRecOn with
  | nil => exact List.prefix_rfl
  | append_singleton cs sc ih =>
    rw [numbering_concat]
    exact ih.trans (prefix_grow _ _ _)

theorem nil_mem_numbering (cs : List SymbolCode) : [] ∈ numbering cs := (singleton_nil_prefix_numbering cs).subset List.mem_cons_self

theorem idxOf_nil_numbering (cs : List SymbolCode) : (numbering cs).idxOf [] = 0 := by
  obtain ⟨L, hL⟩ := singleton_nil_prefix_numbering cs
  rw [← hL]
  rfl

/-- The numbered nodes are the root and those on the way to a code's end. -/
theorem mem_numbering (cs : List SymbolCode) (q : Bits) : q ∈ numbering cs ↔ q = [] ∨ ∃ sc ∈ cs, q <+: sc.2 := by
  induction cs using List.reverseRecOn with
  | nil => simp [numbering]
  | append_singleton cs sc ih =>
    rw [numbering_concat, mem_grow (nil_mem_numbering cs), ih]
    simp [or_assoc, or_and_right, exists_or]

theorem nodup_numbering (cs : List SymbolCode) : (numbering cs).Nodup := by
  induction cs using List.reverseRecOn with
  | nil => exact List.nodup_singleton _
  | append_singleton cs sc ih =>
    rw [numbering_concat]
    exact nodup_grow ih _ _

theorem numbers_numbering (cs : List SymbolCode) : Numbers (numbering cs) cs where
  nodup := nodup_numbering cs
  closed := fun p bit h => by
    rw [mem_numbering] at h ⊢
    rcases h with h | ⟨sc, hsc, h⟩
    · simp at h
    · exact .inr ⟨sc, hsc, (List.prefix_append _ _).trans h⟩
  coded := fun sc hsc => (mem_numbering cs sc.2).2 (.inr ⟨sc, hsc, List.prefix_rfl⟩)

/-! ## The walk of a code -/

/-- No code ends on the way from `p` along `bits`, but perhaps at its end (check H3 of R270). -/
abbrev WayOpen (cs : List SymbolCode) (p bits : Bits) : Prop :=
  ∀ sc ∈ cs, p <+: sc.2 → sc.2 <+: p ++ bits → sc.2 = p ++ bits

theorem wayOpen_nil (cs : List SymbolCode) (p : Bits) : WayOpen cs p [] := fun sc _ hp hsc => by
  rw [List.append_nil] at hsc ⊢
  exact (hp.eq_of_length_le hsc.length_le).symm

theorem wayOpen_cons {cs : List SymbolCode} {p : Bits} (h : ∀ sc ∈ cs, sc.2 ≠ p) (bit : Bool) (bits : Bits) :
    WayOpen cs p (bit :: bits) ↔ WayOpen cs (p ++ [bit]) bits := by
  simp only [WayOpen, List.append_assoc, List.singleton_append]
  refine forall₂_congr fun sc hsc => ⟨fun hway hp => hway ((List.prefix_append _ _).trans hp), fun hway hp hend => ?_⟩
  exact hway ((eq_or_child_prefix hp hend).resolve_left (h sc hsc)) hend

/-- The walk of `bits` from node `p` creates the missing nodes, unless a code ends on the way or the arena is full. -/
theorem descend_arenaOf {limit : Nat} {L : List Bits} {cs : List SymbolCode} {p : Bits} (bits : Bits) (hnum : Numbers L cs)
    (hp : p ∈ L) (hlimit : L.length ≤ limit) :
    descend limit bits (arenaOf L cs) (L.idxOf p) =
      if WayOpen cs p bits ∧ (grow L p bits).length ≤ limit then
        .ok (arenaOf (grow L p bits) cs, (grow L p bits).idxOf (p ++ bits))
      else .error .malformedHeader := by
  induction bits generalizing L p with
  | nil => rw [if_pos ⟨wayOpen_nil cs p, hlimit⟩, List.append_nil, grow, descend]
  | cons bit bits ih =>
    rw [descend, getElem?_arenaOf hp]
    by_cases hcoded : ∃ sc ∈ cs, sc.2 = p
    · obtain ⟨sc, hsc, rfl⟩ := hcoded
      obtain ⟨sd, -, -, hleaf⟩ := exists_slotOf_eq_leaf hsc L
      have hclosed : ¬ WayOpen cs sc.2 (bit :: bits) := fun hway => by
        simpa using hway sc hsc List.prefix_rfl (List.prefix_append _ _)
      rw [hleaf, if_neg fun h => hclosed h.1]
    · have hopen : ∀ sc ∈ cs, sc.2 ≠ p := fun sc hsc heq => hcoded ⟨sc, hsc, heq⟩
      have hend : p ++ bit :: bits = p ++ [bit] ++ bits := by simp
      simp only [slotOf_of_uncoded hopen, wayOpen_cons hopen, hend]
      rw [childOf_indexOf?, grow]
      by_cases hq : p ++ [bit] ∈ L
      · rw [if_pos hq, indexOf?, if_pos hq]
        exact ih hnum hq hlimit
      · rw [if_neg hq, indexOf?, if_neg hq, length_arenaOf]
        dsimp only
        split
        next hfull =>
          have hlong := (prefix_grow (L ++ [p ++ [bit]]) (p ++ [bit]) bits).length_le
          rw [List.length_append, List.length_singleton] at hlong
          rw [if_neg fun h => by omega]
        next hroom =>
          have hlast : L.length = (L ++ [p ++ [bit]]).idxOf (p ++ [bit]) := by simp [List.idxOf_append_of_notMem hq]
          rw [hnum.arenaOf_concat hq hopen, hlast]
          exact ih (hnum.concat hp hq) (by simp) (by rw [List.length_append, List.length_singleton]; omega)

/-! ## A whole code -/

theorem indexOf?_eq_none_iff (L : List Bits) (q : Bits) : indexOf? L q = none ↔ q ∉ L := by
  simp [indexOf?]

/-- A node is fresh exactly when no code ends there or goes on from there. -/
theorem slotOf_eq_fresh_iff {L : List Bits} {cs : List SymbolCode} {p : Bits}
    (hchild : ∀ bit, p ++ [bit] ∈ L ↔ ∃ sc ∈ cs, p ++ [bit] <+: sc.2) :
    slotOf L cs p = .branch none none ↔ ∀ sc ∈ cs, ¬ p <+: sc.2 := by
  by_cases hcoded : ∃ sc ∈ cs, sc.2 = p
  · obtain ⟨sc, hsc, rfl⟩ := hcoded
    obtain ⟨sd, -, -, hleaf⟩ := exists_slotOf_eq_leaf hsc L
    exact iff_of_false (by rw [hleaf]; nofun) fun h => h sc hsc List.prefix_rfl
  · have hopen : ∀ sc ∈ cs, sc.2 ≠ p := fun sc hsc heq => hcoded ⟨sc, hsc, heq⟩
    rw [slotOf_of_uncoded hopen, Slot.branch.injEq, indexOf?_eq_none_iff, indexOf?_eq_none_iff, hchild, hchild]
    constructor
    · rintro ⟨hleft, hright⟩ sc hsc ⟨r, hr⟩
      cases r with
      | nil => exact hopen sc hsc (by simpa using hr.symm)
      | cons bit r =>
        have hway : p ++ [bit] <+: sc.2 := ⟨r, by simpa using hr⟩
        cases bit with
        | false => exact hleft ⟨sc, hsc, hway⟩
        | true => exact hright ⟨sc, hsc, hway⟩
    · exact fun h => ⟨fun ⟨sc, hsc, hway⟩ => h sc hsc ((List.prefix_append _ _).trans hway),
        fun ⟨sc, hsc, hway⟩ => h sc hsc ((List.prefix_append _ _).trans hway)⟩

/-- Planting a leaf at a node where no code ends is one more code. -/
theorem set_arenaOf_leaf {L : List Bits} {cs : List SymbolCode} {p : Bits} (x : Byte) (hnodup : L.Nodup)
    (hopen : ∀ sc ∈ cs, sc.2 ≠ p) : (arenaOf L cs).set (L.idxOf p) (.leaf x) = arenaOf L (cs ++ [(x, p)]) := by
  have hnone : cs.find? (fun sc => sc.2 == p) = none := by simpa [List.find?_eq_none] using hopen
  have hleaf : slotOf L (cs ++ [(x, p)]) p = .leaf x := by simp [slotOf, List.find?_append, hnone]
  have hrest : ∀ r ∈ L, r ≠ p → slotOf L (cs ++ [(x, p)]) r = slotOf L cs r := fun r _ hr => by
    simp [slotOf, List.find?_append, hr.symm]
  rw [← hleaf, arenaOf, set_map_idxOf hnodup hrest, arenaOf]

/-- A code ends at a fresh node exactly when no code begins with it (check H5 of R270). -/
theorem plantLeaf_arenaOf {L : List Bits} {cs : List SymbolCode} {p : Bits} (x : Byte) (hnodup : L.Nodup) (hp : p ∈ L)
    (hchild : ∀ bit, p ++ [bit] ∈ L ↔ ∃ sc ∈ cs, p ++ [bit] <+: sc.2) :
    plantLeaf (arenaOf L cs) (L.idxOf p) x =
      if ∀ sc ∈ cs, ¬ p <+: sc.2 then .ok (arenaOf L (cs ++ [(x, p)])) else .error .malformedHeader := by
  rw [plantLeaf, getElem?_arenaOf hp]
  simp only [Option.some.injEq, slotOf_eq_fresh_iff hchild]
  split
  next hfresh => rw [set_arenaOf_leaf x hnodup fun sc hsc heq => hfresh sc hsc (heq ▸ List.prefix_rfl)]
  next => rfl

/-- One code of the parser: the walk from the root and the leaf at its end (R270). -/
def insertCode (limit : Nat) (t : List Slot) (sc : SymbolCode) : Except ErrorKind (List Slot) :=
  (descend limit sc.2 t 0).bind fun r => plantLeaf r.1 r.2 sc.1

/-- Neither of two codes begins the other. -/
abbrev Apart (sc sd : SymbolCode) : Prop := ¬ sc.2 <+: sd.2 ∧ ¬ sd.2 <+: sc.2

/-- A code enters the arena exactly when it and the codes before do not begin one another and the arena has room for its nodes. -/
theorem insertCode_arenaOf {limit : Nat} {cs : List SymbolCode} (hlimit : (numbering cs).length ≤ limit) (sc : SymbolCode) :
    insertCode limit (arenaOf (numbering cs) cs) sc =
      if (∀ sd ∈ cs, Apart sd sc) ∧ (numbering (cs ++ [sc])).length ≤ limit then
        .ok (arenaOf (numbering (cs ++ [sc])) (cs ++ [sc]))
      else .error .malformedHeader := by
  obtain ⟨x, b⟩ := sc
  have hwalk := descend_arenaOf b (numbers_numbering cs) (nil_mem_numbering cs) hlimit
  rw [idxOf_nil_numbering, ← numbering_concat cs (x, b)] at hwalk
  have hchild (bit : Bool) : b ++ [bit] ∈ numbering (cs ++ [(x, b)]) ↔ ∃ sd ∈ cs, b ++ [bit] <+: sd.2 := by
    simp [mem_numbering, or_and_right, exists_or, not_child_prefix_self]
  have hend : b ∈ numbering (cs ++ [(x, b)]) := (numbers_numbering _).coded (x, b) (by simp)
  have hplant := plantLeaf_arenaOf x (nodup_numbering _) hend hchild
  rw [insertCode, hwalk]
  by_cases hfits : (∀ sd ∈ cs, Apart sd (x, b)) ∧ (numbering (cs ++ [(x, b)])).length ≤ limit
  · obtain ⟨hapart, hroom⟩ := hfits
    have hway : WayOpen cs [] b := fun sd hsd _ hprefix => absurd hprefix (hapart sd hsd).1
    have hfresh : ∀ sd ∈ cs, ¬ b <+: sd.2 := fun sd hsd => (hapart sd hsd).2
    rw [if_pos ⟨hway, hroom⟩, if_pos ⟨hapart, hroom⟩]
    exact hplant.trans (if_pos hfresh)
  · rw [if_neg hfits]
    split
    next h =>
      obtain ⟨hway, hroom⟩ := h
      have hblocked : ¬ ∀ sd ∈ cs, ¬ b <+: sd.2 := fun hfresh => hfits ⟨fun sd hsd => ⟨fun hprefix => ?_, hfresh sd hsd⟩, hroom⟩
      · exact hplant.trans (if_neg hblocked)
      · exact hfresh sd hsd (hway sd hsd List.nil_prefix hprefix ▸ List.prefix_rfl)
    next => rfl

end Sys2Proof.Machine

end

section
/-! PROOFS. `parse_header` entry by entry: the state after a listing, and the errors in byte order (44_code_table_rom.md R270, R273). -/

namespace Sys2Proof.Machine

/-! ## Code fields -/

/-- The parser reads the code of a field, whatever its padding (R145, R151). -/
theorem bitsOfBytes_of_fieldHolds {bits : Bits} {field : List Byte} (h : FieldHolds bits field) :
    bitsOfBytes field bits.length = bits := by
  refine List.ext_getElem (by simp [bitsOfBytes]) fun q hq hbits => ?_
  rw [← List.getD_eq_getElem bits false hbits, ← h.2 q hbits]
  simp only [bitsOfBytes, List.getElem_map, List.getElem_range]
  rfl

theorem takeBytes_append {k : Nat} {field : List Byte} (h : field.length = k) (rest : List Byte) :
    takeBytes k (field ++ rest) = .ok (field, rest) := by
  subst h
  simp [takeBytes]

theorem takeBytes_short {k : Nat} {h : List Byte} (hk : h.length < k) : takeBytes k h = .error .truncatedStream := if_pos hk

/-- The length byte of an entry (R144). -/
theorem toNat_lengthByte {bits : Bits} (h : bits.length ≤ 255) : (BitVec.ofNat 8 bits.length).toNat = bits.length :=
  Nat.mod_eq_of_lt (Nat.lt_succ_of_le h)

/-! ## Listings -/

/-- The code that an entry lists. -/
def HeaderEntry.code (e : HeaderEntry) : SymbolCode := (e.symbol, e.bits)

theorem mem_spannedNodes (es : List HeaderEntry) (q : Bits) : q ∈ spannedNodes es ↔ ∃ e ∈ es, q <+: e.bits := by
  simp [spannedNodes]

/-- The nodes of R271's H4 are the numbered ones. -/
theorem length_spannedNodes {es : List HeaderEntry} (h : es ≠ []) :
    (spannedNodes es).length = (numbering (es.map HeaderEntry.code)).length := by
  refine List.Perm.length_eq ((List.perm_ext_iff_of_nodup (List.nodup_dedup _) (nodup_numbering _)).2 fun q => ?_)
  obtain ⟨e, he⟩ := List.exists_mem_of_ne_nil es h
  have hroot : q = [] → ∃ e ∈ es, q <+: e.bits := fun hq => ⟨e, he, hq ▸ List.nil_prefix⟩
  refine (mem_spannedNodes es q).trans ?_
  rw [mem_numbering]
  simp only [List.mem_map, exists_exists_and_eq_and, HeaderEntry.code]
  exact ⟨.inr, fun hq => hq.elim hroot id⟩

theorem length_numbering_le_of_listing {n : Nat} {es : List HeaderEntry} (hn : 1 ≤ n) (h : Listing n es) :
    (numbering (es.map HeaderEntry.code)).length ≤ 2 * n - 1 := by
  obtain ⟨-, -, -, hspan⟩ := h
  by_cases hes : es = []
  · subst hes
    simp [numbering]
    omega
  · rwa [← length_spannedNodes hes]

theorem listing_of_append {n : Nat} {es fs : List HeaderEntry} (h : Listing n (es ++ fs)) : Listing n es := by
  obtain ⟨horder, hfields, hapart, hspan⟩ := h
  refine ⟨(List.pairwise_append.1 horder).1, fun e he => hfields e (List.mem_append_left _ he),
    (List.pairwise_append.1 hapart).1, le_trans (List.Nodup.length_le_of_subset (List.nodup_dedup _) fun q hq => ?_) hspan⟩
  obtain ⟨e, he, hq⟩ := (mem_spannedNodes es q).1 hq
  exact (mem_spannedNodes _ q).2 ⟨e, List.mem_append_left _ he, hq⟩

/-- The conditions H1 to H5 at one more entry (R271). -/
theorem listing_concat_iff {n : Nat} {es : List HeaderEntry} {e : HeaderEntry} (hes : Listing n es) :
    Listing n (es ++ [e]) ↔ (∀ d ∈ es, d.symbol.toNat < e.symbol.toNat) ∧
      (1 ≤ e.bits.length ∧ e.bits.length ≤ 255 ∧ FieldHolds e.bits e.field) ∧ (∀ d ∈ es, Apart d.code e.code) ∧
      (numbering (es.map HeaderEntry.code ++ [e.code])).length ≤ 2 * n - 1 := by
  obtain ⟨horder, hfields, hapart, -⟩ := hes
  have hspan := length_spannedNodes (es := es ++ [e]) (by simp)
  rw [List.map_append, List.map_singleton] at hspan
  rw [Listing, hspan, List.pairwise_append, List.pairwise_append, List.forall_mem_append]
  simp only [horder, hapart, List.pairwise_singleton, List.mem_singleton, forall_eq, true_and]
  exact and_congr_right fun _ => and_congr_left fun _ => ⟨And.right, fun h => ⟨hfields, h⟩⟩

/-! ## The state after a listing -/

/-- `prev + 1` after the entries given (R270). -/
def leastAfter (es : List HeaderEntry) : Nat := es.foldl (fun _ e => e.symbol.toNat + 1) 0

/-- The parser's variables after the entries of a listing, with `rest` still to read (R270). -/
def stateAfter (es : List HeaderEntry) (rest : List Byte) : ParseState where
  rest := rest
  pos := 1 + (es.flatMap HeaderEntry.bytes).length
  arena := arenaOf (numbering (es.map HeaderEntry.code)) (es.map HeaderEntry.code)
  code := tableOf (es.map HeaderEntry.code)
  least := leastAfter es

theorem leastAfter_concat (es : List HeaderEntry) (e : HeaderEntry) : leastAfter (es ++ [e]) = e.symbol.toNat + 1 := by
  simp [leastAfter]

/-- The symbols that H1 admits next are those above all before. -/
theorem leastAfter_le_iff {es : List HeaderEntry} (h : es.Pairwise fun d e => d.symbol.toNat < e.symbol.toNat) (x : Nat) :
    leastAfter es ≤ x ↔ ∀ e ∈ es, e.symbol.toNat < x := by
  cases es using List.reverseRecOn with
  | nil => simp [leastAfter]
  | append_singleton es e =>
    obtain ⟨-, -, hbelow⟩ := List.pairwise_append.1 h
    rw [leastAfter_concat, List.forall_mem_append, Nat.succ_le_iff, List.forall_mem_singleton]
    exact ⟨fun hx => ⟨fun d hd => (hbelow d hd e (List.mem_singleton.2 rfl)).trans hx, hx⟩, And.right⟩

/-! ## One entry -/

section
variable (limit pos : Nat) (arena : List Slot) (code : CodeTable) (least : Nat)

theorem parseEntry_nil : parseEntry limit ⟨[], pos, arena, code, least⟩ = .error .truncatedStream := rfl

variable {least} {x : Byte}

theorem parseEntry_symbolTooLow (h : x.toNat < least) (rest : List Byte) :
    parseEntry limit ⟨x :: rest, pos, arena, code, least⟩ = .error .malformedHeader := if_pos h

variable (h : least ≤ x.toNat)
include h

theorem parseEntry_symbolAlone : parseEntry limit ⟨[x], pos, arena, code, least⟩ = .error .truncatedStream :=
  if_neg h.not_gt

theorem parseEntry_lengthZero (rest : List Byte) :
    parseEntry limit ⟨x :: 0 :: rest, pos, arena, code, least⟩ = .error .malformedHeader :=
  if_neg h.not_gt

theorem parseEntry_fieldCut {len : Byte} {rest : List Byte} (hlen : len ≠ 0) (hcut : rest.length < ceilDiv len.toNat 8) :
    parseEntry limit ⟨x :: len :: rest, pos, arena, code, least⟩ = .error .truncatedStream := by
  simp only [parseEntry, if_neg h.not_gt, if_neg hlen, takeBytes_short hcut]

end

/-- A whole entry above the symbols before is its code entering the arena and the table. -/
theorem parseEntry_bytes {limit pos least : Nat} {arena : List Slot} {code : CodeTable} {e : HeaderEntry}
    (hleast : least ≤ e.symbol.toNat) (hpos : 1 ≤ e.bits.length) (hmax : e.bits.length ≤ 255) (hfield : FieldHolds e.bits e.field)
    (rest : List Byte) :
    parseEntry limit ⟨e.bytes ++ rest, pos, arena, code, least⟩ =
      (insertCode limit arena e.code).map fun t =>
        ⟨rest, pos + e.bytes.length, t, code.put e.symbol e.bits, e.symbol.toNat + 1⟩ := by
  have hlen := toNat_lengthByte hmax
  have hne : BitVec.ofNat 8 e.bits.length ≠ 0 := fun h => by
    rw [h] at hlen
    have : (0 : Byte).toNat = 0 := rfl
    omega
  have hused : pos + e.bytes.length = pos + 2 + e.field.length := by
    rw [HeaderEntry.bytes, List.length_cons, List.length_cons]
    omega
  rw [hused]
  simp only [parseEntry, HeaderEntry.bytes, List.cons_append, if_neg hleast.not_gt, if_neg hne, hlen,
    takeBytes_append hfield.1, bitsOfBytes_of_fieldHolds hfield, insertCode, HeaderEntry.code]
  cases descend limit e.bits arena 0 with
  | error k => rfl
  | ok r =>
    simp only [Except.bind]
    cases plantLeaf r.1 r.2 e.symbol <;> rfl

/-- After a listing the next entry either continues it or is malformed (R271, R273). -/
theorem parseEntry_stateAfter {n : Nat} {es : List HeaderEntry} {e : HeaderEntry} (hn : 1 ≤ n) (hes : Listing n es)
    (habove : ∀ d ∈ es, d.symbol.toNat < e.symbol.toNat) (hpos : 1 ≤ e.bits.length) (hmax : e.bits.length ≤ 255)
    (hfield : FieldHolds e.bits e.field) (rest : List Byte) :
    parseEntry (2 * n - 1) (stateAfter es (e.bytes ++ rest)) =
      if Listing n (es ++ [e]) then .ok (stateAfter (es ++ [e]) rest) else .error .malformedHeader := by
  have ⟨horder, _⟩ := hes
  refine (parseEntry_bytes ((leastAfter_le_iff horder _).2 habove) hpos hmax hfield rest).trans ?_
  rw [insertCode_arenaOf (length_numbering_le_of_listing hn hes), apply_ite (Except.map _)]
  refine if_congr ?_ ?_ rfl
  · rw [listing_concat_iff hes, List.forall_mem_map]
    tauto
  · simp only [Except.map, stateAfter, leastAfter_concat, List.map_append, List.flatMap_append, tableOf_concat, List.map_singleton,
      List.flatMap_singleton, List.length_append, Nat.add_assoc]
    rfl

/-! ## A whole listing -/

/-- The parser reads the entries of a listing one by one. -/
theorem parseEntries_append {n : Nat} {es fs : List HeaderEntry} (hn : 1 ≤ n) (h : Listing n (es ++ fs)) (k : Nat)
    (rest : List Byte) :
    parseEntries (2 * n - 1) (fs.length + k) (stateAfter es (fs.flatMap HeaderEntry.bytes ++ rest)) =
      parseEntries (2 * n - 1) k (stateAfter (es ++ fs) rest) := by
  induction fs generalizing es with
  | nil => simp
  | cons e fs ih =>
    rw [List.append_cons] at h
    have hnext := listing_of_append h
    obtain ⟨habove, ⟨hpos, hmax, hfield⟩, -⟩ := (listing_concat_iff (listing_of_append hnext)).1 hnext
    have hentry := parseEntry_stateAfter hn (listing_of_append hnext) habove hpos hmax hfield (fs.flatMap HeaderEntry.bytes ++ rest)
    rw [if_pos hnext] at hentry
    rw [List.length_cons, Nat.add_right_comm, List.flatMap_cons, List.append_assoc, parseEntries, hentry,
      List.append_cons es e fs]
    exact ih h

/-- A header that begins with a listing of no more than its `n` codes is read up to the listing's end (R270). -/
theorem parseHeader_headerBytesOf {n : Nat} {es : List HeaderEntry} (hpos : 1 ≤ n) (hmax : n ≤ 256) (h : Listing n es)
    (hlen : es.length ≤ n) (rest : List Byte) :
    parseHeader (headerBytesOf n es ++ rest) = (parseEntries (2 * n - 1) (n - es.length) (stateAfter es rest)).bind fun p =>
      (p.arena.mapM closeSlot).elim (.error .malformedHeader) fun nodes => .ok ⟨⟨nodes, 0⟩, p.code, p.pos⟩ := by
  have hcount : (BitVec.ofNat 8 (n - 1)).toNat + 1 = n := by
    rw [BitVec.toNat_ofNat, Nat.mod_eq_of_lt (by omega)]
    omega
  have hentries := parseEntries_append (es := []) hpos h (n - es.length) rest
  rw [Nat.add_sub_cancel' hlen, List.nil_append] at hentries
  have hstart (bytes : List Byte) : stateAfter [] bytes = ⟨bytes, 1, [.branch none none], Table.const [], 0⟩ := rfl
  simp only [headerBytesOf, List.cons_append, parseHeader, hcount, ← hstart, hentries]
  cases parseEntries (2 * n - 1) (n - es.length) (stateAfter es rest) with
  | error k => rfl
  | ok p =>
    simp only [Except.bind]
    cases p.arena.mapM closeSlot <;> rfl

theorem parseHeader_eq_error {n : Nat} {es : List HeaderEntry} {rest : List Byte} {k : ErrorKind} (hmax : n ≤ 256)
    (h : Listing n es) (hlen : es.length < n) (hentry : parseEntry (2 * n - 1) (stateAfter es rest) = .error k) :
    parseHeader (headerBytesOf n es ++ rest) = .error k := by
  obtain ⟨m, hm⟩ : ∃ m, n - es.length = m + 1 := ⟨n - es.length - 1, by omega⟩
  rw [parseHeader_headerBytesOf (by omega) hmax h hlen.le, hm, parseEntries, hentry]
  rfl

end Sys2Proof.Machine

open Sys2Proof Sys2Proof.Machine

/-- Settles O60: the parser's state after the listing, and what its next entry does with each continuation. -/
theorem headerErrorsInByteOrder : Obligations.HeaderErrorsInByteOrder := by
  refine ⟨rfl, fun n es hpos hmax hlen hes => ?_⟩
  have hleast (x : Byte) := leastAfter_le_iff hes.1 x.toNat
  have herror (rest : List Byte) (k : ErrorKind) := parseHeader_eq_error (rest := rest) (k := k) hmax hes hlen
  refine ⟨?_, fun x rest hlow => herror _ _ (parseEntry_symbolTooLow _ _ _ _ ?_ rest), fun x habove => ?_⟩
  · simpa using herror [] _ (parseEntry_nil _ _ _ _ _)
  · obtain ⟨e, he, hle⟩ := hlow
    exact Nat.lt_of_not_le fun h => absurd ((hleast x).1 h e he) (Nat.not_lt.2 hle)
  · have hx := (hleast x).2 habove
    refine ⟨herror _ _ (parseEntry_symbolAlone _ _ _ _ hx), fun rest => herror _ _ (parseEntry_lengthZero _ _ _ _ hx rest),
      fun len rest hlen hcut => herror _ _ (parseEntry_fieldCut _ _ _ _ hx hlen hcut), ?_⟩
    intro bits field rest hbits hbits' hfield hnot
    rw [List.append_assoc]
    exact herror _ _ ((parseEntry_stateAfter hpos hes habove hbits hbits' hfield rest).trans (if_neg hnot))

end

section
/-! PROOFS. The header of a valid code table: its listing, and the tree that the parser closes (44_code_table_rom.md R270, R274). -/

namespace Sys2Proof.Machine

/-! ## Code fields -/

/-- The serializer's code field holds the code (R144, R150). -/
theorem fieldHolds_bytesOfBits (bits : Bits) : FieldHolds bits (bytesOfBits bits) := by
  refine ⟨by simp [bytesOfBits], fun q hq => ?_⟩
  have hbyte : q / 8 < ceilDiv bits.length 8 := by
    rw [ceilDiv]
    omega
  have hbit := testBit_sum_shiftLeft (fun i => bits.getD (8 * (q / 8) + i) false) 8 (q % 8) (Nat.mod_lt q (by decide))
  rw [Nat.div_add_mod] at hbit
  have hget : (bytesOfBits bits).getD (q / 8) 0 = packedByte bits (q / 8) := by simp [bytesOfBits, hbyte]
  rw [packedBit, hget, packedByte, BitVec.getLsbD_ofNat, decide_eq_true (by omega), Bool.true_and]
  exact hbit

/-! ## The nodes of a binary tree -/

namespace CodeTree

/-- The paths to all nodes, each node before its subtrees. -/
def nodePaths : CodeTree → List Bits
  | leaf _ => [[]]
  | node l r => [] :: (l.nodePaths.map (false :: ·) ++ r.nodePaths.map (true :: ·))

theorem length_nodePaths (T : CodeTree) : T.nodePaths.length = T.size := by
  induction T with
  | leaf x => rfl
  | node l r ihl ihr => simp [nodePaths, size, ihl, ihr]

theorem mem_nodePaths_node {l r : CodeTree} {q : Bits} :
    q ∈ (node l r).nodePaths ↔ q = [] ∨ ∃ bit q', q = bit :: q' ∧ q' ∈ (if bit then r else l).nodePaths := by
  simp only [nodePaths, List.mem_cons, List.mem_append, List.mem_map]
  refine or_congr_right ⟨?_, ?_⟩
  · rintro (⟨q', h, rfl⟩ | ⟨q', h, rfl⟩)
    · exact ⟨false, q', rfl, h⟩
    · exact ⟨true, q', rfl, h⟩
  · rintro ⟨bit, q', rfl, h⟩
    cases bit
    · exact .inl ⟨q', h, rfl⟩
    · exact .inr ⟨q', h, rfl⟩

theorem nodup_nodePaths (T : CodeTree) : T.nodePaths.Nodup := by
  induction T with
  | leaf x => exact List.nodup_singleton _
  | node l r ihl ihr =>
    refine List.nodup_cons.2 ⟨by simp, List.nodup_append.2 ⟨ihl.map (List.cons_injective), ihr.map List.cons_injective, ?_⟩⟩
    intro a ha b hb
    obtain ⟨_, -, rfl⟩ := List.mem_map.1 ha
    obtain ⟨_, -, rfl⟩ := List.mem_map.1 hb
    simp

theorem nil_mem_nodePaths (T : CodeTree) : [] ∈ T.nodePaths := by
  cases T <;> simp [nodePaths]

/-- The nodes are those on the way to a leaf. -/
theorem mem_nodePaths_iff (T : CodeTree) (q : Bits) : q ∈ T.nodePaths ↔ ∃ sc ∈ T.paths, q <+: sc.2 := by
  induction T generalizing q with
  | leaf x => simp [nodePaths, paths]
  | node l r ihl ihr =>
    have ih (bit : Bool) (q : Bits) :
        q ∈ (if bit then r else l).nodePaths ↔ ∃ sc ∈ (if bit then r else l).paths, q <+: sc.2 := by
      cases bit
      · exact ihl q
      · exact ihr q
    rw [mem_nodePaths_node]
    constructor
    · rintro (rfl | ⟨bit, q, rfl, hq⟩)
      · obtain ⟨sc, hsc⟩ := (node l r).exists_mem_paths
        exact ⟨sc, hsc, List.nil_prefix⟩
      · obtain ⟨⟨x, b⟩, hb, hq⟩ := (ih bit q).1 hq
        exact ⟨(x, bit :: b), mem_paths_node.2 ⟨bit, b, rfl, hb⟩, List.cons_prefix_cons.2 ⟨rfl, hq⟩⟩
    · rintro ⟨⟨x, d⟩, hd, hq⟩
      obtain ⟨bit, b, rfl, hb⟩ := mem_paths_node.1 hd
      cases q with
      | nil => exact .inl rfl
      | cons bit' q =>
        obtain ⟨rfl, hsub⟩ := List.cons_prefix_cons.1 hq
        exact .inr ⟨bit', q, rfl, (ih bit' q).2 ⟨(x, b), hb, hsub⟩⟩

/-- Every node is a leaf or has both children. -/
theorem leaf_or_children {T : CodeTree} {q : Bits} (h : q ∈ T.nodePaths) :
    (∃ x, (x, q) ∈ T.paths) ∨ ∀ bit, q ++ [bit] ∈ T.nodePaths := by
  induction T generalizing q with
  | leaf x =>
    obtain rfl := List.mem_singleton.1 h
    exact .inl ⟨x, List.mem_singleton.2 rfl⟩
  | node l r ihl ihr =>
    rcases mem_nodePaths_node.1 h with rfl | ⟨bit, q, rfl, hq⟩
    · exact .inr fun bit => mem_nodePaths_node.2 (.inr ⟨bit, [], rfl, nil_mem_nodePaths _⟩)
    · have ih : (∃ x, (x, q) ∈ (if bit then r else l).paths) ∨ ∀ b, q ++ [b] ∈ (if bit then r else l).nodePaths := by
        cases bit
        · exact ihl hq
        · exact ihr hq
      refine ih.imp (fun ⟨x, hx⟩ => ⟨x, mem_paths_node.2 ⟨bit, q, rfl, hx⟩⟩) fun hboth b => ?_
      exact mem_nodePaths_node.2 (.inr ⟨bit, q ++ [b], rfl, hboth b⟩)

end CodeTree

/-! ## Closing the arena -/

theorem exists_mapM_eq_some {α β : Type} {f : α → Option β} {l : List α} (h : ∀ a ∈ l, (f a).isSome) :
    ∃ bs, l.mapM f = some bs ∧ bs.map some = l.map f := by
  induction l with
  | nil => exact ⟨[], rfl, rfl⟩
  | cons a l ih =>
    obtain ⟨ha, hl⟩ := List.forall_mem_cons.1 h
    obtain ⟨b, hb⟩ := Option.isSome_iff_exists.1 ha
    obtain ⟨bs, hbs, hmap⟩ := ih hl
    exact ⟨b :: bs, by simp [hb, hbs], by simp [hb, hmap]⟩

section
variable {T : CodeTree} {cs : List SymbolCode} (hcs : ∀ sc, sc ∈ cs ↔ sc ∈ T.paths)
include hcs

/-- The nodes that the parser creates for the paths of a tree are the nodes of the tree. -/
theorem mem_numbering_iff_mem_nodePaths (q : Bits) : q ∈ numbering cs ↔ q ∈ T.nodePaths := by
  have hroot : q = [] → q ∈ T.nodePaths := fun hq => hq ▸ T.nil_mem_nodePaths
  simp only [mem_numbering, hcs, ← T.mem_nodePaths_iff]
  exact ⟨fun h => h.elim hroot id, .inr⟩

theorem length_numbering_eq_size : (numbering cs).length = T.size := by
  rw [← T.length_nodePaths]
  exact ((List.perm_ext_iff_of_nodup (nodup_numbering cs) T.nodup_nodePaths).2 (mem_numbering_iff_mem_nodePaths hcs)).length_eq

theorem slotOf_of_mem_paths {x : Byte} {p : Bits} (h : (x, p) ∈ T.paths) : slotOf (numbering cs) cs p = .leaf x := by
  obtain ⟨⟨y, q⟩, hy, rfl, hslot⟩ := exists_slotOf_eq_leaf ((hcs _).2 h) (numbering cs)
  obtain ⟨rfl, -⟩ := CodeTree.eq_of_prefix_of_mem_paths ((hcs _).1 hy) h List.prefix_rfl
  exact hslot

theorem slotOf_of_children {p : Bits} (h : ∀ bit, p ++ [bit] ∈ T.nodePaths) : slotOf (numbering cs) cs p =
    .branch (some ((numbering cs).idxOf (p ++ [false]))) (some ((numbering cs).idxOf (p ++ [true]))) := by
  have hmem (bit : Bool) := (mem_numbering_iff_mem_nodePaths hcs _).2 (h bit)
  have hopen : ∀ sc ∈ cs, sc.2 ≠ p := by
    rintro ⟨x, q⟩ hsc rfl
    obtain ⟨⟨y, d⟩, hd, hprefix⟩ := (T.mem_nodePaths_iff _).1 (h false)
    obtain ⟨-, rfl⟩ := CodeTree.eq_of_prefix_of_mem_paths ((hcs _).1 hsc) hd ((List.prefix_append _ _).trans hprefix)
    exact not_child_prefix_self _ _ hprefix
  rw [slotOf_of_uncoded hopen, indexOf?, indexOf?, if_pos (hmem false), if_pos (hmem true)]

/-- No branch of the arena lacks a child (check H6 of R270). -/
theorem isSome_closeSlot {s : Slot} (h : s ∈ arenaOf (numbering cs) cs) : (closeSlot s).isSome := by
  obtain ⟨p, hp, rfl⟩ := List.mem_map.1 h
  rcases CodeTree.leaf_or_children ((mem_numbering_iff_mem_nodePaths hcs p).1 hp) with ⟨x, hx⟩ | hboth
  · rw [slotOf_of_mem_paths hcs hx]
    rfl
  · rw [slotOf_of_children hcs hboth]
    rfl

/-- The closed arena unfolds to the tree: from the node of path `p` down, to the subtree there. -/
theorem unfolds_of_closed_arena {nodes : List Node} (hnodes : nodes.map some = (arenaOf (numbering cs) cs).map closeSlot)
    (hsize : T.size ≤ 512) {S : CodeTree} {p : Bits} (hS : ∀ x b, (x, b) ∈ S.paths → (x, p ++ b) ∈ T.paths) :
    Unfolds nodes ((numbering cs).idxOf p) S := by
  have hnode {q : Bits} (hq : q ∈ T.nodePaths) : nodes[(numbering cs).idxOf q]? = closeSlot (slotOf (numbering cs) cs q) := by
    have hget := congrArg (·[(numbering cs).idxOf q]?) hnodes
    simp only [List.getElem?_map, getElem?_arenaOf ((mem_numbering_iff_mem_nodePaths hcs q).2 hq), Option.map_some] at hget
    obtain ⟨node, hn, heq⟩ := Option.map_eq_some_iff.1 hget
    rw [hn, heq]
  have hindex {q : Bits} (hq : q ∈ T.nodePaths) : (BitVec.ofNat 9 ((numbering cs).idxOf q)).toNat = (numbering cs).idxOf q := by
    have hlt := List.idxOf_lt_length_of_mem ((mem_numbering_iff_mem_nodePaths hcs q).2 hq)
    rw [length_numbering_eq_size hcs] at hlt
    exact Nat.mod_eq_of_lt (hlt.trans_le hsize)
  induction S generalizing p with
  | leaf x =>
    have hx : (x, p) ∈ T.paths := by simpa using hS x [] (List.mem_singleton.2 rfl)
    refine .leaf (f := 0) ?_
    rw [hnode ((T.mem_nodePaths_iff p).2 ⟨_, hx, List.prefix_rfl⟩), slotOf_of_mem_paths hcs hx]
    rfl
  | node l r ihl ihr =>
    have hsub (bit : Bool) (x : Byte) (b : Bits) (hb : (x, b) ∈ (if bit then r else l).paths) :
        (x, p ++ [bit] ++ b) ∈ T.paths := by
      simpa using hS x (bit :: b) (CodeTree.mem_paths_node.2 ⟨bit, b, rfl, hb⟩)
    have hchild (bit : Bool) : p ++ [bit] ∈ T.nodePaths := by
      obtain ⟨⟨x, b⟩, hb⟩ := (if bit then r else l).exists_mem_paths
      exact (T.mem_nodePaths_iff _).2 ⟨_, hsub bit x b hb, List.prefix_append _ _⟩
    have hp : p ∈ T.nodePaths := by
      obtain ⟨sc, hsc, hprefix⟩ := (T.mem_nodePaths_iff _).1 (hchild false)
      exact (T.mem_nodePaths_iff p).2 ⟨sc, hsc, (List.prefix_append _ _).trans hprefix⟩
    have hclosed := hnode hp
    rw [slotOf_of_children hcs hchild] at hclosed
    refine .node hclosed ?_ ?_
    · rw [hindex (hchild false)]
      exact ihl (hsub false)
    · rw [hindex (hchild true)]
      exact ihr (hsub true)

end

/-! ## The listing of a valid code table -/

namespace CodesFrom

variable {T : CodeTree} {c : CodeTable} {es : List HeaderEntry} (h : CodesFrom T c) (hes : es.map HeaderEntry.code = codesOf c)
include h

theorem mem_codesOf_iff (sc : SymbolCode) : sc ∈ codesOf c ↔ sc ∈ T.paths := by
  obtain ⟨x, b⟩ := sc
  rw [mem_codesOf, h.mem_paths_iff]

theorem size_eq : T.size = 2 * (codesOf c).length - 1 := by
  have hsize := T.size_add_one
  rw [← h.perm_codedSymbols.length_eq, ← map_fst_codesOf, List.length_map] at hsize
  omega

include hes

theorem length_entries_bounds : 2 ≤ es.length ∧ es.length ≤ 256 := by
  have hlen : es.length = (codedSymbols c).length := by
    rw [← map_fst_codesOf, ← hes, List.length_map, List.length_map]
  rw [hlen]
  exact ⟨h.two_le_length_codedSymbols, h.perm_codedSymbols.length_eq.trans_le h.few⟩

/-- The entries of a valid code table are a listing (R271, R274). -/
theorem listing (hfields : ∀ e ∈ es, FieldHolds e.bits e.field) : Listing es.length es := by
  have hcode {e : HeaderEntry} (he : e ∈ es) : c.get e.symbol = e.bits ∧ e.bits ≠ [] :=
    (mem_codesOf c _ _).1 (hes ▸ List.mem_map_of_mem he)
  have horder : es.Pairwise fun d e => d.symbol.toNat < e.symbol.toNat := by
    have hsorted := pairwise_lt_codedSymbols c
    rw [← map_fst_codesOf, ← hes, List.map_map, List.pairwise_map] at hsorted
    exact hsorted
  refine ⟨horder, fun e he => ?_, ?_, ?_⟩
  · obtain ⟨hget, hne⟩ := hcode he
    exact ⟨List.length_pos_iff.2 hne, hget ▸ h.length_get_le e.symbol, hfields e he⟩
  · refine horder.imp_of_mem fun {d e} hd he hlt => ?_
    obtain ⟨hgetd, hned⟩ := hcode hd
    obtain ⟨hgete, hnee⟩ := hcode he
    have hne : d.symbol ≠ e.symbol := fun heq => absurd (heq ▸ hlt) (Nat.lt_irrefl _)
    rw [← hgetd] at hned ⊢
    rw [← hgete] at hnee ⊢
    exact ⟨h.prefixFree _ _ hne hned, h.prefixFree _ _ hne.symm hnee⟩
  · have hpos : es ≠ [] := List.ne_nil_of_length_pos (by have := h.length_entries_bounds hes; omega)
    rw [length_spannedNodes hpos, hes, length_numbering_eq_size h.mem_codesOf_iff, h.size_eq, ← hes, List.length_map]

/-- A header that lists a valid code table parses to the table and a tree of it, whatever follows. -/
theorem exists_parseHeader_eq_ok (hfields : ∀ e ∈ es, FieldHolds e.bits e.field) (rest : List Byte) :
    ∃ nodes, parseHeader (headerBytesOf es.length es ++ rest) = .ok ⟨⟨nodes, 0⟩, c, (headerBytesOf es.length es).length⟩ ∧
      deriveCodes ⟨nodes, 0⟩ = c := by
  obtain ⟨hmin, hmax⟩ := h.length_entries_bounds hes
  obtain ⟨nodes, hclose, hnodes⟩ := exists_mapM_eq_some fun s => isSome_closeSlot h.mem_codesOf_iff (s := s)
  refine ⟨nodes, ?_, ?_⟩
  · rw [parseHeader_headerBytesOf (by omega) hmax (h.listing hes hfields) le_rfl, Nat.sub_self, parseEntries]
    simp only [Except.bind, stateAfter, hes, hclose, tableOf_codesOf, Option.elim]
    simp [headerBytesOf, Nat.add_comm]
  · have hsize : T.size ≤ 512 := by
      rw [h.size_eq, ← hes, List.length_map]
      omega
    have hT : Unfolds nodes ((numbering (codesOf c)).idxOf []) T :=
      unfolds_of_closed_arena h.mem_codesOf_iff hnodes hsize fun x b hb => hb
    rw [idxOf_nil_numbering] at hT
    have hlen : T.size = nodes.length := by
      have := congrArg List.length hnodes
      rw [List.length_map, List.length_map, length_arenaOf, length_numbering_eq_size h.mem_codesOf_iff] at this
      exact this.symm
    rw [deriveCodes_eq_tableOf (t := ⟨nodes, 0⟩) hT hlen.le, ← h.table]

end CodesFrom

/-! ## The serialized header -/

/-- The entries that the serializer writes, in order (R144, R263). -/
def serializedEntries (c : CodeTable) : List HeaderEntry := (codedSymbols c).map fun x => ⟨x, c.get x, bytesOfBits (c.get x)⟩

theorem map_code_serializedEntries (c : CodeTable) : (serializedEntries c).map HeaderEntry.code = codesOf c := by
  simp [serializedEntries, codesOf, HeaderEntry.code, Function.comp_def]

theorem serializeHeader_eq_headerBytesOf (c : CodeTable) :
    serializeHeader c = headerBytesOf (serializedEntries c).length (serializedEntries c) := by
  rw [serializeHeader, headerBytesOf, serializedEntries, List.flatMap_map, List.length_map]
  rfl

theorem fieldHolds_serializedEntries (c : CodeTable) : ∀ e ∈ serializedEntries c, FieldHolds e.bits e.field :=
  List.forall_mem_map.2 fun x _ => fieldHolds_bytesOfBits (c.get x)

end Sys2Proof.Machine

open Sys2Proof Sys2Proof.Machine

/-- Settles O36: the serialized entries are a listing of the table, and the arena they build closes to the tree of its codes. -/
theorem headerRoundTrip : Obligations.HeaderRoundTrip := by
  rintro c rest ⟨t, ht, rfl⟩
  obtain ⟨T, -, -, hcodes⟩ := codesFrom_deriveCodes ht
  rw [serializeHeader_eq_headerBytesOf]
  obtain ⟨nodes, hparse, hderive⟩ :=
    hcodes.exists_parseHeader_eq_ok (map_code_serializedEntries _) (fieldHolds_serializedEntries _) rest
  exact ⟨_, hparse, rfl, rfl, hderive⟩

end

section
/-! PROOFS. Where the bits of a packed byte list lie, the padding included (45_bit_packer.md R291, 30_encoding.md R150). -/

namespace Sys2Proof.Machine

/-! ## Packed bytes -/

theorem getLsbD_packedByte (bits : Bits) (j : Nat) {i : Nat} (hi : i < 8) :
    (packedByte bits j).getLsbD (7 - i) = bits.getD (8 * j + i) false := by
  rw [packedByte, BitVec.getLsbD_ofNat, decide_eq_true (by omega), Bool.true_and]
  exact testBit_sum_shiftLeft (fun i => bits.getD (8 * j + i) false) 8 i hi

@[simp] theorem length_bytesOfBits (bits : Bits) : (bytesOfBits bits).length = ceilDiv bits.length 8 :=
  (fieldHolds_bytesOfBits bits).1

/-- Bit `q` of the packed list is bit `q` of the string wherever a byte was packed, so 0 past the string's end. -/
theorem packedBit_bytesOfBits (bits : Bits) {q : Nat} (hq : q < 8 * ceilDiv bits.length 8) :
    packedBit (bytesOfBits bits) q = bits.getD q false := by
  have hget : (bytesOfBits bits).getD (q / 8) 0 = packedByte bits (q / 8) := by
    simp [bytesOfBits, Nat.div_lt_of_lt_mul hq]
  rw [packedBit, hget, getLsbD_packedByte bits _ (Nat.mod_lt q (by decide)), Nat.div_add_mod]

theorem fieldPadded_bytesOfBits (bits : Bits) : FieldPadded bits (bytesOfBits bits) := by
  refine ⟨fieldHolds_bytesOfBits bits, fun q hq hpast => ?_⟩
  rw [length_bytesOfBits] at hq
  rw [packedBit_bytesOfBits bits hq, List.getD_eq_default _ _ hpast]

/-! ## The codes of a symbol list -/

theorem packBits_eq_some {syms p : List Byte} {c : CodeTable} {bc : Nat} (h : packBits syms c = some (p, bc)) :
    p = bytesOfBits (codeBits syms c) ∧ bc = (codeBits syms c).length := by
  rw [packBits] at h
  split at h
  · exact absurd h nofun
  · cases h
    exact ⟨rfl, rfl⟩

theorem codeBits_append_cons (before after : List Byte) (x : Byte) (c : CodeTable) :
    codeBits (before ++ x :: after) c = before.flatMap c.get ++ (c.get x ++ after.flatMap c.get) := by
  simp [codeBits]

/-- Bit `j` of a symbol's code comes after the codes of the symbols before it. -/
theorem getElem?_codeBits (before after : List Byte) {x : Byte} {c : CodeTable} {j : Nat} (h : j < (c.get x).length) :
    (codeBits (before ++ x :: after) c)[(before.flatMap c.get).length + j]? = some (c.get x)[j] := by
  rw [codeBits_append_cons, List.getElem?_append_right (Nat.le_add_right _ _), Nat.add_sub_cancel_left,
    List.getElem?_append_left h, List.getElem?_eq_getElem h]

end Sys2Proof.Machine

open Sys2Proof Sys2Proof.Machine

/-- Settles O37: the payload is the packed concatenation of the codes, and packing keeps every bit at its place. -/
theorem packedCodePositions : Obligations.PackedCodePositions := by
  intro c before after x p bc hpack
  obtain ⟨rfl, rfl⟩ := packBits_eq_some hpack
  obtain ⟨⟨hlength, hbits⟩, hpadding⟩ := fieldPadded_bytesOfBits (codeBits (before ++ x :: after) c)
  refine ⟨hlength, fun j hj => ?_, fun q hpast hq => hpadding q (hlength ▸ hq) hpast⟩
  have hcode := getElem?_codeBits before after hj
  have hin := (List.getElem?_eq_some_iff.1 hcode).1
  exact (hbits _ hin).trans (by rw [List.getD_eq_getElem?_getD, hcode, Option.getD_some])

end

section
/-! PROOFS. The walk of the unpacker down a valid tree, code by code (46_bit_unpacker.md R310, R311). -/

namespace Sys2Proof.Machine

/-! ## The size of a subtree -/

/-- A node has one tree below it, so its size tells it apart from other nodes. -/
theorem Unfolds.unique {nodes : List Node} {n : Nat} {S T : CodeTree} (hS : Unfolds nodes n S) (hT : Unfolds nodes n T) :
    S = T := by
  induction hS generalizing T with
  | leaf hn =>
    cases hT with
    | leaf hn' => cases hn.symm.trans hn'; rfl
    | node hn' _ _ => cases hn.symm.trans hn'
  | node hn _ _ ihl ihr =>
    cases hT with
    | leaf hn' => cases hn.symm.trans hn'
    | node hn' hl hr =>
      cases hn.symm.trans hn'
      rw [ihl hl, ihr hr]

theorem Unfolds.ne_of_size_lt {nodes : List Node} {m n : Nat} {S T : CodeTree} (hS : Unfolds nodes m S) (hT : Unfolds nodes n T)
    (h : S.size < T.size) : m ≠ n := by
  rintro rfl
  exact absurd (hS.unique hT ▸ h) (Nat.lt_irrefl _)

/-! ## The walk along one code -/

/-- The walk on from the node that a bit has led to: a leaf gives its symbol and sends the walk back to the root (R310). -/
def walkOn (t : Tree) (bits : Bits) (n : Nat) : Option (List Byte) :=
  match t.nodes[n]? with
  | some (.leaf x _) => (walkBits t bits t.root.toNat).map (x :: ·)
  | _ => walkBits t bits n

theorem walkOn_of_leaf {t : Tree} {n : Nat} {x : Byte} {f : Word} (h : t.nodes[n]? = some (.leaf x f)) (bits : Bits) :
    walkOn t bits n = (walkBits t bits t.root.toNat).map (x :: ·) := by
  rw [walkOn, h]

theorem walkOn_of_internal {t : Tree} {n : Nat} {l r : BitVec 9} {f : Word} (h : t.nodes[n]? = some (.internal l r f)) (bits : Bits) :
    walkOn t bits n = walkBits t bits n := by
  rw [walkOn, h]

theorem walkBits_cons {t : Tree} {n : Nat} {l r : BitVec 9} {f : Word} (h : t.nodes[n]? = some (.internal l r f)) (bit : Bool)
    (bits : Bits) : walkBits t (bit :: bits) n = walkOn t bits (if bit then r else l).toNat := by
  rw [walkBits, h]
  rfl

theorem walkBits_nil_root (t : Tree) : walkBits t [] t.root.toNat = some [] := if_pos rfl

/-- Along a path of the subtree at `n` the walk gives the symbol of the path's leaf. -/
theorem walkOn_append_of_mem_paths {t : Tree} {n : Nat} {S : CodeTree} (hS : Unfolds t.nodes n S) {x : Byte} {b : Bits}
    (hb : (x, b) ∈ S.paths) (rest : Bits) : walkOn t (b ++ rest) n = (walkBits t rest t.root.toNat).map (x :: ·) := by
  induction hS generalizing b with
  | leaf hn =>
    obtain ⟨rfl, rfl⟩ := Prod.mk.inj (List.mem_singleton.1 hb)
    exact walkOn_of_leaf hn rest
  | node hn _ _ ihl ihr =>
    obtain ⟨bit, b', rfl, hsub⟩ := CodeTree.mem_paths_node.1 hb
    rw [walkOn_of_internal hn, List.cons_append, walkBits_cons hn]
    cases bit with
    | false => exact ihl hsub
    | true => exact ihr hsub

/-- A walk that succeeds from below the root, or from the root with bits left, goes down a path first: it may only end at the root. -/
theorem exists_path_of_walkOn {t : Tree} {T : CodeTree} (hT : Unfolds t.nodes t.root.toNat T) {n : Nat} {S : CodeTree}
    (hS : Unfolds t.nodes n S) (hsize : S.size ≤ T.size) {bits : Bits} (hbits : bits = [] → n ≠ t.root.toNat) {out : List Byte}
    (h : walkOn t bits n = some out) :
    ∃ x b rest out', (x, b) ∈ S.paths ∧ bits = b ++ rest ∧ out = x :: out' ∧ walkBits t rest t.root.toNat = some out' := by
  induction hS generalizing bits with
  | @leaf n x _ hn =>
    rw [walkOn_of_leaf hn] at h
    obtain ⟨out', hwalk, rfl⟩ := Option.map_eq_some_iff.1 h
    exact ⟨x, [], bits, out', List.mem_singleton.2 rfl, rfl, rfl, hwalk⟩
  | @node n _ _ _ L R hn hL hR ihl ihr =>
    rw [walkOn_of_internal hn] at h
    cases bits with
    | nil => rw [walkBits, if_neg (hbits rfl)] at h; cases h
    | cons bit bits =>
      rw [walkBits_cons hn] at h
      rw [CodeTree.size] at hsize
      have hchild : ∃ x b rest out', (x, b) ∈ (if bit then R else L).paths ∧ bits = b ++ rest ∧ out = x :: out' ∧
          walkBits t rest t.root.toNat = some out' := by
        cases bit with
        | false => exact ihl (by omega) (fun _ => hL.ne_of_size_lt hT (by omega)) h
        | true => exact ihr (by omega) (fun _ => hR.ne_of_size_lt hT (by omega)) h
      obtain ⟨x, b, rest, out', hb, rfl, hout, hwalk⟩ := hchild
      exact ⟨x, bit :: b, rest, out', CodeTree.mem_paths_node.2 ⟨bit, b, rfl, hb⟩, rfl, hout, hwalk⟩

/-! ## The walk from the root -/

theorem walkOn_root {t : Tree} (h : t.wf) (bits : Bits) : walkOn t bits t.root.toNat = walkBits t bits t.root.toNat := by
  obtain ⟨L, R, hT, -, -⟩ := exists_unfolds_of_wf h
  cases hT with
  | node hn _ _ => exact walkOn_of_internal hn bits

section
variable {t : Tree} (ht : t.wf)
include ht

/-- From the root, a walk that has bits to read gives a first symbol and has read that symbol's code. -/
theorem exists_code_of_walkBits {bits : Bits} (hbits : bits ≠ []) {out : List Byte} (h : walkBits t bits t.root.toNat = some out) :
    ∃ x rest out', (deriveCodes t).get x ≠ [] ∧ bits = (deriveCodes t).get x ++ rest ∧ out = x :: out' ∧
      walkBits t rest t.root.toNat = some out' := by
  obtain ⟨T, hT, -, hcodes⟩ := codesFrom_deriveCodes ht
  rw [← walkOn_root ht] at h
  obtain ⟨x, b, rest, out', hb, hsplit, hout, hwalk⟩ := exists_path_of_walkOn hT hT le_rfl (absurd · hbits) h
  obtain ⟨rfl, hne⟩ := (hcodes.mem_paths_iff x b).1 hb
  exact ⟨x, rest, out', hne, hsplit, hout, hwalk⟩

theorem walkBits_code_append {x : Byte} (hx : (deriveCodes t).get x ≠ []) (rest : Bits) :
    walkBits t ((deriveCodes t).get x ++ rest) t.root.toNat = (walkBits t rest t.root.toNat).map (x :: ·) := by
  obtain ⟨T, hT, -, hcodes⟩ := codesFrom_deriveCodes ht
  rw [← walkOn_root ht]
  exact walkOn_append_of_mem_paths hT ((hcodes.mem_paths_iff x _).2 ⟨rfl, hx⟩) rest

/-- The walk from the root reads exactly the concatenated codes of the symbols it gives (R311). -/
theorem walkBits_root_eq_some_iff (bits : Bits) (out : List Byte) : walkBits t bits t.root.toNat = some out ↔
    (∀ x ∈ out, (deriveCodes t).get x ≠ []) ∧ bits = codeBits out (deriveCodes t) := by
  constructor
  · intro h
    induction out generalizing bits with
    | nil =>
      refine ⟨nofun, by_contra fun hbits => ?_⟩
      obtain ⟨x, rest, out', -, -, hout, -⟩ := exists_code_of_walkBits ht hbits h
      cases hout
    | cons x out ih =>
      have hbits : bits ≠ [] := by
        rintro rfl
        cases (walkBits_nil_root t).symm.trans h
      obtain ⟨y, rest, out', hy, rfl, hout, hwalk⟩ := exists_code_of_walkBits ht hbits h
      cases hout
      obtain ⟨hcoded, rfl⟩ := ih rest hwalk
      exact ⟨List.forall_mem_cons.2 ⟨hy, hcoded⟩, rfl⟩
  · rintro ⟨hcoded, rfl⟩
    induction out with
    | nil => exact walkBits_nil_root t
    | cons x out ih =>
      obtain ⟨hx, hout⟩ := List.forall_mem_cons.1 hcoded
      calc walkBits t (codeBits (x :: out) (deriveCodes t)) t.root.toNat
          = (walkBits t (codeBits out (deriveCodes t)) t.root.toNat).map (x :: ·) := walkBits_code_append ht hx _
        _ = some (x :: out) := by rw [ih hout, Option.map_some]

theorem unpackBits_eq_some_iff (p out : List Byte) (bc : Nat) : unpackBits p bc t = some out ↔
    ceilDiv bc 8 ≤ p.length ∧ (∀ x ∈ out, (deriveCodes t).get x ≠ []) ∧ bitsOfBytes p bc = codeBits out (deriveCodes t) := by
  rw [unpackBits, ← walkBits_root_eq_some_iff ht, ← Nat.not_lt]
  split
  next hshort => simp [hshort]
  next hlong => simp [hlong]

end

theorem coded_of_packBits_eq_some {syms p : List Byte} {c : CodeTable} {bc : Nat} (h : packBits syms c = some (p, bc)) :
    ∀ x ∈ syms, c.get x ≠ [] := by
  rw [packBits] at h
  split at h
  next => cases h
  next hcoded => simpa using hcoded

end Sys2Proof.Machine

open Sys2Proof Sys2Proof.Machine

/-- Settles O38: the walk down the tree reads one path after another, and the paths are the codes; packing keeps their bits. -/
theorem unpackInvertsPack : Obligations.UnpackInvertsPack := by
  refine ⟨fun t p out bc ht => unpackBits_eq_some_iff ht p out bc, fun t syms p bc ht hpack => ?_⟩
  have hcoded := coded_of_packBits_eq_some hpack
  obtain ⟨rfl, rfl⟩ := packBits_eq_some hpack
  exact (unpackBits_eq_some_iff ht _ _ _).2
    ⟨(length_bytesOfBits _).ge, hcoded, bitsOfBytes_of_fieldHolds (fieldHolds_bytesOfBits _)⟩

end

section
/-! PROOFS. The tree of a frequency table as a binary tree, and that each symbol present has a code (43_huffman_tree_builder.md R242 to
R244). -/

namespace Sys2Proof.Machine

/-! ## The symbols present -/

theorem nodup_allBytes : allBytes.Nodup := by
  refine List.nodup_range.map_on fun i hi j hj h => ?_
  have hi := List.mem_range.1 hi
  have hj := List.mem_range.1 hj
  have h := congrArg BitVec.toNat h
  rwa [BitVec.toNat_ofNat, BitVec.toNat_ofNat, Nat.mod_eq_of_lt hi, Nat.mod_eq_of_lt hj] at h

theorem length_le_of_nodup_bytes {syms : List Byte} (h : syms.Nodup) : syms.length ≤ 256 :=
  (h.length_le_of_subset fun x _ => mem_allBytes x).trans_eq (by rw [allBytes, List.length_map, List.length_range])

/-- The symbols present in a byte list that R7 admits are its bytes: no count wraps. -/
theorem mem_presentSymbols_analyze {l : List Byte} (hlen : l.length < 2 ^ 32) (x : Byte) :
    x ∈ presentSymbols (analyze l) ↔ x ∈ l := by
  have hcount : l.count x < 2 ^ 32 := List.count_le_length.trans_lt hlen
  have hzero : BitVec.ofNat 32 (l.count x) = 0 ↔ l.count x = 0 := by
    rw [← BitVec.toNat_inj, BitVec.toNat_ofNat, Nat.mod_eq_of_lt hcount]
    rfl
  rw [presentSymbols, List.mem_filter, analyze, Table.get_tabulate, bne_iff_ne, ne_eq, hzero, List.count_eq_zero, not_not]
  exact and_iff_right (mem_allBytes x)

/-! ## Trees in an arena -/

theorem Unfolds.lt_length {nodes : List Node} {n : Nat} {T : CodeTree} (h : Unfolds nodes n T) : n < nodes.length := by
  cases h with
  | leaf hn => exact (List.getElem?_eq_some_iff.1 hn).1
  | node hn _ _ => exact (List.getElem?_eq_some_iff.1 hn).1

/-- New nodes leave the trees of the arena as they are. -/
theorem Unfolds.append {nodes : List Node} {n : Nat} {T : CodeTree} (h : Unfolds nodes n T) (more : List Node) :
    Unfolds (nodes ++ more) n T := by
  have hkeep {m : Nat} {node : Node} (hm : nodes[m]? = some node) : (nodes ++ more)[m]? = some node :=
    (List.getElem?_append_left (List.getElem?_eq_some_iff.1 hm).1).trans hm
  induction h with
  | leaf hn => exact .leaf (hkeep hn)
  | node hn _ _ ihl ihr => exact .node (hkeep hn) ihl ihr

/-- From its root the arena is one binary tree, which has all its nodes and the given symbols at its leaves. -/
def Tree.HasLeaves (t : Tree) (syms : List Byte) : Prop :=
  ∃ T, Unfolds t.nodes t.root.toNat T ∧ T.size = t.nodes.length ∧ T.symbols.Perm syms

/-- The tree of one symbol (R244). -/
theorem hasLeaves_buildDegenerate (x : Byte) (n : Word) : (buildDegenerate x n).HasLeaves [x, x + 1] :=
  ⟨.node (.leaf x) (.leaf (x + 1)), .node rfl (.leaf rfl) (.leaf rfl), rfl, .rfl⟩

/-- The codes of a tree with two or more leaves, their symbols distinct. -/
theorem Tree.HasLeaves.codesFrom {t : Tree} {syms : List Byte} (h : t.HasLeaves syms) (hnodup : syms.Nodup)
    (htwo : 2 ≤ syms.length) : ∃ T, CodesFrom T (deriveCodes t) ∧ ∀ x ∈ syms, (deriveCodes t).get x ≠ [] := by
  obtain ⟨T, hT, hsize, hperm⟩ := h
  have hcodes : CodesFrom T (deriveCodes t) := by
    refine ⟨hperm.nodup_iff.2 hnodup, hperm.length_eq.trans_le (length_le_of_nodup_bytes hnodup), fun x b hb => ?_,
      deriveCodes_eq_tableOf hT hsize.le⟩
    cases T with
    | leaf y => exact absurd (hperm.length_eq.trans_ge htwo) (by simp [CodeTree.symbols])
    | node l r => exact CodeTree.ne_nil_of_mem_paths_node hb
  exact ⟨T, hcodes, fun x hx => (hcodes.mem_symbols_iff x).1 (hperm.mem_iff.2 hx)⟩

/-! ## The queue as a forest -/

/-- The keys of the queue are the roots of trees that have all nodes of the arena and the given symbols at their leaves: the invariant of
the loop of R242. -/
def IsForest (nodes : List Node) (queue : List Key) (syms : List Byte) : Prop :=
  ∃ trees, List.Forall₂ (fun key T => Unfolds nodes key.seq T) queue trees ∧ (trees.map CodeTree.size).sum = nodes.length ∧
    (trees.flatMap CodeTree.symbols).Perm syms

theorem perm_enqueue (k : Key) (queue : List Key) : (enqueue k queue).Perm (k :: queue) := by
  induction queue with
  | nil => rfl
  | cons q qs ih =>
    rw [enqueue]
    split
    · rfl
    · exact (ih.cons q).trans (.swap k q qs)

theorem isForest_of_perm {nodes : List Node} {queue queue' : List Key} {syms : List Byte} (hperm : queue'.Perm queue)
    (h : IsForest nodes queue syms) : IsForest nodes queue' syms := by
  obtain ⟨trees, hroots, hsize, hsyms⟩ := h
  obtain ⟨trees', hroots', hperm'⟩ := List.perm_comp_forall₂ hperm hroots
  exact ⟨trees', hroots', (hperm'.map _).sum_eq.trans hsize, (hperm'.flatMap_right _).trans hsyms⟩

/-- Keys of leaves are roots of one-leaf trees, the leaves standing in the arena from index `n` on. -/
theorem exists_forall₂_leafQueue (f : FreqTable) {nodes : List Node} {n : Nat} {syms : List Byte}
    (h : ∀ i x, syms[i]? = some x → nodes[n + i]? = some (.leaf x (f.get x))) :
    ∃ trees, List.Forall₂ (fun key T => Unfolds nodes key.seq T) (leafQueue f n syms) trees ∧
      trees.Perm (syms.map CodeTree.leaf) := by
  induction syms generalizing n with
  | nil => exact ⟨[], .nil, .rfl⟩
  | cons x xs ih =>
    obtain ⟨trees, hroots, hperm⟩ := ih (n := n + 1) fun i y hy => by
      rw [Nat.add_assoc, Nat.add_comm 1 i]
      exact h (i + 1) y hy
    obtain ⟨trees', hroots', hperm'⟩ :=
      List.perm_comp_forall₂ (perm_enqueue ⟨(f.get x).toNat, n⟩ _) (.cons (Unfolds.leaf (h 0 x rfl)) hroots)
    exact ⟨trees', hroots', hperm'.trans (hperm.cons _)⟩

/-- The queue that the loop of R242 begins with. -/
theorem isForest_leafQueue (f : FreqTable) (syms : List Byte) :
    IsForest (syms.map fun x => .leaf x (f.get x)) (leafQueue f 0 syms) syms := by
  obtain ⟨trees, hroots, hperm⟩ := exists_forall₂_leafQueue f (nodes := syms.map fun x => .leaf x (f.get x)) (n := 0) (syms := syms)
    fun i x hx => by simp [hx]
  refine ⟨trees, hroots, (hperm.map _).sum_eq.trans ?_, (hperm.flatMap_right _).trans ?_⟩
  · simp [Function.comp_def, CodeTree.size]
  · simp [List.flatMap_map, CodeTree.symbols]

/-- Every tree has one leaf more than it has inner nodes. -/
theorem sum_size_add_length (trees : List CodeTree) :
    (trees.map CodeTree.size).sum + trees.length = 2 * (trees.flatMap CodeTree.symbols).length := by
  induction trees with
  | nil => rfl
  | cons T trees ih =>
    have := T.size_add_one
    simp only [List.map_cons, List.sum_cons, List.length_cons, List.flatMap_cons, List.length_append]
    omega

/-- Each merge adds a node and takes a key away (R242). -/
theorem IsForest.length_add_length {nodes : List Node} {queue : List Key} {syms : List Byte} (h : IsForest nodes queue syms) :
    nodes.length + queue.length = 2 * syms.length := by
  obtain ⟨trees, hroots, hsize, hsyms⟩ := h
  rw [← hsize, hroots.length_eq, sum_size_add_length, hsyms.length_eq]

/-- A node of an arena over at most 256 symbols is numbered by 9 bits. -/
theorem toNat_ofNat_seq {nodes : List Node} {k : Key} {queue : List Key} {syms : List Byte} (h : IsForest nodes (k :: queue) syms)
    (hfew : syms.length ≤ 256) {n : Nat} (hn : n < nodes.length) : (BitVec.ofNat 9 n).toNat = n := by
  have hlen := h.length_add_length
  rw [List.length_cons] at hlen
  exact Nat.mod_eq_of_lt (show n < 512 by omega)

/-- One turn of the loop makes two trees the children of a new node (R242). -/
theorem isForest_merge {nodes : List Node} {a b : Key} {queue : List Key} {syms : List Byte} (h : IsForest nodes (a :: b :: queue) syms)
    (hfew : syms.length ≤ 256) (freq : Nat) (w : Word) :
    IsForest (nodes ++ [.internal (BitVec.ofNat 9 a.seq) (BitVec.ofNat 9 b.seq) w]) (enqueue ⟨freq, nodes.length⟩ queue) syms := by
  refine isForest_of_perm (perm_enqueue _ _) ?_
  have hseq {n : Nat} (hn : n < nodes.length) := toNat_ofNat_seq h hfew hn
  obtain ⟨_, hall, hsize, hsyms⟩ := h
  obtain ⟨A, _, hA, hrest, rfl⟩ := List.forall₂_cons_left_iff.1 hall
  obtain ⟨B, trees, hB, hroots, rfl⟩ := List.forall₂_cons_left_iff.1 hrest
  refine ⟨.node A B :: trees, .cons (.node List.getElem?_concat_length ?_ ?_) (hroots.imp fun _ _ hT => hT.append _), ?_, ?_⟩
  · rw [hseq hA.lt_length]
    exact hA.append _
  · rw [hseq hB.lt_length]
    exact hB.append _
  · simp only [List.map_cons, List.sum_cons, CodeTree.size, List.length_append, List.length_singleton] at hsize ⊢
    omega
  · simpa [CodeTree.symbols] using hsyms

theorem mergeLoop_singleton (n : Nat) (k : Key) (nodes : List Node) : mergeLoop n [k] nodes = ⟨nodes, BitVec.ofNat 9 k.seq⟩ := by
  cases n <;> rfl

/-- A queue with one key left is the whole arena as one tree. -/
theorem IsForest.hasLeaves {nodes : List Node} {k : Key} {syms : List Byte} (h : IsForest nodes [k] syms) (hfew : syms.length ≤ 256) :
    Tree.HasLeaves ⟨nodes, BitVec.ofNat 9 k.seq⟩ syms := by
  have hseq {n : Nat} (hn : n < nodes.length) := toNat_ofNat_seq h hfew hn
  obtain ⟨_, hall, hsize, hsyms⟩ := h
  obtain ⟨T, _, hT, hnil, rfl⟩ := List.forall₂_cons_left_iff.1 hall
  obtain rfl := List.forall₂_nil_left_iff.1 hnil
  refine ⟨T, ?_, by simpa using hsize, by simpa using hsyms⟩
  rw [hseq hT.lt_length]
  exact hT

/-- The loop ends with one tree. -/
theorem hasLeaves_mergeLoop {n : Nat} {nodes : List Node} {queue : List Key} {syms : List Byte} (h : IsForest nodes queue syms)
    (hfew : syms.length ≤ 256) (hpos : queue ≠ []) (hfuel : queue.length ≤ n + 1) :
    (mergeLoop n queue nodes).HasLeaves syms := by
  induction n generalizing queue nodes with
  | zero =>
    obtain ⟨k, rfl⟩ := List.length_eq_one_iff.1 (hfuel.antisymm (List.length_pos_iff.2 hpos))
    exact mergeLoop_singleton 0 k nodes ▸ h.hasLeaves hfew
  | succ n ih =>
    match queue with
    | [k] => exact mergeLoop_singleton _ k nodes ▸ h.hasLeaves hfew
    | a :: b :: queue =>
      have hlen := (perm_enqueue ⟨a.freq + b.freq, nodes.length⟩ queue).length_eq
      refine ih (isForest_merge h hfew _ _) (List.ne_nil_of_length_pos ?_) ?_
      · rw [hlen]
        exact Nat.succ_pos _
      · rw [hlen]
        exact Nat.le_of_succ_le_succ hfuel

/-! ## The tree of a frequency table -/

theorem nodup_presentSymbols (f : FreqTable) : (presentSymbols f).Nodup := nodup_allBytes.filter _

theorem hasLeaves_buildTree {f : FreqTable} (h : presentSymbols f ≠ []) : (buildTree f).HasLeaves (presentSymbols f) := by
  have hforest := isForest_leafQueue f (presentSymbols f)
  have hfew := length_le_of_nodup_bytes (nodup_presentSymbols f)
  have hlen := hforest.length_add_length
  have hpos := List.length_pos_iff.2 h
  rw [List.length_map] at hlen
  exact hasLeaves_mergeLoop hforest hfew (List.ne_nil_of_length_pos (by omega)) (by omega)

/-- A frequency table that is not all 0 has a tree, and the tree gives each symbol present a code (R243). -/
theorem exists_treeOf_eq_some {f : FreqTable} (h : presentSymbols f ≠ []) : ∃ t deg T, treeOf f = some (t, deg) ∧
    CodesFrom T (deriveCodes t) ∧ ∀ x ∈ presentSymbols f, (deriveCodes t).get x ≠ [] := by
  have hbuild := hasLeaves_buildTree h
  have hnodup := nodup_presentSymbols f
  unfold treeOf
  split
  next hnone => exact absurd hnone h
  next x hone =>
    obtain ⟨T, hcodes, hcoded⟩ := (hasLeaves_buildDegenerate x (f.get x)).codesFrom (by simp) (by simp)
    exact ⟨_, _, T, rfl, hcodes, by simpa [hone] using hcoded x List.mem_cons_self⟩
  next hnone hone =>
    have htwo : 2 ≤ (presentSymbols f).length := by
      match hsyms : presentSymbols f with
      | [] => exact absurd hsyms hnone
      | [x] => exact absurd hsyms (hone x)
      | _ :: _ :: _ => exact Nat.le_add_left _ _
    obtain ⟨T, hcodes, hcoded⟩ := hbuild.codesFrom hnodup htwo
    exact ⟨_, _, T, rfl, hcodes, hcoded⟩

end Sys2Proof.Machine

end

section
/-! PROOFS. What COMPRESS makes of a byte list (R331), and DECOMPRESS of a framed stream (48_huffman_decoder.md R351, R352). -/

namespace Sys2Proof.Machine

/-! ## Big-endian numbers -/

@[simp] theorem length_be32 (n : Nat) : (be32 n).length = 4 := rfl

theorem rdBe32_be32 {n : Nat} (h : n < 2 ^ 32) : rdBe32 (be32 n) = n := by
  simp only [rdBe32, be32, List.foldl_cons, List.foldl_nil, BitVec.toNat_ofNat, Nat.shiftRight_eq_div_pow]
  omega

/-! ## What COMPRESS makes -/

/-- The success of COMPRESS on a non-empty input whose pairs are coded by `c` (R331). -/
def compressSuccess (b : List Byte) (c : CodeTable) (deg : Bool) : Success :=
  let bits := codeBits (rleEncode b) c
  ⟨streamOf b.length (serializeHeader c) bits.length (bytesOfBits bits), b.length, ⟨false, deg, rleSplit b⟩, some bits.length,
    keepOnlyCode c⟩

theorem rleEncode_ne_nil {b : List Byte} (h : b ≠ []) : rleEncode b ≠ [] := fun hnil => by
  have hdecode := rleDecodeInvertsRleEncode b
  rw [hnil] at hdecode
  exact h (Option.some.inj hdecode).symm

theorem packBits_of_coded {syms : List Byte} {c : CodeTable} (h : ∀ x ∈ syms, c.get x ≠ []) :
    packBits syms c = some (bytesOfBits (codeBits syms c), (codeBits syms c).length) :=
  if_neg (by simpa using h)

/-- COMPRESS finds a tree, and every byte of the pairs has a code in it (R333). -/
theorem exists_compressResult_eq_ok {b : List Byte} (hne : b ≠ []) (hlen : b.length ≤ 2 ^ 28) : ∃ T c deg, CodesFrom T c ∧
    (∀ x ∈ rleEncode b, c.get x ≠ []) ∧ compressResult b = .ok (compressSuccess b c deg) := by
  have hpairs : (rleEncode b).length < 2 ^ 32 := by
    have := length_rleEncode_le b
    omega
  have hmem := mem_presentSymbols_analyze hpairs
  obtain ⟨x, hx⟩ := List.exists_mem_of_ne_nil _ (rleEncode_ne_nil hne)
  obtain ⟨t, deg, T, htree, hcodes, hcoded⟩ := exists_treeOf_eq_some (List.ne_nil_of_mem ((hmem x).2 hx))
  have hcoded : ∀ x ∈ rleEncode b, (deriveCodes t).get x ≠ [] := fun x hx => hcoded x ((hmem x).2 hx)
  refine ⟨T, deriveCodes t, deg, hcodes, hcoded, ?_⟩
  unfold compressResult
  split
  next => exact absurd rfl hne
  next => simp only [htree, packBits_of_coded hcoded, compressSuccess]

/-! ## The parts of a Huffman stream -/

/-- What DECOMPRESS makes of the bytes `h` that follow the marker and a raw length `n` in range (R351). -/
def decompressFrom (n : Nat) (h : List Byte) : Result :=
  match parseHeader h with
  | .error e => .error (e, .headerParsing)
  | .ok p =>
    if h.length < p.used + 4 then .error (.truncatedStream, .headerParsing)
    else decompressPayload (5 + h.length) n (rdBe32 ((h.drop p.used).take 4)) p (h.drop (p.used + 4))

theorem decompressResult_framed {n : Nat} (hpos : 0 < n) (hn : n < 2 ^ 32) (h : List Byte) :
    decompressResult (huffmanMarker :: be32 n ++ h) = decompressFrom n h := by
  have hlen : (huffmanMarker :: be32 n ++ h).length = 5 + h.length := Nat.add_comm h.length 5
  have hdrop (k : Nat) : (huffmanMarker :: be32 n ++ h).drop (5 + k) = h.drop k := by
    rw [← List.drop_drop]
    rfl
  have hread : rdBe32 (((huffmanMarker :: be32 n ++ h).drop 1).take 4) = n := rdBe32_be32 hn
  calc decompressResult (huffmanMarker :: be32 n ++ h)
      = decompressHuffman (huffmanMarker :: be32 n ++ h) := rfl
    _ = decompressFrom n h := by
      rw [decompressHuffman, hlen, if_neg (by omega), hread]
      dsimp only
      rw [if_neg hpos.ne', hdrop 0, List.drop_zero, decompressFrom]
      cases parseHeader h with
      | error e => rfl
      | ok p =>
        dsimp only
        simp only [Nat.add_assoc, Nat.add_lt_add_iff_left, hdrop]

section
variable {n : Nat} {h : List Byte}

theorem decompressFrom_headerError {e : ErrorKind} (hparse : parseHeader h = .error e) :
    decompressFrom n h = .error (e, .headerParsing) := by
  rw [decompressFrom, hparse]

theorem decompressFrom_bitCountCut {p : ParsedHeader} (hparse : parseHeader h = .ok p) (hcut : h.length < p.used + 4) :
    decompressFrom n h = .error (.truncatedStream, .headerParsing) := by
  rw [decompressFrom, hparse]
  exact if_pos hcut

end

/-- After a header and a bit count the rest is the payload. -/
theorem decompressFrom_payload {n bc : Nat} {header rest : List Byte} {p : ParsedHeader} (hbc : bc < 2 ^ 32)
    (hparse : parseHeader (header ++ (be32 bc ++ rest)) = .ok p) (hused : p.used = header.length) :
    decompressFrom n (header ++ (be32 bc ++ rest)) =
      decompressPayload (5 + (header ++ (be32 bc ++ rest)).length) n bc p rest := by
  rw [decompressFrom, hparse]
  dsimp only
  rw [if_neg (by simp [hused]), hused, List.drop_left, ← List.drop_drop, List.drop_left, List.take_left' (length_be32 bc),
    List.drop_left' (length_be32 bc), rdBe32_be32 hbc]

theorem decompressPayload_cut {len n bc : Nat} {p : ParsedHeader} {rest : List Byte} (h : rest.length < ceilDiv bc 8) :
    decompressPayload len n bc p rest = .error (.truncatedStream, .bitUnpacking) := if_pos h

theorem decompressPayload_eq_ok {len n bc : Nat} {p : ParsedHeader} {rest syms out : List Byte} (hlen : rest.length = ceilDiv bc 8)
    (hunpack : unpackBits rest bc p.tree = some syms) (hrle : rleDecode syms = some out) (hout : out.length = n) :
    decompressPayload len n bc p rest = .ok ⟨out, len, Info.none, some bc, keepOnlyCode p.code⟩ := by
  rw [decompressPayload, if_neg hlen.not_lt, if_neg hlen.not_gt, hunpack]
  dsimp only
  rw [decompressExpand, hrle]
  exact if_neg (not_not.2 hout)

/-! ## The parsed tree -/

/-- The tree that the parser closes for a valid code table's header unfolds to the tree of the codes (R271, R275). -/
theorem CodesFrom.exists_parseHeader_serializeHeader {T : CodeTree} {c : CodeTable} (h : CodesFrom T c) (rest : List Byte) :
    ∃ nodes, parseHeader (serializeHeader c ++ rest) = .ok ⟨⟨nodes, 0⟩, c, (serializeHeader c).length⟩ ∧ Unfolds nodes 0 T := by
  have hes := map_code_serializedEntries c
  have hfields := fieldHolds_serializedEntries c
  obtain ⟨hmin, hmax⟩ := h.length_entries_bounds hes
  rw [serializeHeader_eq_headerBytesOf]
  obtain ⟨nodes, hparse, -⟩ := h.exists_parseHeader_eq_ok hes hfields rest
  refine ⟨nodes, hparse, ?_⟩
  obtain ⟨nodes', hclose, hnodes⟩ := exists_mapM_eq_some fun s => isSome_closeSlot h.mem_codesOf_iff (s := s)
  rw [parseHeader_headerBytesOf (by omega) hmax (h.listing hes hfields) le_rfl, Nat.sub_self, parseEntries] at hparse
  simp only [Except.bind, stateAfter, hes, hclose, tableOf_codesOf, Option.elim] at hparse
  obtain rfl : nodes' = nodes := congrArg (·.tree.nodes) (Except.ok.inj hparse)
  have hsize : T.size ≤ 512 := by
    have hlen := congrArg List.length hes
    rw [List.length_map] at hlen
    rw [h.size_eq, ← hlen]
    omega
  rw [← idxOf_nil_numbering (codesOf c)]
  exact unfolds_of_closed_arena h.mem_codesOf_iff hnodes hsize fun x b hb => hb

/-- Down an arena that unfolds to the tree of the codes, the walk reads code after code (R310). -/
theorem CodesFrom.walkBits_codeBits {T : CodeTree} {c : CodeTable} (h : CodesFrom T c) {t : Tree}
    (hT : Unfolds t.nodes t.root.toNat T) {syms : List Byte} (hcoded : ∀ x ∈ syms, c.get x ≠ []) :
    walkBits t (codeBits syms c) t.root.toNat = some syms := by
  have hroot (bits : Bits) : walkOn t bits t.root.toNat = walkBits t bits t.root.toNat := by
    cases hT with
    | @leaf _ x _ _ => exact absurd rfl (h.ne_nil x [] List.mem_cons_self)
    | node hn _ _ => exact walkOn_of_internal hn bits
  induction syms with
  | nil => exact walkBits_nil_root t
  | cons x syms ih =>
    obtain ⟨hx, hsyms⟩ := List.forall_mem_cons.1 hcoded
    calc walkBits t (codeBits (x :: syms) c) t.root.toNat
        = (walkBits t (codeBits syms c) t.root.toNat).map (x :: ·) :=
          (hroot _).symm.trans (walkOn_append_of_mem_paths hT ((h.mem_paths_iff x _).2 ⟨rfl, hx⟩) _)
      _ = some (x :: syms) := by rw [ih hsyms, Option.map_some]

theorem CodesFrom.unpackBits_codeBits {T : CodeTree} {c : CodeTable} (h : CodesFrom T c) {t : Tree}
    (hT : Unfolds t.nodes t.root.toNat T) {syms : List Byte} (hcoded : ∀ x ∈ syms, c.get x ≠ []) :
    unpackBits (bytesOfBits (codeBits syms c)) (codeBits syms c).length t = some syms := by
  rw [unpackBits, if_neg (length_bytesOfBits _).not_lt, bitsOfBytes_of_fieldHolds (fieldHolds_bytesOfBits _)]
  exact h.walkBits_codeBits hT hcoded

/-! ## The stream of a non-empty input -/

theorem streamOf_eq (n : Nat) (header : List Byte) (bc : Nat) (payload : List Byte) :
    streamOf n header bc payload = huffmanMarker :: be32 n ++ (header ++ (be32 bc ++ payload)) := by
  simp [streamOf]

/-- The bit count of a stream that fits DMEM fits its 32 bits (R147). -/
theorem length_codeBits_lt {b : List Byte} {c : CodeTable} {deg : Bool} (h : (compressSuccess b c deg).out.length ≤ 2 ^ 28) :
    (codeBits (rleEncode b) c).length < 2 ^ 32 := by
  simp only [compressSuccess, streamOf_eq, List.length_append, length_bytesOfBits, ceilDiv] at h
  omega

/-- DECOMPRESS of a non-empty input's stream: the header gives the codes back, the payload the pairs, and these the input. -/
theorem decompressResult_compressSuccess {b : List Byte} {T : CodeTree} {c : CodeTable} {deg : Bool} (hne : b ≠ [])
    (hlen : b.length < 2 ^ 32) (hcodes : CodesFrom T c) (hcoded : ∀ x ∈ rleEncode b, c.get x ≠ [])
    (hfit : (compressSuccess b c deg).out.length ≤ 2 ^ 28) :
    ∃ r, decompressResult (compressSuccess b c deg).out = .ok r ∧ r.out = b := by
  obtain ⟨nodes, hparse, hT⟩ := hcodes.exists_parseHeader_serializeHeader
    (be32 (codeBits (rleEncode b) c).length ++ bytesOfBits (codeBits (rleEncode b) c))
  have hunpack := hcodes.unpackBits_codeBits (t := ⟨nodes, 0⟩) hT hcoded
  rw [compressSuccess, streamOf_eq, decompressResult_framed (List.length_pos_iff.2 hne) hlen,
    decompressFrom_payload (length_codeBits_lt hfit) hparse rfl]
  exact ⟨_, decompressPayload_eq_ok (length_bytesOfBits _) hunpack (rleDecodeInvertsRleEncode b) rfl, rfl⟩

end Sys2Proof.Machine

open Sys2Proof Sys2Proof.Machine

/-- Settles O39: the empty stream by evaluation, any other by the round trips of its header, its payload and its pairs. -/
theorem decompressInvertsCompress : Obligations.DecompressInvertsCompress := by
  intro b hlen
  by_cases hne : b = []
  · subst hne
    exact ⟨_, _, compressResult_nil, fun _ => ⟨decompressResult_emptyStream, rfl⟩⟩
  · obtain ⟨T, c, deg, hcodes, hcoded, hcompress⟩ := exists_compressResult_eq_ok hne hlen
    by_cases hfit : (compressSuccess b c deg).out.length ≤ 2 ^ 28
    · obtain ⟨r, hr, hout⟩ := decompressResult_compressSuccess hne (by omega) hcodes hcoded hfit
      exact ⟨_, r, hcompress, fun _ => ⟨hr, hout⟩⟩
    · exact ⟨_, emptyStreamSuccess [] 0, hcompress, fun h => absurd h hfit⟩

end

section
/-! PROOFS. Streams cut short (48_huffman_decoder.md R353): where the cut of a header falls, and at which stage DECOMPRESS meets it. -/

namespace Sys2Proof.Machine

/-! ## Cut headers -/

/-- A cut inside a concatenation of blocks falls into one of them, after whole ones. -/
theorem exists_take_flatMap {α β : Type} (g : α → List β) {xs : List α} {k : Nat} (h : k < (xs.flatMap g).length) :
    ∃ before x after i, xs = before ++ x :: after ∧ i < (g x).length ∧ (xs.flatMap g).take k = before.flatMap g ++ (g x).take i := by
  induction xs generalizing k with
  | nil => exact absurd h (Nat.not_lt_zero k)
  | cons x xs ih =>
    rw [List.flatMap_cons, List.length_append] at h
    rw [List.flatMap_cons, List.take_append]
    by_cases hx : k < (g x).length
    · refine ⟨[], x, xs, k, rfl, hx, ?_⟩
      rw [Nat.sub_eq_zero_of_le hx.le, List.take_zero, List.append_nil]
      rfl
    · obtain ⟨before, y, after, i, rfl, hi, htake⟩ := ih (k := k - (g x).length) (by omega)
      refine ⟨x :: before, y, after, i, rfl, hi, ?_⟩
      rw [htake, List.take_of_length_le (Nat.not_lt.1 hx), List.flatMap_cons, List.append_assoc]

/-- A listing cut short is a truncated header, wherever the cut is (R273). -/
theorem parseHeader_take_headerBytesOf {es : List HeaderEntry} (hmax : es.length ≤ 256) (hes : Listing es.length es) {k : Nat}
    (hk : k < (headerBytesOf es.length es).length) :
    parseHeader ((headerBytesOf es.length es).take k) = .error .truncatedStream := by
  obtain ⟨hnil, herrors⟩ := headerErrorsInByteOrder
  cases k with
  | zero => exact hnil
  | succ k =>
    obtain ⟨before, e, after, i, hsplit, hi, htake⟩ := exists_take_flatMap HeaderEntry.bytes (Nat.lt_of_succ_lt_succ hk)
    have hcut : (headerBytesOf es.length es).take (k + 1) = headerBytesOf es.length before ++ e.bytes.take i := by
      rw [headerBytesOf, headerBytesOf, List.take_succ_cons, htake, List.cons_append]
    have hlen := congrArg List.length hsplit
    rw [List.length_append, List.length_cons] at hlen
    have hnext : Listing es.length (before ++ [e]) := by
      refine listing_of_append (fs := after) ?_
      rw [← List.append_cons, ← hsplit]
      exact hes
    have hbefore := listing_of_append hnext
    obtain ⟨habove, ⟨hbits, hbits', hfield, -⟩, -⟩ := (listing_concat_iff hbefore).1 hnext
    obtain ⟨hend, -, hafter⟩ := herrors es.length before (by omega) hmax (by omega) hbefore
    obtain ⟨hsymbol, -, hfieldCut, -⟩ := hafter e.symbol habove
    rw [hcut]
    match i with
    | 0 => rwa [List.take_zero, List.append_nil]
    | 1 => exact hsymbol
    | i + 2 =>
      have hcount := toNat_lengthByte hbits'
      refine hfieldCut _ _ (fun hzero => ?_) ?_
      · rw [hzero] at hcount
        exact absurd hcount (Nat.ne_of_lt hbits)
      · rw [hcount, ← hfield]
        exact (List.length_take_le _ _).trans_lt (Nat.lt_of_succ_lt_succ (Nat.lt_of_succ_lt_succ hi))

/-- The header of a valid code table cut short. -/
theorem CodesFrom.parseHeader_take_serializeHeader {T : CodeTree} {c : CodeTable} (h : CodesFrom T c) {k : Nat}
    (hk : k < (serializeHeader c).length) : parseHeader ((serializeHeader c).take k) = .error .truncatedStream := by
  have hes := map_code_serializedEntries c
  rw [serializeHeader_eq_headerBytesOf] at hk ⊢
  exact parseHeader_take_headerBytesOf (h.length_entries_bounds hes).2 (h.listing hes (fieldHolds_serializedEntries c)) hk

/-! ## Cut streams -/

theorem decompressResult_lengthCut {rest : List Byte} (h : rest.length < 4) :
    decompressResult (huffmanMarker :: rest) = .error (.truncatedStream, .headerParsing) :=
  if_pos (Nat.succ_lt_succ h)

/-- Past the raw length, a cut before the payload is met at STAGE 8 and a cut in the payload at STAGE 9. -/
theorem decompressFrom_take {n bc k : Nat} {T : CodeTree} {c : CodeTable} {payload : List Byte} (hcodes : CodesFrom T c)
    (hbc : bc < 2 ^ 32) (hpayload : payload.length = ceilDiv bc 8) (hk : k < (serializeHeader c ++ (be32 bc ++ payload)).length) :
    decompressFrom n ((serializeHeader c ++ (be32 bc ++ payload)).take k) =
      .error (.truncatedStream, if k < (serializeHeader c).length + 4 then .headerParsing else .bitUnpacking) := by
  rw [List.take_append]
  by_cases hheader : k < (serializeHeader c).length
  · rw [if_pos (by omega), Nat.sub_eq_zero_of_le hheader.le, List.take_zero, List.append_nil]
    exact decompressFrom_headerError (hcodes.parseHeader_take_serializeHeader hheader)
  · obtain ⟨j, rfl⟩ := Nat.exists_eq_add_of_le (Nat.not_lt.1 hheader)
    rw [List.take_of_length_le (Nat.le_add_right _ _), Nat.add_sub_cancel_left]
    split
    next hcut =>
      obtain ⟨nodes, hparse, -⟩ := hcodes.exists_parseHeader_serializeHeader ((be32 bc ++ payload).take j)
      refine decompressFrom_bitCountCut hparse ?_
      rw [List.length_append]
      exact Nat.add_lt_add_left ((List.length_take_le _ _).trans_lt (by omega)) _
    next hlong =>
      obtain ⟨i, rfl⟩ : ∃ i, j = 4 + i := ⟨j - 4, by omega⟩
      have htake : (be32 bc ++ payload).take (4 + i) = be32 bc ++ payload.take i :=
        List.take_length_add_append (l₁ := be32 bc) i
      obtain ⟨nodes, hparse, -⟩ := hcodes.exists_parseHeader_serializeHeader (be32 bc ++ payload.take i)
      rw [htake, decompressFrom_payload hbc hparse rfl]
      refine decompressPayload_cut ?_
      simp only [List.length_append, length_be32] at hk
      rw [← hpayload, List.length_take]
      omega

/-- The empty stream cut short (R142). -/
theorem decompressResult_take_emptyStream {k : Nat} (h : k < emptyStream.length) :
    decompressResult (emptyStream.take k) = .error (.truncatedStream, .headerParsing) := by
  have hk : k < 5 := h
  interval_cases k <;> rfl

/-- A non-empty input's stream cut short is reported as truncated: before its payload at STAGE 8, inside it at STAGE 9. -/
theorem decompressResult_take_compressSuccess {b : List Byte} {T : CodeTree} {c : CodeTable} {deg : Bool} (hne : b ≠ [])
    (hlen : b.length < 2 ^ 32) (hcodes : CodesFrom T c) (hfit : (compressSuccess b c deg).out.length ≤ 2 ^ 28) {k : Nat}
    (hk : k < (compressSuccess b c deg).out.length) :
    decompressResult ((compressSuccess b c deg).out.take k) = .error (.truncatedStream,
      if k + ceilDiv (codeBits (rleEncode b) c).length 8 < (compressSuccess b c deg).out.length then .headerParsing
      else .bitUnpacking) := by
  have hbc := length_codeBits_lt hfit
  have hpayload := length_bytesOfBits (codeBits (rleEncode b) c)
  simp only [compressSuccess, streamOf_eq, List.length_append, List.length_cons, length_be32, hpayload] at hk ⊢
  match k with
  | 0 => rw [if_pos (by omega)]; rfl
  | k + 1 =>
    rw [List.cons_append, List.take_succ_cons]
    by_cases hshort : k < 4
    · rw [if_pos (by omega)]
      exact decompressResult_lengthCut ((List.length_take_le _ _).trans_lt hshort)
    · obtain ⟨j, rfl⟩ := Nat.exists_eq_add_of_le (Nat.not_lt.1 hshort)
      rw [← length_be32 b.length, List.take_length_add_append, length_be32, ← List.cons_append,
        decompressResult_framed (List.length_pos_iff.2 hne) hlen,
        decompressFrom_take hcodes hbc hpayload (by simp only [List.length_append, length_be32, hpayload]; omega)]
      congr 2
      exact if_congr (by omega) rfl rfl

end Sys2Proof.Machine

open Sys2Proof Sys2Proof.Machine

/-- Settles O40: the cut falls into the framing, the header, the bit count or the payload. -/
theorem truncationIsDetected : Obligations.TruncationIsDetected := by
  intro b r k hlen hcompress hfit hk
  by_cases hne : b = []
  · subst hne
    cases hcompress
    refine ⟨0, rfl, ?_⟩
    rw [if_pos]
    · exact decompressResult_take_emptyStream hk
    · exact hk
  · obtain ⟨T, c, deg, hcodes, hcoded, hok⟩ := exists_compressResult_eq_ok hne hlen
    cases hcompress.symm.trans hok
    exact ⟨_, rfl, decompressResult_take_compressSuccess hne (by omega) hcodes hfit hk⟩

end

section
/-! PROOFS. The interrupt output (60_exceptions.md R420, R421): `irq` after each thing the engine and the host can do. -/

namespace Sys2Proof.Machine

/-! ## The register an offset selects -/

theorem fst_eq_offsetOf_of_mem_registerMap : ∀ row ∈ registerMap, row.1 = offsetOf row.2 := by decide

/-- The register map is `offsetOf` read backwards (R32). -/
theorem regAt_eq_some_iff (off : Nat) (r : Reg) : regAt off = some r ↔ off = offsetOf r := by
  constructor
  · intro h
    obtain ⟨row, hfind, rfl⟩ := Option.map_eq_some_iff.1 h
    have hoff : row.1 = off := by simpa using List.find?_some hfind
    rw [← hoff, fst_eq_offsetOf_of_mem_registerMap row (List.mem_of_find?_eq_some hfind)]
  · rintro rfl
    cases r <;> rfl

theorem writeReg_ctrl (s : State) (v : Word) : s.writeReg 0x08 v = s.writeCtrl v := rfl

theorem writeCtrl_of_reset {s : State} {v : Word} (h : v.getLsbD 1 = true) :
    s.writeCtrl v = State.softReset { s with ctrlIrqEn := v.getLsbD 0 } :=
  if_pos h

theorem writeCtrl_of_noReset {s : State} {v : Word} (h : v.getLsbD 1 = false) :
    s.writeCtrl v = { s with ctrlIrqEn := v.getLsbD 0 } := by
  rw [State.writeCtrl, h]
  rfl

/-- Everything a write to the register block can do: CTRL, STATUS and CMD act, another register is ignored or written (R35 to R37,
R43, R44). -/
theorem writeReg_cases (s : State) (off : Nat) (v : Word) :
    (off = 0x08 ∧ s.writeReg off v = s.writeCtrl v) ∨ (off = 0x0C ∧ s.writeReg off v = s.acknowledge v) ∨
    (off = 0x10 ∧ s.writeReg off v = s.writeCmd v) ∨ s.writeReg off v = s ∨ ∃ r, s.writeReg off v = s.writeParam r v := by
  cases h : regAt off with
  | none => exact .inr (.inr (.inr (.inl (by simp only [State.writeReg, h]))))
  | some r =>
    obtain rfl := (regAt_eq_some_iff off r).1 h
    cases r with
    | ctrl => exact .inl ⟨rfl, rfl⟩
    | status => exact .inr (.inl ⟨rfl, rfl⟩)
    | cmd => exact .inr (.inr (.inl ⟨rfl, rfl⟩))
    | _ =>
      right; right; right
      simp only [State.writeReg, h]
      split
      · exact .inl rfl
      · exact .inr ⟨_, rfl⟩

/-! ## `irq` after a completion -/

theorem irq_completeOk (s : State) (hasDest : Bool) (r : Success) : irq (s.completeOk hasDest r) = s.ctrlIrqEn := by
  simp [irq]

theorem irq_completeError (s : State) (w : WriteSet) (e : ErrorKind) (g : Stage) :
    irq (s.completeError w e g) = s.ctrlIrqEn := by
  simp [irq]

/-- A command stalls the engine, which leaves `irq` alone, or completes (R194, R420). -/
theorem irq_exec_cases {i : Instr} {s t : State} (h : exec i s = .next t) :
    (t.stalled = true ∧ irq t = irq s) ∨ irq t = s.ctrlIrqEn := by
  rcases exec_next_cases h with ⟨a, rfl⟩ | ⟨e, g, rfl⟩ | ⟨r, -, rfl⟩
  · exact .inl ⟨rfl, rfl⟩
  · exact .inr (irq_completeError ..)
  · exact .inr (irq_completeOk ..)

/-- The engine's turn never lowers `irq`. -/
theorem irq_of_engineTurn {s t : State} (ht : engineTurn s = true) (h : step s = .next t) (hs : irq s = true) :
    irq t = true := by
  have hen : s.ctrlIrqEn = true := (Bool.and_eq_true_iff.1 hs).1
  rcases step_cases s with ⟨-, i, -, hstep⟩ | ⟨-, -, hstep⟩ | ⟨hf, -⟩
  · rcases irq_exec_cases (hstep.symm.trans h) with ⟨-, hirq⟩ | hirq
    · rw [hirq, hs]
    · rw [hirq, hen]
  · cases hstep.symm.trans h
    exact (irq_completeError ..).trans hen
  · cases ht.symm.trans hf

/-! ## `irq` after a host operation -/

theorem irq_readReg (s : State) (off : Nat) : irq (s.readReg off) = irq s := rfl

theorem irq_hostLoad (s : State) (a n : Nat) : irq (s.hostLoad a n) = irq s := by
  rw [hostLoad_frame]
  rfl

theorem irq_hostStore (s : State) (a : Nat) (vs : List Byte) : irq (s.hostStore a vs) = irq s := by
  rw [hostStore_frame]
  rfl

theorem irq_writeParam (s : State) (r : Reg) (v : Word) : irq (s.writeParam r v) = irq s := by
  cases r <;> rfl

theorem irq_acknowledge (s : State) (v : Word) :
    irq (s.acknowledge v) = (s.ctrlIrqEn && ((s.stDone && !v.getLsbD 1) || (s.stErr && !v.getLsbD 2))) := rfl

theorem irq_of_irq_acknowledge {s : State} {v : Word} (h : irq (s.acknowledge v) = true) : irq s = true := by
  obtain ⟨hen, hflag⟩ := Bool.and_eq_true_iff.1 h
  have hkept : (s.stDone || s.stErr) = true := by
    rcases Bool.or_eq_true_iff.1 hflag with hd | he
    · rw [(Bool.and_eq_true_iff.1 hd).1, Bool.true_or]
    · rw [(Bool.and_eq_true_iff.1 he).1, Bool.or_true]
  exact Bool.and_eq_true_iff.2 ⟨hen, hkept⟩

theorem irq_hardwareReset (s : State) : irq s.hardwareReset = false := rfl

theorem irq_softReset (s : State) : irq s.softReset = false := rfl

/-- A write to CTRL sets IRQ_EN; with bit 1 set it resets the block as well (R35, R452). -/
theorem irq_writeCtrl (s : State) (v : Word) :
    irq (s.writeCtrl v) = (!v.getLsbD 1 && (v.getLsbD 0 && (s.stDone || s.stErr))) := by
  cases h : v.getLsbD 1 with
  | true => rw [writeCtrl_of_reset h, irq_softReset, Bool.not_true, Bool.false_and]
  | false =>
    rw [writeCtrl_of_noReset h]
    rfl

/-- A write to CMD clears DONE and ERR, or while busy sets OVERRUN, which has no part in `irq` (R180, R181, R421). -/
theorem irq_writeCmd (s : State) (v : Word) : irq (s.writeCmd v) = (s.busy && irq s) := by
  cases h : s.busy with
  | true =>
    rw [writeCmd_of_busy v h]
    rfl
  | false =>
    rw [writeCmd_of_idle v h, Bool.false_and]
    exact Bool.and_false _

/-- `irq` after a host operation that can move it, and its value then. -/
inductive IrqMoved (s : State) (op : HostOp) (q : Bool) : Prop where
  | reset (hop : Resets s.params op) (hq : q = false)
  | ctrl (v : Word) (hop : op = .write (s.params.regBase + 0x08) 4 v) (h1 : v.getLsbD 1 = false)
      (hq : q = (v.getLsbD 0 && (s.stDone || s.stErr)))
  | status (v : Word) (hop : op = .write (s.params.regBase + 0x0C) 4 v)
      (hq : q = irq (s.acknowledge v))
  | issue (v : Word) (hop : op = .write (s.params.regBase + 0x10) 4 v) (hidle : s.busy = false) (hq : q = false)

/-- A register write moves `irq` only at CTRL, at STATUS and, while idle, at CMD. -/
theorem irq_writeReg_cases (s : State) (rest : List HostOp) (off : Nat) (v : Word) :
    irq ((s.hostStepped rest).writeReg off v) = irq s ∨
      IrqMoved s (.write (s.params.regBase + off) 4 v) (irq ((s.hostStepped rest).writeReg off v)) := by
  rcases writeReg_cases (s.hostStepped rest) off v with ⟨rfl, h⟩ | ⟨rfl, h⟩ | ⟨rfl, h⟩ | h | ⟨r, h⟩ <;> rw [h]
  · right
    rw [irq_writeCtrl]
    cases h1 : v.getLsbD 1 with
    | true => exact .reset (.inr ⟨v, rfl, h1⟩) rfl
    | false => exact .ctrl v rfl h1 rfl
  · exact .inr (.status v rfl rfl)
  · rw [irq_writeCmd]
    cases hb : s.busy with
    | true => exact .inl rfl
    | false => exact .inr (.issue v rfl hb rfl)
  · exact .inl rfl
  · exact .inl (irq_writeParam ..)

/-- Everything an admitted host operation can do to `irq`. -/
theorem irq_hostPerform_cases {s : State} {op : HostOp} (rest : List HostOp) (ha : admitted s.params op = true) :
    irq (s.hostPerform op rest) = irq s ∨ IrqMoved s op (irq (s.hostPerform op rest)) := by
  rcases hostPerform_cases rest ha with ⟨off, -, -, -, h⟩ | ⟨_, a, n, -, -, h⟩ | ⟨off, v, rfl, -, -, h⟩ |
    ⟨_, a, n, v, -, -, h⟩ | ⟨-, -, h⟩ | ⟨-, -, h⟩ | ⟨rfl, h⟩ <;> rw [h]
  · exact .inl (irq_readReg ..)
  · exact .inl (irq_hostLoad ..)
  · exact irq_writeReg_cases s rest off v
  · exact .inl (irq_hostStore ..)
  · exact .inl (irq_readReg ..)
  · exact .inl (irq_readReg ..)
  · exact .inr (.reset (.inl rfl) (irq_hardwareReset _))

/-- A step that changes `irq` and is not the engine's performs a host operation that moves it. -/
theorem irqMoved_of_step {s t : State} (ht : engineTurn s = false) (h : step s = .next t) (hne : irq t ≠ irq s) :
    ∃ op rest, s.program = op :: rest ∧ IrqMoved s op (irq t) := by
  have hturn : hostTurn s = .next t := by simpa [step, ht] using h
  rcases hostTurn_cases s with ⟨-, -, hr⟩ | ⟨-, -, hr⟩ | ⟨op, rest, hp, ha, hr⟩ | ⟨_, _, -, -, hr⟩ <;>
    cases hr.symm.trans hturn
  · exact absurd rfl hne
  · exact ⟨op, rest, hp, (irq_hostPerform_cases rest ha).resolve_left hne⟩

/-- A host operation that resets the block lowers `irq`, whatever is in flight (R451, R452). -/
theorem irq_of_resets {s t : State} {op : HostOp} {rest : List HostOp} (hm : s.busy = false ∨ s.HostMovesBusy)
    (hp : s.program = op :: rest) (hop : Resets s.params op) (h : step s = .next t) : irq t = false := by
  rcases hop with rfl | ⟨v, rfl, h1⟩
  · cases (step_eq_hostPerform hm hp rfl).symm.trans h
    exact irq_hardwareReset _
  · cases (step_write_register hm (by decide) (by decide) hp).symm.trans h
    rw [writeReg_ctrl, irq_writeCtrl, h1]
    rfl

end Sys2Proof.Machine

open Sys2Proof Sys2Proof.Machine

/-- Settles O13: the value after each completion and each register write, and that no other step of the engine or the host
changes it. -/
theorem completionRaisesTheInterrupt : Obligations.CompletionRaisesTheInterrupt := by
  refine ⟨fun s => ⟨rfl, fun b => rfl⟩, fun i s t _ h hrun => ?_, fun s t e ht he h => ?_, fun s t v rest hm h => ?_,
    fun s t h hs hq => ?_, fun s t h hs hq => ?_⟩
  · exact (irq_exec_cases h).resolve_left fun hstall => absurd hstall.1 (by simp [hrun])
  · have hstep : step s = .next (completeIllegal s) := by simp [step, ht, he]
    cases hstep.symm.trans h
    exact irq_completeError ..
  · refine ⟨fun hp h1 => ?_, fun hp => ?_, fun hp hidle => ?_, fun op hp hop => irq_of_resets hm hp hop h⟩ <;>
      cases (step_write_register hm (by decide) (by decide) hp).symm.trans h
    · rw [writeReg_ctrl, irq_writeCtrl, h1]
      rfl
    · rw [writeReg_status, irq_acknowledge]
    · rw [writeReg_cmd, irq_writeCmd, hidle]
      rfl
  · cases ht : engineTurn s with
    | true => exact .inl rfl
    | false =>
      obtain ⟨op, rest, hp, hmoved⟩ := irqMoved_of_step ht h (by simp [hs, hq])
      rw [hq] at hmoved
      cases hmoved with
      | reset hop hv => cases hv
      | issue v hop hidle hv => cases hv
      | ctrl v hop h1 hv =>
        obtain ⟨h0, hflag⟩ := Bool.and_eq_true_iff.1 hv.symm
        exact .inr ⟨v, rest, hop ▸ hp, h0, h1, hflag⟩
      | status v hop hv => exact absurd (irq_of_irq_acknowledge hv.symm) (by simp [hs])
  · cases ht : engineTurn s with
    | true => exact absurd (irq_of_engineTurn ht h hs) (by simp [hq])
    | false =>
      obtain ⟨op, rest, hp, hmoved⟩ := irqMoved_of_step ht h (by simp [hs, hq])
      refine ⟨rfl, op, rest, hp, ?_⟩
      rw [hq] at hmoved
      cases hmoved with
      | reset hop => exact .inl hop
      | status v hop => exact .inr ⟨v, .inl hop⟩
      | issue v hop hidle => exact .inr ⟨v, .inr (.inr ⟨hop, hidle⟩)⟩
      | ctrl v hop h1 hv =>
        have hflag : (s.stDone || s.stErr) = true := (Bool.and_eq_true_iff.1 hs).2
        rw [hflag, Bool.and_true] at hv
        exact .inr ⟨v, .inr (.inl ⟨hop, hv.symm⟩)⟩

end

section
/-! PROOFS. Everything a host operation keeps, and everything a reset leaves (30_encoding.md R160, R161; 70_reset_and_hazards.md R450 to
R452). -/

namespace Sys2Proof.Machine

/-! ## What a host operation keeps -/

/-- What every host operation but a reset keeps of `s`, the state with the host moved on, in `t`: the parameters, the tables, the codes,
the stall, recorded faults and the canonical forms. DONE and ERR are never set, BUSY is never cleared, and an issue clears DONE and ERR. -/
structure HostKeeps (s t : State) : Prop where
  params : t.params = s.params
  freq : SameFreq s t
  tree : SameTree s t
  code : SameCode s t
  stErrcode : t.stErrcode = s.stErrcode
  stStage : t.stStage = s.stStage
  stalled : t.stalled = s.stalled
  stDone : t.stDone = true → s.stDone = true
  stErr : t.stErr = true → s.stErr = true
  busy : s.busy = true → t.busy = true ∧ t.delay = s.delay
  issued : s.busy = false → t.busy = true → t.stDone = false ∧ t.stErr = false
  faults : ∀ f ∈ s.faults, f ∈ t.faults
  faultsOk : s.faultsOk → t.faultsOk
  memoryOk : s.memoryOk → t.memoryOk

theorem HostKeeps.refl (s : State) : HostKeeps s s :=
  ⟨rfl, ⟨rfl, rfl⟩, ⟨rfl, rfl, rfl⟩, ⟨rfl, rfl⟩, rfl, rfl, rfl, id, id, fun h => ⟨h, rfl⟩,
    fun hidle hbusy => absurd (hidle.symm.trans hbusy) nofun, fun _ => id, id, id⟩

theorem hostKeeps_readReg (s : State) (p : List HostOp) (off : Nat) : HostKeeps s (State.readReg { s with program := p } off) :=
  { HostKeeps.refl s with }

theorem hostKeeps_writeParam (s : State) (r : Reg) (v : Word) : HostKeeps s (s.writeParam r v) := by
  cases r <;> exact { HostKeeps.refl s with }

theorem hostKeeps_acknowledge (s : State) (v : Word) : HostKeeps s (s.acknowledge v) where
  __ := HostKeeps.refl s
  stDone := fun h => (Bool.and_eq_true_iff.1 h).1
  stErr := fun h => (Bool.and_eq_true_iff.1 h).1
  issued := fun hidle hbusy => absurd (hidle.symm.trans hbusy) nofun

theorem hostKeeps_issue {s : State} (v : Word) (hidle : s.busy = false) : HostKeeps s (s.issue v) where
  __ := HostKeeps.refl s
  stDone := nofun
  stErr := nofun
  busy := fun hbusy => absurd (hidle.symm.trans hbusy) nofun
  issued := fun _ _ => ⟨rfl, rfl⟩

theorem hostKeeps_writeCmd (s : State) (v : Word) : HostKeeps s (s.writeCmd v) := by
  cases h : s.busy with
  | true =>
    rw [writeCmd_of_busy v h]
    exact { HostKeeps.refl s with }
  | false =>
    rw [writeCmd_of_idle v h]
    exact hostKeeps_issue v h

theorem hostKeeps_writeCtrl {s : State} {v : Word} (h : v.getLsbD 1 = false) : HostKeeps s (s.writeCtrl v) := by
  rw [writeCtrl_of_noReset h]
  exact { HostKeeps.refl s with }

/-- A write to the register block keeps the block, unless it resets it. -/
theorem hostKeeps_writeReg {s : State} {off : Nat} {v : Word} (h : off = 0x08 → v.getLsbD 1 = false) :
    HostKeeps s (s.writeReg off v) := by
  rcases writeReg_cases s off v with ⟨hoff, hw⟩ | ⟨-, hw⟩ | ⟨-, hw⟩ | hw | ⟨r, hw⟩ <;> rw [hw]
  · exact hostKeeps_writeCtrl (h hoff)
  · exact hostKeeps_acknowledge s v
  · exact hostKeeps_writeCmd s v
  · exact HostKeeps.refl s
  · exact hostKeeps_writeParam s r v

/-! ## Host loads and stores -/

theorem hostKeeps_recordFault (s : State) (f : ModelFault) : HostKeeps s (s.recordFault f) where
  __ := HostKeeps.refl s
  faults := fun g hg => (ModelFault.mem_insert f g s.faults).2 (.inr hg)
  faultsOk := ModelFault.insert_sorted f s.faults

/-- A host load takes a value, or records UninitRead of the cell at which it ends without one (R103). -/
theorem hostLoad_cases (s : State) (a n : Nat) :
    (∃ bytes, (loadBytes s s.draws a n).2 = .ok bytes ∧ s.hostLoad a n =
      { s with readLog := some (BitVec.ofNat 32 (littleEndian bytes)) :: s.readLog, draws := (loadBytes s s.draws a n).1 }) ∨
    ∃ c, (loadBytes s s.draws a n).2 = .error c ∧ s.hostLoad a n =
      State.recordFault { s with readLog := none :: s.readLog, draws := (loadBytes s s.draws a n).1 } (.uninitRead c) := by
  simp only [State.hostLoad]
  cases (loadBytes s s.draws a n).2 with
  | ok bytes => exact .inl ⟨bytes, rfl, rfl⟩
  | error c => exact .inr ⟨c, rfl, rfl⟩

theorem hostKeeps_hostLoad (s : State) (a n : Nat) : HostKeeps s (s.hostLoad a n) := by
  rcases hostLoad_cases s a n with ⟨bytes, -, h⟩ | ⟨c, -, h⟩ <;> rw [h]
  · exact { HostKeeps.refl s with }
  · exact { hostKeeps_recordFault s (.uninitRead c) with }

theorem HostKeeps.trans {s t u : State} (h : HostKeeps s t) (hu : HostKeeps t u) (hbusy : t.busy = s.busy) : HostKeeps s u where
  params := hu.params.trans h.params
  freq := ⟨hu.freq.1.trans h.freq.1, hu.freq.2.trans h.freq.2⟩
  tree := ⟨hu.tree.1.trans h.tree.1, hu.tree.2.1.trans h.tree.2.1, hu.tree.2.2.trans h.tree.2.2⟩
  code := ⟨hu.code.1.trans h.code.1, hu.code.2.trans h.code.2⟩
  stErrcode := hu.stErrcode.trans h.stErrcode
  stStage := hu.stStage.trans h.stStage
  stalled := hu.stalled.trans h.stalled
  stDone := h.stDone ∘ hu.stDone
  stErr := h.stErr ∘ hu.stErr
  busy := fun hs => ⟨(hu.busy (h.busy hs).1).1, (hu.busy (h.busy hs).1).2.trans (h.busy hs).2⟩
  issued := fun hs => hu.issued (hbusy.trans hs)
  faults := fun f hf => hu.faults f (h.faults f hf)
  faultsOk := hu.faultsOk ∘ h.faultsOk
  memoryOk := hu.memoryOk ∘ h.memoryOk

theorem memoryOk_set {s : State} {a : Nat} {v : Byte} (ha : a < s.params.dmemSize) (h : s.memoryOk) :
    State.memoryOk { s with dmem := s.dmem.set a v } := by
  refine ⟨Memory.set_wf _ _ _ h.1, fun c hc => ?_⟩
  rcases Memory.mem_set _ _ _ _ hc with rfl | hc
  · exact ha
  · exact h.2 c hc

/-- Forgetting cells keeps the canonical form. -/
theorem memoryOk_of_sublist {s t : State} (hparams : t.params = s.params) (hdmem : t.dmem.Sublist s.dmem) (h : s.memoryOk) :
    t.memoryOk := by
  obtain ⟨hwf, hinside⟩ := h
  rw [State.memoryOk, hparams]
  exact ⟨hwf.sublist hdmem, fun c hc => hinside c (hdmem.subset hc)⟩

theorem hostKeeps_hostStoreByte {s : State} {a : Nat} (v : Byte) (ha : a < s.params.dmemSize) :
    HostKeeps s (s.hostStoreByte a v) := by
  unfold State.hostStoreByte
  split
  · exact { hostKeeps_recordFault s (.hostWriteWhileBusy a) with memoryOk := memoryOk_of_sublist rfl List.filter_sublist }
  · exact { HostKeeps.refl s with memoryOk := memoryOk_set ha }

theorem hostStoreByte_busy (s : State) (a : Nat) (v : Byte) : (s.hostStoreByte a v).busy = s.busy := by
  unfold State.hostStoreByte
  split <;> rfl

theorem hostKeeps_hostStore {s : State} {a : Nat} {vs : List Byte} (h : a + vs.length ≤ s.params.dmemSize) :
    HostKeeps s (s.hostStore a vs) := by
  induction vs generalizing s a with
  | nil => exact HostKeeps.refl s
  | cons v vs ih =>
    rw [List.length_cons] at h
    have hbyte := hostKeeps_hostStoreByte (s := s) (a := a) v (by omega)
    exact hbyte.trans (ih (by rw [hbyte.params]; omega)) (hostStoreByte_busy s a v)

theorem length_bytesOfWrite (v : Word) (n : Nat) : (bytesOfWrite v n).length = n := by simp [bytesOfWrite]

/-- Everything an admitted host operation but a reset keeps. -/
theorem hostKeeps_hostPerform {s : State} {op : HostOp} (rest : List HostOp) (ha : admitted s.params op = true)
    (hop : ¬ Resets s.params op) : HostKeeps (s.hostStepped rest) (s.hostPerform op rest) := by
  rcases hostPerform_cases rest ha with ⟨off, -, -, -, h⟩ | ⟨_, a, n, -, -, h⟩ | ⟨off, v, rfl, -, -, h⟩ |
    ⟨_, a, n, v, -, hend, h⟩ | ⟨-, -, h⟩ | ⟨-, -, h⟩ | ⟨rfl, h⟩ <;> rw [h]
  · exact hostKeeps_readReg (s.hostStepped rest) rest off
  · exact hostKeeps_hostLoad (s.hostStepped rest) a n
  · refine hostKeeps_writeReg (s := s.hostStepped rest) fun hoff => ?_
    subst hoff
    exact Bool.eq_false_iff.2 fun h1 => hop (.inr ⟨v, rfl, h1⟩)
  · exact hostKeeps_hostStore (s := s.hostStepped rest) (by rwa [length_bytesOfWrite])
  · exact hostKeeps_readReg (s.hostStepped rest) (.wait :: rest) 0x0C
  · exact hostKeeps_readReg (s.hostStepped rest) rest 0x0C
  · exact absurd (.inl rfl) hop

/-! ## What a reset leaves -/

/-- What a reset of the block leaves of `s` in `t`: R450's reset values, and of the rest the parameters, the faults and no new DMEM cell. -/
structure ResetFrom (s t : State) : Prop where
  block : BlockAtReset t
  freq : FreqCleared t
  tree : TreeCleared t
  code : CodeCleared t
  stalled : t.stalled = false
  params : t.params = s.params
  faults : t.faults = s.faults
  program : t.program = s.program
  readLog : t.readLog = s.readLog
  dmem : t.dmem.Sublist s.dmem

theorem blockAtReset_resetOn (p : Params) : BlockAtReset (State.resetOn p) := by
  constructor
  case freq => exact Table.get_const 0
  case code => exact Table.get_const []
  all_goals rfl

theorem resetFrom_hardwareReset (s : State) : ResetFrom s s.hardwareReset where
  block := { blockAtReset_resetOn s.params with }
  freq := ⟨rfl, rfl⟩
  tree := ⟨rfl, rfl, rfl⟩
  code := ⟨rfl, rfl⟩
  stalled := rfl
  params := rfl
  faults := rfl
  program := rfl
  readLog := rfl
  dmem := List.nil_sublist _

theorem resetFrom_softReset (s : State) : ResetFrom s s.softReset where
  __ := resetFrom_hardwareReset s
  block := { blockAtReset_resetOn s.params with }
  dmem := by
    rw [State.softReset_dmem]
    split
    · exact List.filter_sublist
    · exact List.Sublist.refl _

theorem resetFrom_writeCtrl {s : State} {v : Word} (h : v.getLsbD 1 = true) : ResetFrom s (s.writeCtrl v) := by
  rw [writeCtrl_of_reset h]
  exact { resetFrom_softReset { s with ctrlIrqEn := v.getLsbD 0 } with }

/-- A host operation that resets the block (R451, R452). -/
theorem resetFrom_hostPerform {s : State} {op : HostOp} (rest : List HostOp) (hop : Resets s.params op) :
    ResetFrom (s.hostStepped rest) (s.hostPerform op rest) := by
  rcases hop with rfl | ⟨v, rfl, h1⟩
  · exact resetFrom_hardwareReset (s.hostStepped rest)
  · have hwrite : s.hostPerform (.write (s.params.regBase + 0x08) 4 v) rest = (s.hostStepped rest).writeCtrl v := by
      simp only [State.hostPerform, State.busWrite, targetOf_regBase_add s.params (off := 0x08) (by decide), writeReg_ctrl]
    rw [hwrite]
    exact resetFrom_writeCtrl h1

/-! ## A step of the host -/

/-- A step that is not the engine's leaves the machine alone, idle with its program over, or performs the program's next operation,
which resets the block or keeps it. -/
theorem hostStep_cases {s t : State} (ht : engineTurn s = false) (h : step s = .next t) :
    (s.busy = false ∧ t = s) ∨
    ∃ op rest, s.program = op :: rest ∧ t = s.hostPerform op rest ∧
      (Resets s.params op ∧ ResetFrom (s.hostStepped rest) t ∨ ¬ Resets s.params op ∧ HostKeeps (s.hostStepped rest) t) := by
  have hturn : hostTurn s = .next t := by simpa [step, ht] using h
  rcases hostTurn_cases s with ⟨-, -, hr⟩ | ⟨-, hidle, hr⟩ | ⟨op, rest, hp, ha, hr⟩ | ⟨_, _, -, -, hr⟩ <;>
    cases hr.symm.trans hturn
  · exact .inl ⟨hidle, rfl⟩
  · refine .inr ⟨op, rest, hp, rfl, ?_⟩
    by_cases hop : Resets s.params op
    · exact .inl ⟨hop, resetFrom_hostPerform rest hop⟩
    · exact .inr ⟨hop, hostKeeps_hostPerform rest ha hop⟩

end Sys2Proof.Machine

end

section
/-! PROOFS. The errors that `parse_header` can give (44_code_table_rom.md R270, R271). -/

namespace Sys2Proof.Machine

/-- The two errors of a header (R271). -/
abbrev HeaderError (e : ErrorKind) : Prop := e = .malformedHeader ∨ e = .truncatedStream

theorem error_of_takeBytes {k : Nat} {h : List Byte} {e : ErrorKind} (he : takeBytes k h = .error e) : e = .truncatedStream := by
  unfold takeBytes at he
  split at he <;> cases he
  rfl

theorem error_of_descend {limit : Nat} {bits : Bits} {t : List Slot} {cur : Nat} {e : ErrorKind}
    (he : descend limit bits t cur = .error e) : e = .malformedHeader := by
  induction bits generalizing t cur with
  | nil => cases he
  | cons bit bits ih =>
    unfold descend at he
    split at he
    · split at he
      · exact ih he
      · split at he
        · cases he
          rfl
        · exact ih he
    · cases he
      rfl

theorem error_of_plantLeaf {t : List Slot} {cur : Nat} {x : Byte} {e : ErrorKind} (he : plantLeaf t cur x = .error e) :
    e = .malformedHeader := by
  unfold plantLeaf at he
  split at he <;> cases he
  rfl

theorem headerError_of_parseEntry {limit : Nat} {p : ParseState} {e : ErrorKind} (he : parseEntry limit p = .error e) :
    HeaderError e := by
  unfold parseEntry at he
  split at he
  · cases he
    exact .inr rfl
  · split at he
    · cases he
      exact .inl rfl
    · split at he
      · cases he
        exact .inr rfl
      · split at he
        · cases he
          exact .inl rfl
        · split at he
          next htake =>
            cases he
            exact .inr (error_of_takeBytes htake)
          next =>
            dsimp only at he
            split at he
            next hwalk =>
              cases he
              exact .inl (error_of_descend hwalk)
            next =>
              split at he
              next hleaf =>
                cases he
                exact .inl (error_of_plantLeaf hleaf)
              next => cases he

theorem headerError_of_parseEntries {limit n : Nat} {p : ParseState} {e : ErrorKind}
    (he : parseEntries limit n p = .error e) : HeaderError e := by
  induction n generalizing p with
  | zero => cases he
  | succ n ih =>
    unfold parseEntries at he
    split at he
    next hentry =>
      cases he
      exact headerError_of_parseEntry hentry
    next => exact ih he

theorem headerError_of_parseHeader {h : List Byte} {e : ErrorKind} (he : parseHeader h = .error e) : HeaderError e := by
  unfold parseHeader at he
  split at he
  · cases he
    exact .inr rfl
  · dsimp only at he
    split at he
    next hentries =>
      cases he
      exact headerError_of_parseEntries hentries
    next =>
      split at he <;> cases he
      exact .inl rfl

end Sys2Proof.Machine

end

section
/-! PROOFS. The pure function of each command, and everything a command can leave (40_command_common.md R182, R186, R189). -/

namespace Sys2Proof.Machine

/-- The pure function of a command on its source bytes (R182). -/
def commandResult (i : Instr) (s : State) : List Byte → Result :=
  match i with
  | .nop => fun _ => nopResult
  | .compress => compressResult
  | .decompress => decompressResult
  | .rleEncode => rleEncodeResult
  | .rleDecode => rleDecodeResult
  | .freqAnalyze => freqAnalyzeResult
  | .treeBuild => fun _ => treeBuildResult s.freq
  | .codeDerive => fun _ => codeDeriveResult ⟨s.nodes, s.root⟩
  | .hdrSerialize => fun _ => hdrSerializeResult s.code
  | .hdrParse => hdrParseResult
  | .pack => packResult s.code
  | .unpack => unpackResult s.bitCount.toNat ⟨s.nodes, s.root⟩

theorem exec_eq_runCommand (i : Instr) (s : State) : exec i s = runCommand (shapeOf i) (commandResult i s) s := by
  cases i <;> rfl

/-! ## The pipeline commands -/

/-- Everything COMPRESS can answer: one of its two unreachable errors, the empty stream, or a stream of the codes of the pairs' tree. -/
theorem compressResult_cases (b : List Byte) :
    compressResult b = .error (.emptyInput, .treeBuilding) ∨ compressResult b = .error (.uncodedSymbol, .bitPacking) ∨
    compressResult b = .ok (emptyStreamSuccess emptyStream 0) ∨
    ∃ t deg, treeOf (analyze (rleEncode b)) = some (t, deg) ∧ compressResult b = .ok (compressSuccess b (deriveCodes t) deg) := by
  unfold compressResult
  split
  · exact .inr (.inr (.inl rfl))
  next hne =>
    split
    next => exact .inl rfl
    next t deg htree =>
      dsimp only
      split
      next => exact .inr (.inl rfl)
      next p bc hpack =>
        obtain ⟨rfl, rfl⟩ := packBits_eq_some hpack
        exact .inr (.inr (.inr ⟨t, deg, htree, rfl⟩))

/-- The error kinds that DECOMPRESS raises on its data (R351). -/
abbrev DecompressError (e : ErrorKind) : Prop := HeaderError e ∨ e = .malformedRun

/-- An error of DECOMPRESS, or a success that leaves valid the code table of a header that parses. -/
def ErrorOrParsed (r : Result) : Prop :=
  (∃ e g, DecompressError e ∧ r = .error (e, g)) ∨
  ∃ h p out n bc, parseHeader h = .ok p ∧ r = .ok ⟨out, n, Info.none, some bc, keepOnlyCode p.code⟩

theorem errorOrParsed_headerError {e : ErrorKind} (he : HeaderError e) (g : Stage) : ErrorOrParsed (.error (e, g)) :=
  .inl ⟨e, g, .inl he, rfl⟩

theorem errorOrParsed_decompressExpand {h : List Byte} {p : ParsedHeader} (hp : parseHeader h = .ok p) (len n bc : Nat)
    (syms : List Byte) : ErrorOrParsed (decompressExpand len n bc p.code syms) := by
  unfold decompressExpand
  split
  · exact .inl ⟨_, _, .inr rfl, rfl⟩
  · split
    · exact errorOrParsed_headerError (.inl rfl) _
    · exact .inr ⟨h, p, _, _, _, hp, rfl⟩

theorem errorOrParsed_decompressPayload {h : List Byte} {p : ParsedHeader} (hp : parseHeader h = .ok p) (len n bc : Nat)
    (rest : List Byte) : ErrorOrParsed (decompressPayload len n bc p rest) := by
  unfold decompressPayload
  split
  · exact errorOrParsed_headerError (.inr rfl) _
  · split
    · exact errorOrParsed_headerError (.inl rfl) _
    · split
      · exact errorOrParsed_headerError (.inr rfl) _
      · exact errorOrParsed_decompressExpand hp ..

theorem errorOrParsed_decompressHuffman (b : List Byte) : ErrorOrParsed (decompressHuffman b) := by
  unfold decompressHuffman
  split
  · exact errorOrParsed_headerError (.inr rfl) _
  · dsimp only
    split
    · exact errorOrParsed_headerError (.inl rfl) _
    · split
      next hp => exact errorOrParsed_headerError (headerError_of_parseHeader hp) _
      next hp =>
        split
        · exact errorOrParsed_headerError (.inr rfl) _
        · exact errorOrParsed_decompressPayload hp ..

/-- Everything DECOMPRESS can answer (R351). -/
theorem decompressResult_cases (b : List Byte) :
    ErrorOrParsed (decompressResult b) ∨ decompressResult b = .ok (emptyStreamSuccess [] 5) := by
  unfold decompressResult
  split
  · exact .inl (errorOrParsed_headerError (.inr rfl) _)
  next m rest =>
    split
    next hm =>
      subst hm
      cases hr : decompressEmpty (emptyMarker :: rest) with
      | ok r => exact .inr (congrArg _ (decompressEmpty_eq_ok hr).2)
      | error e =>
        left
        unfold decompressEmpty at hr
        split at hr
        · cases hr
          exact errorOrParsed_headerError (.inr rfl) _
        · split at hr
          · cases hr
            exact errorOrParsed_headerError (.inl rfl) _
          · split at hr <;> cases hr
            exact errorOrParsed_headerError (.inl rfl) _
    next =>
      split
      · exact .inl (errorOrParsed_decompressHuffman _)
      · exact .inl (errorOrParsed_headerError (.inl rfl) _)

/-! ## The codes a command reports -/

/-- The error kinds that a command can report: all but the two that are assigned and never written (R401). -/
abbrev ErrorKind.IsWritten (e : ErrorKind) : Prop := e ≠ .runLengthOverflow ∧ e ≠ .degenerateAlphabet

theorem HeaderError.isWritten {e : ErrorKind} (h : HeaderError e) : e.IsWritten := by
  rcases h with rfl | rfl <;> decide

theorem isWritten_of_commandResult {i : Instr} {s : State} {b : List Byte} {e : ErrorKind} {g : Stage}
    (h : commandResult i s b = .error (e, g)) : e.IsWritten := by
  cases i with
  | nop | rleEncode | freqAnalyze | codeDerive | hdrSerialize => cases h
  | compress =>
    rcases compressResult_cases b with hr | hr | hr | ⟨_, _, -, hr⟩ <;> cases hr.symm.trans h <;> decide
  | decompress =>
    rcases decompressResult_cases b with (⟨_, _, he, hr⟩ | ⟨_, _, _, _, _, -, hr⟩) | hr <;> cases hr.symm.trans h
    rcases he with he | rfl
    · exact he.isWritten
    · decide
  | rleDecode =>
    simp only [commandResult, rleDecodeResult] at h
    split at h <;> cases h
    decide
  | treeBuild =>
    simp only [commandResult, treeBuildResult] at h
    split at h <;> cases h
    decide
  | hdrParse =>
    simp only [commandResult, hdrParseResult] at h
    split at h <;> cases h
    next hp => exact (headerError_of_parseHeader hp).isWritten
  | pack =>
    simp only [commandResult, packResult] at h
    split at h <;> cases h
    decide
  | unpack =>
    simp only [commandResult, unpackResult] at h
    split at h <;> cases h
    decide

theorem isWritten_of_precheck {sh : Shape} {s : State} {e : ErrorKind} (h : precheck sh s = some e) : e.IsWritten := by
  rw [precheck_eq] at h
  split at h
  · cases h
    decide
  · split at h
    · cases h
      decide
    · split at h
      · cases h
        decide
      · split at h <;> cases h
        decide

/-- The overflow check gives the function's own error or OutputOverflow (R191). -/
theorem error_of_checkOverflow {sh : Shape} {s : State} {r : Result} {e : ErrorKind × Stage}
    (h : checkOverflow sh s r = .error e) : r = .error e ∨ e.1 = .outputOverflow := by
  unfold checkOverflow at h
  split at h
  · exact .inl h
  · split at h <;> cases h
    exact .inr rfl

/-! ## What a command leaves -/

/-- Everything a command can do: stall at an INDET source byte, fail with an error kind that is written, or succeed with its function's
result, which then fits its destination. -/
theorem exec_outcomes {i : Instr} {s t : State} (h : exec i s = .next t) :
    (∃ a, sourceBytes (shapeOf i) s = .error a ∧ t = s.stallAt a) ∨
    (∃ e g, e.IsWritten ∧ t = s.completeError (shapeOf i).writes e g) ∨
    (∃ b r, precheck (shapeOf i) s = none ∧ commandResult i s b = .ok r ∧
      ((shapeOf i).dest = true → r.out.length ≤ s.dstCap.toNat) ∧ t = s.completeOk (shapeOf i).dest r) := by
  rw [exec_eq_runCommand] at h
  rcases runCommand_cases (shapeOf i) (commandResult i s) s with ⟨e, he, hr⟩ | ⟨a, -, hb, hr⟩ | ⟨b, e, -, -, hc, hr⟩ |
    ⟨b, r, hp, -, hc, hr⟩ <;> cases hr.symm.trans h
  · exact .inr (.inl ⟨e, .idle, isWritten_of_precheck he, rfl⟩)
  · exact .inl ⟨a, hb, rfl⟩
  · refine .inr (.inl ⟨e.1, e.2, ?_, rfl⟩)
    rcases error_of_checkOverflow hc with hdata | hover
    · exact isWritten_of_commandResult hdata
    · rw [hover]
      decide
  · have hresult := eq_ok_of_checkOverflow_eq_ok hc
    rw [hresult, checkOverflow_ok_iff] at hc
    exact .inr (.inr ⟨b, r, hp, hresult, hc.2, rfl⟩)

/-- A step of the engine is a command's, or the completion of an illegal word (R182, R193). -/
theorem engineStep_cases {s t : State} (ht : engineTurn s = true) (h : step s = .next t) :
    (∃ i, exec i s = .next t) ∨ t = s.completeError ⟨false, false, false⟩ .illegalCommand .idle := by
  rcases step_cases s with ⟨-, i, -, hs⟩ | ⟨-, -, hs⟩ | ⟨hf, -⟩
  · exact .inl ⟨i, hs.symm.trans h⟩
  · exact .inr (Host.Outcome.next.inj (h.symm.trans hs))
  · cases ht.symm.trans hf

end Sys2Proof.Machine

end

section
/-! PROOFS. The canonical forms of DMEM and of the fault set, step by step (20_memory.md R100). -/

namespace Sys2Proof.Machine

theorem memoryOk_write {s : State} {a : Nat} {vs : List Byte} (ha : a + vs.length ≤ s.params.dmemSize) (h : s.memoryOk) :
    State.memoryOk { s with dmem := s.dmem.write a vs } := by
  refine ⟨Memory.write_wf _ _ _ h.1, fun c hc => ?_⟩
  rcases Memory.mem_write _ _ _ _ hc with hc | hc
  · exact hc.2.trans_le ha
  · exact h.2 c hc

/-- A success stores inside the destination range, which the prechecks have found inside DMEM (R183, R191). -/
theorem memoryOk_completeOk {sh : Shape} {s : State} {r : Success} (hpre : precheck sh s = none)
    (hfit : sh.dest = true → r.out.length ≤ s.dstCap.toNat) (h : s.memoryOk) : (s.completeOk sh.dest r).memoryOk := by
  cases hd : sh.dest with
  | false => exact h
  | true =>
    have hend : dstEnd s ≤ s.params.dmemSize := ((precheck_none_iff sh s).1 hpre).2.1 hd
    exact memoryOk_write ((Nat.add_le_add_left (hfit hd) _).trans hend) h

theorem canonical_of_exec {i : Instr} {s t : State} (h : exec i s = .next t) (hmem : s.memoryOk) (hfaults : s.faultsOk) :
    t.memoryOk ∧ t.faultsOk := by
  rcases exec_outcomes h with ⟨a, -, rfl⟩ | ⟨e, g, -, rfl⟩ | ⟨b, r, hpre, -, hfit, rfl⟩
  · exact ⟨hmem, ModelFault.insert_sorted _ _ hfaults⟩
  · exact ⟨hmem, hfaults⟩
  · exact ⟨memoryOk_completeOk hpre hfit hmem, hfaults⟩

end Sys2Proof.Machine

open Sys2Proof Sys2Proof.Machine

/-- Settles O56: the engine stores inside its destination range or nothing, the host's operations keep the canonical forms, and a
reset only drops cells. -/
theorem stepKeepsMemoryCanonical : Obligations.StepKeepsMemoryCanonical := by
  intro s t hmem hfaults h
  cases ht : engineTurn s with
  | true =>
    rcases engineStep_cases ht h with ⟨i, hexec⟩ | rfl
    · exact canonical_of_exec hexec hmem hfaults
    · exact ⟨hmem, hfaults⟩
  | false =>
    rcases hostStep_cases ht h with ⟨-, rfl⟩ | ⟨op, rest, -, -, ⟨-, hreset⟩ | ⟨-, hkeeps⟩⟩
    · exact ⟨hmem, hfaults⟩
    · refine ⟨memoryOk_of_sublist hreset.params hreset.dmem hmem, ?_⟩
      rw [State.faultsOk, hreset.faults]
      exact hfaults
    · exact ⟨hkeeps.memoryOk hmem, hkeeps.faultsOk hfaults⟩

end

section
/-! PROOFS. The lifecycle flags and the reset values of invalid tables, step by step (10_state.md R39, R42; 40_command_common.md R188). -/

namespace Sys2Proof.Machine

/-! ## Invalid tables -/

/-- An update leaves an invalid table at its reset value, if it was so before. -/
theorem Update.content_eq_reset {α : Type} {u : Update α} {old reset : α} {valid : Bool} (hold : valid = false → old = reset)
    (h : u.valid valid = false) : u.content old reset = reset := by
  cases u with
  | keep => exact hold h
  | clear => rfl
  | set v => cases h

theorem TablesUpdated.invalidTablesReset {s t : State} {u : TableUpdates} (h : TablesUpdated s t u)
    (hs : s.invalidTablesReset) : t.invalidTablesReset := by
  obtain ⟨hfreq, htree, hcode⟩ := hs
  refine ⟨fun hv => ?_, fun hv => ?_, fun hv => ?_⟩
  · rw [h.freq]
    exact Update.content_eq_reset hfreq (h.freqValid ▸ hv)
  · have hold : s.treeValid = false → (⟨s.nodes, s.root⟩ : Tree) = Tree.empty := fun hs => by
      rw [(htree hs).1, (htree hs).2]
      rfl
    rw [h.nodes, h.root, Update.content_eq_reset hold (h.treeValid ▸ hv)]
    exact ⟨rfl, rfl⟩
  · rw [h.code]
    exact Update.content_eq_reset hcode (h.codeValid ▸ hv)

theorem HostKeeps.invalidTablesReset {s t : State} (h : HostKeeps s t) (hs : s.invalidTablesReset) : t.invalidTablesReset := by
  obtain ⟨⟨hfreq, hfreqValid⟩, ⟨hnodes, hroot, htreeValid⟩, hcode, hcodeValid⟩ := And.intro h.freq (And.intro h.tree h.code)
  rw [State.invalidTablesReset, hfreq, hfreqValid, hnodes, hroot, htreeValid, hcode, hcodeValid]
  exact hs

theorem ResetFrom.invalidTablesReset {s t : State} (h : ResetFrom s t) : t.invalidTablesReset :=
  ⟨fun _ => h.freq.1, fun _ => ⟨h.tree.1, h.tree.2.1⟩, fun _ => h.code.1⟩

/-! ## Codes -/

theorem errcodeOf_of_isWritten {e : ErrorKind} (h : e.IsWritten) :
    errcodeOf e ≠ 0 ∧ errcodeOf e ≤ 12 ∧ errcodeOf e ≠ 2 ∧ errcodeOf e ≠ 6 := by
  cases e with
  | runLengthOverflow => exact absurd rfl h.1
  | degenerateAlphabet => exact absurd rfl h.2
  | _ => decide

theorem stageCode_le (g : Stage) : stageCode g ≤ 10 := by cases g <;> decide

/-! ## The lifecycle -/

theorem insert_ne_nil (f : ModelFault) (fs : List ModelFault) : f.insert fs ≠ [] :=
  List.ne_nil_of_mem ((ModelFault.mem_insert f f fs).2 (.inl rfl))

section
variable {s : State} (hbusy : s.busy = true) (hstalled : s.stalled = false) (h : s.lifecycleOk)
include h hbusy

theorem lifecycleOk_stallAt (a : Nat) : (s.stallAt a).lifecycleOk := by
  obtain ⟨hexcl, hclear, hdone, herr, hcode, hstage, -⟩ := h
  exact ⟨hexcl, hclear, hdone, herr, hcode, hstage, fun _ => ⟨hbusy, insert_ne_nil _ _⟩⟩

include hstalled

theorem lifecycleOk_completeError {e : ErrorKind} (he : e.IsWritten) (w : WriteSet) (g : Stage) :
    (s.completeError w e g).lifecycleOk := by
  obtain ⟨-, hclear, -⟩ := h
  obtain ⟨hdone, -⟩ := hclear hbusy
  obtain ⟨hzero, hcode⟩ := errcodeOf_of_isWritten he
  exact ⟨Bool.and_eq_false_iff.2 (.inl hdone), nofun, fun hd => absurd (hdone.symm.trans hd) nofun, fun _ => hzero, hcode,
    stageCode_le g, fun hs => absurd (hstalled.symm.trans hs) nofun⟩

theorem lifecycleOk_completeOk (hasDest : Bool) (r : Success) : (s.completeOk hasDest r).lifecycleOk := by
  obtain ⟨-, hclear, -⟩ := h
  obtain ⟨-, herr⟩ := hclear hbusy
  exact ⟨Bool.and_eq_false_iff.2 (.inr herr), nofun, fun _ => ⟨rfl, rfl⟩, fun he => absurd (herr.symm.trans he) nofun,
    show (0 : BitVec 4) ≤ 12 ∧ (0 : BitVec 4) ≠ 2 ∧ (0 : BitVec 4) ≠ 6 by decide, stageCode_le .done,
    fun hs => absurd (hstalled.symm.trans hs) nofun⟩

end

theorem HostKeeps.lifecycleOk {s t : State} (h : HostKeeps s t) (hs : s.lifecycleOk) : t.lifecycleOk := by
  obtain ⟨hexcl, hclear, hdone, herr, hcode, hstage, hstall⟩ := hs
  refine ⟨?_, fun hbusy => ?_, fun hd => ?_, fun he => ?_, ?_, ?_, fun hst => ?_⟩
  · by_contra hboth
    obtain ⟨hd, he⟩ := Bool.and_eq_true_iff.1 (Bool.of_not_eq_false hboth)
    rw [h.stDone hd, h.stErr he] at hexcl
    cases hexcl
  · cases hs : s.busy with
    | true =>
      obtain ⟨hd, he⟩ := hclear hs
      exact ⟨Bool.eq_false_iff.2 fun hd' => absurd (hd.symm.trans (h.stDone hd')) nofun,
        Bool.eq_false_iff.2 fun he' => absurd (he.symm.trans (h.stErr he')) nofun⟩
    | false => exact h.issued hs hbusy
  · rw [h.stErrcode, h.stStage]
    exact hdone (h.stDone hd)
  · rw [h.stErrcode]
    exact herr (h.stErr he)
  · rw [h.stErrcode]
    exact hcode
  · rw [h.stStage]
    exact hstage
  · obtain ⟨hbusy, hfaults⟩ := hstall (h.stalled ▸ hst)
    obtain ⟨f, hf⟩ := List.exists_mem_of_ne_nil _ hfaults
    exact ⟨(h.busy hbusy).1, List.ne_nil_of_mem (h.faults f hf)⟩

theorem ResetFrom.lifecycleOk {s t : State} (h : ResetFrom s t) : t.lifecycleOk := by
  have hb := h.block
  rw [State.lifecycleOk, hb.stDone, hb.stErr, hb.busy, hb.stErrcode, hb.stStage, h.stalled]
  exact ⟨rfl, nofun, nofun, nofun, by decide, by decide, nofun⟩

theorem lifecycleOk_of_exec {i : Instr} {s t : State} (h : exec i s = .next t) (hbusy : s.busy = true)
    (hstalled : s.stalled = false) (hs : s.lifecycleOk) : t.lifecycleOk := by
  rcases exec_outcomes h with ⟨a, -, rfl⟩ | ⟨e, g, he, rfl⟩ | ⟨b, r, -, -, -, rfl⟩
  · exact lifecycleOk_stallAt hbusy hs a
  · exact lifecycleOk_completeError hbusy hstalled hs he _ g
  · exact lifecycleOk_completeOk hbusy hstalled hs _ r

theorem tablesUpdated_of_exec {i : Instr} {s t : State} (h : exec i s = .next t) : ∃ u, TablesUpdated s t u := by
  rcases exec_outcomes h with ⟨a, -, rfl⟩ | ⟨e, g, -, rfl⟩ | ⟨b, r, -, -, -, rfl⟩
  · exact ⟨_, tablesUpdated_stallAt s a⟩
  · exact ⟨_, tablesUpdated_completeError s _ e g⟩
  · exact ⟨_, tablesUpdated_completeOk s _ r⟩

end Sys2Proof.Machine

open Sys2Proof Sys2Proof.Machine

/-- Settles O57: a completion sets one flag with its codes and clears or fills the tables it writes; a host operation sets no flag and
writes no table; a reset puts all at their reset values. -/
theorem stepKeepsLifecycleConsistent : Obligations.StepKeepsLifecycleConsistent := by
  intro s t hlife htables h
  cases ht : engineTurn s with
  | true =>
    obtain ⟨hbusy, hstalled, -⟩ := (engineTurn_iff s).1 ht
    rcases engineStep_cases ht h with ⟨i, hexec⟩ | rfl
    · obtain ⟨u, hu⟩ := tablesUpdated_of_exec hexec
      exact ⟨lifecycleOk_of_exec hexec hbusy hstalled hlife, hu.invalidTablesReset htables⟩
    · exact ⟨lifecycleOk_completeError hbusy hstalled hlife (by decide) _ _,
        (tablesUpdated_completeError s _ _ _).invalidTablesReset htables⟩
  | false =>
    rcases hostStep_cases ht h with ⟨-, rfl⟩ | ⟨op, rest, -, -, ⟨-, hreset⟩ | ⟨-, hkeeps⟩⟩
    · exact ⟨hlife, htables⟩
    · exact ⟨hreset.lifecycleOk, hreset.invalidTablesReset⟩
    · exact ⟨hkeeps.lifecycleOk hlife, hkeeps.invalidTablesReset htables⟩

end

section
/-! PROOFS. An arena that unfolds to a binary tree of its own size, each leaf with a symbol of its own, is a valid tree (10_state.md R67). -/

namespace Sys2Proof.Machine

/-! ## The nodes below a node -/

theorem subtreeNodes_leaf {nodes : List Node} {n : Nat} {x : Byte} {f : Word} (h : nodes[n]? = some (.leaf x f)) (fuel : Nat) :
    subtreeNodes nodes (fuel + 1) n = [n] := by
  rw [subtreeNodes, h]

theorem subtreeNodes_internal {nodes : List Node} {n : Nat} {l r : BitVec 9} {f : Word}
    (h : nodes[n]? = some (.internal l r f)) (fuel : Nat) :
    subtreeNodes nodes (fuel + 1) n = n :: (subtreeNodes nodes fuel l.toNat ++ subtreeNodes nodes fuel r.toNat) := by
  rw [subtreeNodes, h]

/-- Below each node met lies a part of the tree. -/
theorem Unfolds.exists_of_mem_subtreeNodes {nodes : List Node} {n : Nat} {T : CodeTree} (h : Unfolds nodes n T) {fuel m : Nat}
    (hm : m ∈ subtreeNodes nodes fuel n) : ∃ S, Unfolds nodes m S ∧ S.size ≤ T.size ∧ S.symbols.Sublist T.symbols := by
  induction h generalizing fuel with
  | leaf hn =>
    cases fuel with
    | zero => cases hm
    | succ fuel =>
      rw [subtreeNodes_leaf hn, List.mem_singleton] at hm
      exact ⟨_, hm ▸ .leaf hn, le_rfl, List.Sublist.refl _⟩
  | @node n l r f L R hn hl hr ihl ihr =>
    cases fuel with
    | zero => cases hm
    | succ fuel =>
      rw [subtreeNodes_internal hn, List.mem_cons, List.mem_append] at hm
      rw [CodeTree.size, CodeTree.symbols]
      rcases hm with rfl | hm | hm
      · exact ⟨_, .node hn hl hr, le_rfl, List.Sublist.refl _⟩
      · obtain ⟨S, hS, hsize, hsub⟩ := ihl hm
        exact ⟨S, hS, by omega, hsub.trans (List.sublist_append_left _ _)⟩
      · obtain ⟨S, hS, hsize, hsub⟩ := ihr hm
        exact ⟨S, hS, by omega, hsub.trans (List.sublist_append_right _ _)⟩

/-- With room for the whole tree every node is met. -/
theorem Unfolds.length_subtreeNodes {nodes : List Node} {n : Nat} {T : CodeTree} (h : Unfolds nodes n T) {fuel : Nat}
    (hfuel : T.size ≤ fuel) : (subtreeNodes nodes fuel n).length = T.size := by
  induction h generalizing fuel with
  | leaf hn =>
    obtain ⟨fuel, rfl⟩ := Nat.exists_eq_add_one.2 (Nat.lt_of_succ_le hfuel)
    rw [subtreeNodes_leaf hn]
    rfl
  | node hn _ _ ihl ihr =>
    rw [CodeTree.size] at hfuel ⊢
    obtain ⟨fuel, rfl⟩ := Nat.exists_eq_add_one.2 (Nat.lt_of_succ_le ((Nat.le_add_left _ _).trans hfuel))
    rw [subtreeNodes_internal hn, List.length_cons, List.length_append, ihl (by omega), ihr (by omega)]

theorem Unfolds.symbols_eq_filterMap {nodes : List Node} {n : Nat} {T : CodeTree} (h : Unfolds nodes n T) {fuel : Nat}
    (hfuel : T.size ≤ fuel) : T.symbols = (subtreeNodes nodes fuel n).filterMap fun m => nodes[m]?.bind Node.symbol? := by
  induction h generalizing fuel with
  | leaf hn =>
    obtain ⟨fuel, rfl⟩ := Nat.exists_eq_add_one.2 (Nat.lt_of_succ_le hfuel)
    simp [subtreeNodes_leaf hn, hn, Node.symbol?, CodeTree.symbols]
  | node hn _ _ ihl ihr =>
    rw [CodeTree.size] at hfuel
    obtain ⟨fuel, rfl⟩ := Nat.exists_eq_add_one.2 (Nat.lt_of_succ_le ((Nat.le_add_left _ _).trans hfuel))
    rw [CodeTree.symbols, subtreeNodes_internal hn, ihl (fuel := fuel) (by omega), ihr (fuel := fuel) (by omega)]
    simp [hn, Node.symbol?]

/-- With a symbol of its own at each leaf no node is met twice: the trees below it would share their symbols. -/
theorem Unfolds.nodup_subtreeNodes {nodes : List Node} {n : Nat} {T : CodeTree} (h : Unfolds nodes n T) (hnodup : T.symbols.Nodup)
    (fuel : Nat) : (subtreeNodes nodes fuel n).Nodup := by
  induction h generalizing fuel with
  | leaf hn =>
    cases fuel with
    | zero => exact List.nodup_nil
    | succ fuel =>
      rw [subtreeNodes_leaf hn]
      exact List.nodup_singleton _
  | @node n l r f L R hn hl hr ihl ihr =>
    cases fuel with
    | zero => exact List.nodup_nil
    | succ fuel =>
      obtain ⟨hL, hR, hdisjoint⟩ := List.nodup_append.1 hnodup
      have hsmaller {m : Nat} {S : CodeTree} (hS : Unfolds nodes m S) (hsize : S.size ≤ L.size ∨ S.size ≤ R.size) : n ≠ m :=
        (hS.ne_of_size_lt (.node hn hl hr) (by rw [CodeTree.size]; omega)).symm
      rw [subtreeNodes_internal hn, List.nodup_cons, List.mem_append, not_or, List.nodup_append]
      refine ⟨⟨fun hm => ?_, fun hm => ?_⟩, ihl hL fuel, ihr hR fuel, fun a ha b hb hab => ?_⟩
      · obtain ⟨S, hS, hsize, -⟩ := hl.exists_of_mem_subtreeNodes hm
        exact hsmaller hS (.inl hsize) rfl
      · obtain ⟨S, hS, hsize, -⟩ := hr.exists_of_mem_subtreeNodes hm
        exact hsmaller hS (.inr hsize) rfl
      · subst hab
        obtain ⟨S, hS, -, hsubl⟩ := hl.exists_of_mem_subtreeNodes ha
        obtain ⟨S', hS', -, hsubr⟩ := hr.exists_of_mem_subtreeNodes hb
        obtain rfl := hS.unique hS'
        obtain ⟨x, hx⟩ := List.exists_mem_of_length_pos S.symbols_length_pos
        exact hdisjoint x (hsubl.subset hx) x (hsubr.subset hx) rfl

/-- The nodes met are all nodes of the arena. -/
theorem Unfolds.perm_range {nodes : List Node} {n : Nat} {T : CodeTree} (h : Unfolds nodes n T) (hnodup : T.symbols.Nodup)
    (hsize : T.size = nodes.length) {fuel : Nat} (hfuel : T.size ≤ fuel) :
    (subtreeNodes nodes fuel n).Perm (List.range nodes.length) := by
  have hsub : subtreeNodes nodes fuel n ⊆ List.range nodes.length := fun m hm => by
    obtain ⟨S, hS, -⟩ := h.exists_of_mem_subtreeNodes hm
    exact List.mem_range.2 hS.lt_length
  refine ((h.nodup_subtreeNodes hnodup fuel).subperm hsub).perm_of_length_le ?_
  rw [List.length_range, h.length_subtreeNodes hfuel, hsize]

/-! ## Valid trees -/

/-- The two children of a node below which no symbol stands twice are distinct. -/
theorem childrenDistinct_of_unfolds {nodes : List Node} {n : Nat} {T : CodeTree} {node : Node} (h : Unfolds nodes n T)
    (hn : nodes[n]? = some node) (hnodup : T.symbols.Nodup) : childrenDistinct node = true := by
  cases h with
  | leaf hleaf =>
    cases hn.symm.trans hleaf
    rfl
  | @node _ l r f L R hnode hl hr =>
    cases hn.symm.trans hnode
    obtain ⟨-, -, hdisjoint⟩ := List.nodup_append.1 hnodup
    refine bne_iff_ne.2 fun hlr => ?_
    subst hlr
    obtain rfl := hl.unique hr
    obtain ⟨x, hx⟩ := List.exists_mem_of_length_pos L.symbols_length_pos
    exact hdisjoint x hx x hx rfl

/-- R67 of an arena that is one tree with two or more leaves, their symbols distinct. -/
theorem Tree.HasLeaves.wf {t : Tree} {syms : List Byte} (h : t.HasLeaves syms) (hnodup : syms.Nodup) (htwo : 2 ≤ syms.length) :
    t.wf := by
  obtain ⟨T, hT, hsize, hperm⟩ := h
  have hsyms : T.symbols.Nodup := hperm.nodup_iff.2 hnodup
  have hfuel : T.size ≤ t.nodes.length + 1 := by omega
  have hall := hT.perm_range hsyms hsize hfuel
  have hleaves : (leafSymbols t.nodes).Perm T.symbols := by
    rw [leafSymbols_eq_filterMap_range, hT.symbols_eq_filterMap hfuel]
    exact (hall.filterMap _).symm
  have hcount : (leafSymbols t.nodes).length = syms.length := (hleaves.trans hperm).length_eq
  have hadd := T.size_add_one
  rw [hperm.length_eq] at hadd
  refine ⟨hall, ?_, List.all_eq_true.2 fun node hnode => ?_, hleaves.nodup_iff.2 hsyms, ?_⟩
  · cases hT with
    | leaf => simp [CodeTree.size] at hadd; omega
    | node hroot => rw [isInternal, hroot]
  · obtain ⟨n, hn, hget⟩ := List.mem_iff_getElem.1 hnode
    have hmem := hall.mem_iff.2 (List.mem_range.2 hn)
    obtain ⟨S, hS, -, hsub⟩ := hT.exists_of_mem_subtreeNodes hmem
    exact childrenDistinct_of_unfolds hS (List.getElem?_eq_some_iff.2 ⟨hn, hget⟩) (hsub.nodup hsyms)
  · have := length_le_of_nodup_bytes hnodup
    omega

theorem wf_buildDegenerate (x : Byte) (n : Word) : (buildDegenerate x n).wf :=
  (hasLeaves_buildDegenerate x n).wf (by simp) le_rfl

theorem wf_buildTree {f : FreqTable} (h : 2 ≤ (presentSymbols f).length) : (buildTree f).wf :=
  (hasLeaves_buildTree (List.ne_nil_of_length_pos (by omega))).wf (nodup_presentSymbols f) h

end Sys2Proof.Machine

end

section
/-! PROOFS. The merge rule: the queue of the tree builder in key order, and the node that each turn of its loop creates
(43_huffman_tree_builder.md R241, R242). -/

namespace Sys2Proof.Machine

/-! ## The order of keys -/

theorem before_iff (a b : Key) : a.before b = true ↔ a.freq < b.freq ∨ (a.freq = b.freq ∧ a.seq < b.seq) := by
  simp [Key.before]

theorem before_trans {a b c : Key} (hab : a.before b = true) (hbc : b.before c = true) : a.before c = true := by
  rw [before_iff] at *
  omega

theorem before_of_not_before {a b : Key} (hseq : a.seq ≠ b.seq) (h : ¬ a.before b = true) : b.before a = true := by
  rw [before_iff] at *
  omega

/-- The queue rises strictly in key order. -/
abbrev QueueSorted (queue : List Key) : Prop := queue.Pairwise fun a b => a.before b = true

theorem mem_enqueue {k q : Key} {queue : List Key} : q ∈ enqueue k queue ↔ q = k ∨ q ∈ queue := by
  rw [(perm_enqueue k queue).mem_iff, List.mem_cons]

theorem queueSorted_enqueue {k : Key} {queue : List Key} (hnew : ∀ q ∈ queue, k.seq ≠ q.seq) (h : QueueSorted queue) :
    QueueSorted (enqueue k queue) := by
  induction queue with
  | nil => exact List.pairwise_singleton _ _
  | cons q qs ih =>
    obtain ⟨hq, hqs⟩ := List.pairwise_cons.1 h
    obtain ⟨hkq, hkqs⟩ := List.forall_mem_cons.1 hnew
    rw [enqueue]
    split
    next hbefore =>
      exact List.pairwise_cons.2 ⟨List.forall_mem_cons.2 ⟨hbefore, fun r hr => before_trans hbefore (hq r hr)⟩, h⟩
    next hbefore =>
      refine List.pairwise_cons.2 ⟨fun r hr => ?_, ih hkqs hqs⟩
      rcases mem_enqueue.1 hr with rfl | hr
      · exact before_of_not_before hkq hbefore
      · exact hq r hr

/-! ## Nodes added to an arena -/

section
variable {nodes : List Node} (more : List Node)

theorem freqAt_append {n : Nat} (h : n < nodes.length) : freqAt (nodes ++ more) n = freqAt nodes n := by
  rw [freqAt, freqAt, List.getElem?_append_left h]

theorem keyBefore_append {a b : Nat} (ha : a < nodes.length) (hb : b < nodes.length) :
    KeyBefore (nodes ++ more) a b ↔ KeyBefore nodes a b := by
  rw [KeyBefore, KeyBefore, freqAt_append more ha, freqAt_append more hb]

theorem mergedBefore_append {j : Nat} (hj : j ≤ nodes.length) (n : Nat) :
    MergedBefore (nodes ++ more) j n ↔ MergedBefore nodes j n := by
  refine exists_congr fun i => exists_congr fun l => exists_congr fun r => exists_congr fun f => and_congr_right fun hi => ?_
  rw [List.getElem?_append_left (hi.trans_le hj)]

theorem mergeStep_append {j : Nat} (h : MergeStep nodes j) : MergeStep (nodes ++ more) j := by
  obtain ⟨l, r, f, hnode, hl, hr, hlnew, hrnew, hlr, hleast, hf⟩ := h
  have hj : j < nodes.length := (List.getElem?_eq_some_iff.1 hnode).1
  have hlt {n : Nat} (hn : n < j) : n < nodes.length := hn.trans hj
  refine ⟨l, r, f, (List.getElem?_append_left hj).trans hnode, hl, hr, ?_, ?_, ?_, fun n hn hnew hnl hnr => ?_, ?_⟩
  · rwa [mergedBefore_append more hj.le]
  · rwa [mergedBefore_append more hj.le]
  · rwa [keyBefore_append more (hlt hl) (hlt hr)]
  · rw [mergedBefore_append more hj.le] at hnew
    rw [keyBefore_append more (hlt hr) (hlt hn)]
    exact hleast n hn hnew hnl hnr
  · rw [hf, freqAt_append more (hlt hl), freqAt_append more (hlt hr)]

end

/-- With a new node at the end of the arena its two children are merged as well. -/
theorem mergedBefore_concat (nodes : List Node) (l r : BitVec 9) (f : Word) (n : Nat) :
    MergedBefore (nodes ++ [.internal l r f]) (nodes.length + 1) n ↔
      MergedBefore nodes nodes.length n ∨ n = l.toNat ∨ n = r.toNat := by
  constructor
  · rintro ⟨i, l', r', f', hi, hnode, hn⟩
    rcases Nat.lt_succ_iff_lt_or_eq.1 hi with hi | rfl
    · rw [List.getElem?_append_left hi] at hnode
      exact .inl ⟨i, l', r', f', hi, hnode, hn⟩
    · cases hnode.symm.trans List.getElem?_concat_length
      exact .inr hn
  · rintro (⟨i, l', r', f', hi, hnode, hn⟩ | hn)
    · exact ⟨i, l', r', f', by omega, by rwa [List.getElem?_append_left hi], hn⟩
    · exact ⟨nodes.length, l, r, f, Nat.lt_succ_self _, List.getElem?_concat_length, hn⟩

/-! ## The loop's invariant -/

/-- The state of the loop of R242 over an arena whose first `k` nodes are the leaves: the queue holds the keys of the nodes not merged
yet, in order, no frequency wraps, and every node from `k` on was created by the merge rule. -/
structure MergeState (k : Nat) (nodes : List Node) (queue : List Key) : Prop where
  sorted : QueueSorted queue
  freq : ∀ q ∈ queue, freqAt nodes q.seq = q.freq
  unmerged : ∀ n, (∃ q ∈ queue, q.seq = n) ↔ n < nodes.length ∧ ¬ MergedBefore nodes nodes.length n
  below : ∀ n, MergedBefore nodes nodes.length n → n < nodes.length
  sum : (queue.map Key.freq).sum < 2 ^ 32
  count : nodes.length + queue.length ≤ 512
  merged : ∀ j, k ≤ j → j < nodes.length → MergeStep nodes j

namespace MergeState

variable {k : Nat} {nodes : List Node} {queue : List Key}

theorem seq_lt (h : MergeState k nodes queue) {q : Key} (hq : q ∈ queue) : q.seq < nodes.length :=
  ((h.unmerged q.seq).1 ⟨q, hq, rfl⟩).1

theorem not_mergedBefore (h : MergeState k nodes queue) {q : Key} (hq : q ∈ queue) :
    ¬ MergedBefore nodes nodes.length q.seq :=
  ((h.unmerged q.seq).1 ⟨q, hq, rfl⟩).2

theorem before_iff_keyBefore (h : MergeState k nodes queue) {p q : Key} (hp : p ∈ queue) (hq : q ∈ queue) :
    p.before q = true ↔ KeyBefore nodes p.seq q.seq := by
  rw [before_iff, KeyBefore, h.freq p hp, h.freq q hq]

/-- A key has one node, so an earlier key of the queue has another node. -/
theorem seq_ne_of_before (h : MergeState k nodes queue) {p q : Key} (hp : p ∈ queue) (hq : q ∈ queue)
    (hbefore : p.before q = true) : p.seq ≠ q.seq := fun heq => by
  have hfreq : p.freq = q.freq := by rw [← h.freq p hp, ← h.freq q hq, heq]
  rw [before_iff] at hbefore
  omega

/-! ## One turn -/

/-- The node that merges the keys `a` and `b` (R242). -/
def mergeNode (a b : Key) : Node :=
  .internal (BitVec.ofNat 9 a.seq) (BitVec.ofNat 9 b.seq) (BitVec.ofNat 32 (a.freq + b.freq))

section
variable {a b : Key} (h : MergeState k nodes (a :: b :: queue))
include h

theorem toNat_seq {q : Key} (hq : q ∈ a :: b :: queue) : (BitVec.ofNat 9 q.seq).toNat = q.seq := by
  have hlt := h.seq_lt hq
  have hcount := h.count
  simp only [List.length_cons] at hcount
  exact Nat.mod_eq_of_lt (show q.seq < 512 by omega)

theorem toNat_freq : (BitVec.ofNat 32 (a.freq + b.freq)).toNat = a.freq + b.freq := by
  have hsum := h.sum
  simp only [List.map_cons, List.sum_cons] at hsum
  exact Nat.mod_eq_of_lt (by omega)

theorem freqAt_mergeNode : freqAt (nodes ++ [mergeNode a b]) nodes.length = a.freq + b.freq := by
  rw [freqAt, List.getElem?_concat_length]
  exact h.toNat_freq

/-- The new node has the two least keys as children (R242). -/
theorem mergeStep_mergeNode : MergeStep (nodes ++ [mergeNode a b]) nodes.length := by
  have ha : a ∈ a :: b :: queue := List.mem_cons_self
  have hb : b ∈ a :: b :: queue := List.mem_cons_of_mem _ List.mem_cons_self
  obtain ⟨hafirst, hrest⟩ := List.pairwise_cons.1 h.sorted
  obtain ⟨hbfirst, -⟩ := List.pairwise_cons.1 hrest
  refine ⟨_, _, _, List.getElem?_concat_length, ?_⟩
  rw [h.toNat_seq ha, h.toNat_seq hb, h.toNat_freq, freqAt_append _ (h.seq_lt ha), freqAt_append _ (h.seq_lt hb), h.freq a ha,
    h.freq b hb]
  refine ⟨h.seq_lt ha, h.seq_lt hb, ?_, ?_, ?_, fun n hn hnew hna hnb => ?_, rfl⟩
  · exact mt (mergedBefore_append _ le_rfl _).1 (h.not_mergedBefore ha)
  · exact mt (mergedBefore_append _ le_rfl _).1 (h.not_mergedBefore hb)
  · rw [keyBefore_append _ (h.seq_lt ha) (h.seq_lt hb), ← h.before_iff_keyBefore ha hb]
    exact hafirst b List.mem_cons_self
  · rw [mergedBefore_append _ le_rfl] at hnew
    obtain ⟨q, hq, rfl⟩ := (h.unmerged n).2 ⟨hn, hnew⟩
    rw [keyBefore_append _ (h.seq_lt hb) hn, ← h.before_iff_keyBefore hb hq]
    rcases List.mem_cons.1 hq with rfl | hq
    · exact absurd rfl hna
    · rcases List.mem_cons.1 hq with rfl | hq
      · exact absurd rfl hnb
      · exact hbfirst q hq

/-- One turn of the loop keeps the invariant. -/
theorem merge : MergeState k (nodes ++ [mergeNode a b]) (enqueue ⟨a.freq + b.freq, nodes.length⟩ queue) := by
  have ha : a ∈ a :: b :: queue := List.mem_cons_self
  have hb : b ∈ a :: b :: queue := List.mem_cons_of_mem _ List.mem_cons_self
  have hmem {q : Key} (hq : q ∈ queue) : q ∈ a :: b :: queue := List.mem_cons_of_mem _ (List.mem_cons_of_mem _ hq)
  obtain ⟨hafirst, hrest⟩ := List.pairwise_cons.1 h.sorted
  obtain ⟨hbfirst, hsorted⟩ := List.pairwise_cons.1 hrest
  have hlen : (nodes ++ [mergeNode a b]).length = nodes.length + 1 := List.length_append
  have hmerged (n : Nat) : MergedBefore (nodes ++ [mergeNode a b]) (nodes.length + 1) n ↔
      MergedBefore nodes nodes.length n ∨ n = a.seq ∨ n = b.seq := by
    rw [mergeNode, mergedBefore_concat, h.toNat_seq ha, h.toNat_seq hb]
  refine ⟨queueSorted_enqueue (fun q hq => (h.seq_lt (hmem hq)).ne') hsorted, fun q hq => ?_, fun n => ?_, fun n hn => ?_, ?_, ?_,
    fun j hk hj => ?_⟩
  · rcases mem_enqueue.1 hq with rfl | hq
    · exact h.freqAt_mergeNode
    · rw [freqAt_append _ (h.seq_lt (hmem hq)), h.freq q (hmem hq)]
  · rw [hlen, hmerged]
    constructor
    · rintro ⟨q, hq, rfl⟩
      rcases mem_enqueue.1 hq with rfl | hq
      · refine ⟨Nat.lt_succ_self _, ?_⟩
        rintro (hn | hn | hn)
        · exact (h.below _ hn).false
        · exact (h.seq_lt ha).ne' hn
        · exact (h.seq_lt hb).ne' hn
      · refine ⟨(h.seq_lt (hmem hq)).trans (Nat.lt_succ_self _), ?_⟩
        rintro (hn | hn | hn)
        · exact h.not_mergedBefore (hmem hq) hn
        · exact h.seq_ne_of_before ha (hmem hq) (hafirst q (List.mem_cons_of_mem _ hq)) hn.symm
        · exact h.seq_ne_of_before hb (hmem hq) (hbfirst q hq) hn.symm
    · rintro ⟨hn, hnew⟩
      rw [not_or, not_or] at hnew
      obtain ⟨hold, hna, hnb⟩ := hnew
      rcases Nat.lt_succ_iff_lt_or_eq.1 hn with hn | rfl
      · obtain ⟨q, hq, rfl⟩ := (h.unmerged n).2 ⟨hn, hold⟩
        rcases List.mem_cons.1 hq with rfl | hq
        · exact absurd rfl hna
        · rcases List.mem_cons.1 hq with rfl | hq
          · exact absurd rfl hnb
          · exact ⟨q, mem_enqueue.2 (.inr hq), rfl⟩
      · exact ⟨_, mem_enqueue.2 (.inl rfl), rfl⟩
  · rw [hlen] at hn ⊢
    rcases (hmerged n).1 hn with hn | rfl | rfl
    · exact (h.below n hn).trans (Nat.lt_succ_self _)
    · exact (h.seq_lt ha).trans (Nat.lt_succ_self _)
    · exact (h.seq_lt hb).trans (Nat.lt_succ_self _)
  · have hsum := h.sum
    rw [((perm_enqueue _ _).map Key.freq).sum_eq]
    simp only [List.map_cons, List.sum_cons] at hsum ⊢
    omega
  · have hcount := h.count
    rw [hlen, (perm_enqueue _ _).length_eq]
    simp only [List.length_cons] at hcount ⊢
    omega
  · rw [hlen] at hj
    rcases Nat.lt_succ_iff_lt_or_eq.1 hj with hj | rfl
    · exact mergeStep_append _ (h.merged j hk hj)
    · exact h.mergeStep_mergeNode

end

/-- Every node that the loop creates is created by the merge rule. -/
theorem mergeStep_mergeLoop {n : Nat} (h : MergeState k nodes queue) {j : Nat} (hk : k ≤ j)
    (hj : j < (mergeLoop n queue nodes).nodes.length) : MergeStep (mergeLoop n queue nodes).nodes j := by
  induction n generalizing nodes queue with
  | zero => cases queue <;> exact h.merged j hk hj
  | succ n ih =>
    match queue with
    | [] => exact h.merged j hk hj
    | [q] => exact h.merged j hk hj
    | a :: b :: queue => exact ih h.merge hj

end MergeState

/-! ## The shape of the loop's result -/

theorem prefix_mergeLoop (n : Nat) (queue : List Key) (nodes : List Node) : nodes <+: (mergeLoop n queue nodes).nodes := by
  induction n generalizing queue nodes with
  | zero => cases queue <;> exact List.prefix_rfl
  | succ n ih =>
    match queue with
    | [] => exact List.prefix_rfl
    | [q] => exact List.prefix_rfl
    | a :: b :: queue => exact (List.prefix_append _ _).trans (ih _ _)

/-- The root is the node created last: its key is in the queue, so it is the one key left. -/
theorem root_mergeLoop {n : Nat} {queue : List Key} {nodes : List Node} (hlast : ∃ q ∈ queue, q.seq + 1 = nodes.length)
    (hfuel : queue.length ≤ n + 1) :
    (mergeLoop n queue nodes).root = BitVec.ofNat 9 ((mergeLoop n queue nodes).nodes.length - 1) := by
  induction n generalizing queue nodes with
  | zero =>
    obtain ⟨q, hq, hseq⟩ := hlast
    obtain ⟨p, rfl⟩ := List.length_eq_one_iff.1 (hfuel.antisymm (List.length_pos_of_mem hq))
    obtain rfl := List.mem_singleton.1 hq
    rw [mergeLoop_singleton, ← hseq, Nat.add_sub_cancel]
  | succ n ih =>
    match queue with
    | [] => obtain ⟨q, hq, -⟩ := hlast; cases hq
    | [p] =>
      obtain ⟨q, hq, hseq⟩ := hlast
      obtain rfl := List.mem_singleton.1 hq
      rw [mergeLoop_singleton, ← hseq, Nat.add_sub_cancel]
    | a :: b :: queue =>
      refine ih ⟨_, mem_enqueue.2 (.inl rfl), (List.length_append (bs := [_])).symm⟩ ?_
      rw [(perm_enqueue _ _).length_eq]
      exact Nat.le_of_succ_le_succ hfuel

/-! ## The leaves -/

/-- The arena of the leaves (R242). -/
def leafNodes (f : FreqTable) (syms : List Byte) : List Node := syms.map fun x => .leaf x (f.get x)

theorem mem_leafQueue {f : FreqTable} {n : Nat} {syms : List Byte} {q : Key} :
    q ∈ leafQueue f n syms ↔ ∃ i x, syms[i]? = some x ∧ q = ⟨(f.get x).toNat, n + i⟩ := by
  induction syms generalizing n with
  | nil => simp [leafQueue]
  | cons y ys ih =>
    rw [leafQueue, mem_enqueue, ih]
    constructor
    · rintro (rfl | ⟨i, x, hx, rfl⟩)
      · exact ⟨0, y, rfl, rfl⟩
      · exact ⟨i + 1, x, hx, by rw [Nat.add_assoc, Nat.add_comm 1]⟩
    · rintro ⟨i, x, hx, rfl⟩
      cases i with
      | zero =>
        cases hx
        exact .inl rfl
      | succ i => exact .inr ⟨i, x, hx, by rw [Nat.add_assoc, Nat.add_comm 1]⟩

theorem queueSorted_leafQueue (f : FreqTable) (n : Nat) (syms : List Byte) : QueueSorted (leafQueue f n syms) := by
  induction syms generalizing n with
  | nil => exact List.Pairwise.nil
  | cons x xs ih =>
    refine queueSorted_enqueue (fun q hq => ?_) (ih (n + 1))
    obtain ⟨i, y, -, rfl⟩ := mem_leafQueue.1 hq
    exact Nat.ne_of_lt (show n < n + 1 + i by omega)

theorem sum_freq_leafQueue (f : FreqTable) (n : Nat) (syms : List Byte) :
    ((leafQueue f n syms).map Key.freq).sum = (syms.map fun x => (f.get x).toNat).sum := by
  induction syms generalizing n with
  | nil => rfl
  | cons x xs ih =>
    rw [leafQueue, ((perm_enqueue _ _).map Key.freq).sum_eq, List.map_cons, List.map_cons, List.sum_cons, List.sum_cons, ih]

theorem length_leafQueue (f : FreqTable) (n : Nat) (syms : List Byte) : (leafQueue f n syms).length = syms.length := by
  induction syms generalizing n with
  | nil => rfl
  | cons x xs ih => rw [leafQueue, (perm_enqueue _ _).length_eq, List.length_cons, List.length_cons, ih]

theorem not_mergedBefore_leafNodes (f : FreqTable) (syms : List Byte) (j n : Nat) : ¬ MergedBefore (leafNodes f syms) j n := by
  rintro ⟨i, l, r, w, -, hnode, -⟩
  simp [leafNodes] at hnode

/-- The loop of R242 begins with the invariant. -/
theorem mergeState_leafQueue {f : FreqTable} {syms : List Byte} (hfew : syms.length ≤ 256)
    (hsum : (syms.map fun x => (f.get x).toNat).sum < 2 ^ 32) :
    MergeState syms.length (leafNodes f syms) (leafQueue f 0 syms) where
  sorted := queueSorted_leafQueue f 0 syms
  freq := fun q hq => by
    obtain ⟨i, x, hx, rfl⟩ := mem_leafQueue.1 hq
    simp [freqAt, leafNodes, hx]
  unmerged := fun n => by
    have hlen : (leafNodes f syms).length = syms.length := List.length_map _
    rw [hlen]
    constructor
    · rintro ⟨q, hq, rfl⟩
      obtain ⟨i, x, hx, rfl⟩ := mem_leafQueue.1 hq
      refine ⟨?_, not_mergedBefore_leafNodes f syms _ _⟩
      rw [Nat.zero_add]
      exact (List.getElem?_eq_some_iff.1 hx).1
    · rintro ⟨hn, -⟩
      exact ⟨⟨(f.get syms[n]).toNat, n⟩, mem_leafQueue.2 ⟨n, syms[n], List.getElem?_eq_getElem hn, by rw [Nat.zero_add]⟩, rfl⟩
  below := fun n hn => absurd hn (not_mergedBefore_leafNodes f syms _ n)
  sum := (sum_freq_leafQueue f 0 syms).trans_lt hsum
  count := by
    rw [leafNodes, List.length_map, length_leafQueue]
    omega
  merged := fun j hk hj => absurd hj (by rw [leafNodes, List.length_map]; omega)

/-! ## The built tree -/

theorem buildTree_eq (f : FreqTable) : buildTree f =
    mergeLoop (presentSymbols f).length (leafQueue f 0 (presentSymbols f)) (leafNodes f (presentSymbols f)) := rfl

theorem take_nodes_buildTree (f : FreqTable) : (buildTree f).nodes.take (presentSymbols f).length = leafNodes f (presentSymbols f) := by
  have hprefix := prefix_mergeLoop (presentSymbols f).length (leafQueue f 0 (presentSymbols f)) (leafNodes f (presentSymbols f))
  have hlen : (presentSymbols f).length = (leafNodes f (presentSymbols f)).length := (List.length_map _).symm
  rw [hlen]
  exact (List.prefix_iff_eq_take.1 hprefix).symm

section
variable {f : FreqTable} (h : 2 ≤ (presentSymbols f).length)
include h

theorem length_nodes_buildTree : (buildTree f).nodes.length = 2 * (presentSymbols f).length - 1 := by
  obtain ⟨T, -, hsize, hperm⟩ := hasLeaves_buildTree (List.ne_nil_of_length_pos (show 0 < (presentSymbols f).length by omega))
  have hadd := T.size_add_one
  rw [hperm.length_eq] at hadd
  omega

theorem root_buildTree : (buildTree f).root.toNat = 2 * (presentSymbols f).length - 2 := by
  have hlast : ∃ q ∈ leafQueue f 0 (presentSymbols f), q.seq + 1 = (leafNodes f (presentSymbols f)).length := by
    have hlt : (presentSymbols f).length - 1 < (presentSymbols f).length := by omega
    refine ⟨_, mem_leafQueue.2 ⟨_, _, List.getElem?_eq_getElem hlt, rfl⟩, ?_⟩
    rw [leafNodes, List.length_map]
    show 0 + _ + 1 = _
    omega
  have hfew := length_le_of_nodup_bytes (nodup_presentSymbols f)
  rw [buildTree_eq, root_mergeLoop hlast (by rw [length_leafQueue]; omega), ← buildTree_eq, length_nodes_buildTree h,
    BitVec.toNat_ofNat, Nat.mod_eq_of_lt (by omega)]
  omega

end

end Sys2Proof.Machine

open Sys2Proof Sys2Proof.Machine

/-- Settles O32: the loop's queue is a forest with all nodes and all symbols, and, while no sum wraps, holds the unmerged nodes in key
order. -/
theorem builtTreeIsWellFormed : Obligations.BuiltTreeIsWellFormed := by
  refine fun f h => ⟨length_nodes_buildTree h, root_buildTree h, rfl, take_nodes_buildTree f, wf_buildTree h, fun hsum j hk hj => ?_⟩
  exact (mergeState_leafQueue (length_le_of_nodup_bytes (nodup_presentSymbols f)) hsum).mergeStep_mergeLoop hk hj

end

section
/-! PROOFS. Codes that span no more nodes than a full binary tree with as many leaves are the paths of such a tree (44_code_table_rom.md
R271: H3 to H5 leave nothing to H6). -/

namespace Sys2Proof.Machine

/-! ## Spanned nodes -/

/-- The nodes that the codes span, each as the path to it. -/
def spanned (cs : List SymbolCode) : List Bits := (cs.flatMap fun sc => sc.2.inits).dedup

theorem mem_spanned (cs : List SymbolCode) (q : Bits) : q ∈ spanned cs ↔ ∃ sc ∈ cs, q <+: sc.2 := by
  simp [spanned]

theorem nodup_spanned (cs : List SymbolCode) : (spanned cs).Nodup := List.nodup_dedup _

theorem spannedNodes_eq_spanned (es : List HeaderEntry) : spannedNodes es = spanned (es.map HeaderEntry.code) := by
  simp [spannedNodes, spanned, List.flatMap_map, HeaderEntry.code]

/-! ## The codes below a child of the root -/

/-- The codes that begin with `bit`, without it. -/
def below (bit : Bool) (cs : List SymbolCode) : List SymbolCode :=
  (cs.filter fun sc => sc.2.head? == some bit).map fun sc => (sc.1, sc.2.tail)

/-- The code that continues `bit` with a code below. -/
def above (bit : Bool) (sc : SymbolCode) : SymbolCode := (sc.1, bit :: sc.2)

theorem map_above_below (bit : Bool) (cs : List SymbolCode) :
    (below bit cs).map (above bit) = cs.filter fun sc => sc.2.head? == some bit := by
  rw [below, List.map_map]
  refine (List.map_congr_left fun sc hsc => ?_).trans (List.map_id _)
  obtain ⟨x, b⟩ := sc
  obtain ⟨b', rfl⟩ : ∃ b', b = bit :: b' := List.head?_eq_some_iff.1 (by simpa using (List.mem_filter.1 hsc).2)
  rfl

theorem mem_below (bit : Bool) (cs : List SymbolCode) (sc : SymbolCode) : sc ∈ below bit cs ↔ above bit sc ∈ cs := by
  have hinj : Function.Injective (above bit) := fun a b h => by
    simp only [above, Prod.mk.injEq, List.cons.injEq, true_and] at h
    exact Prod.ext h.1 h.2
  rw [← List.mem_map_of_injective hinj, map_above_below, List.mem_filter]
  simp [above]

theorem pairwise_apart_below (bit : Bool) {cs : List SymbolCode} (h : cs.Pairwise Apart) : (below bit cs).Pairwise Apart := by
  have habove := h.filter fun sc => sc.2.head? == some bit
  rw [← map_above_below, List.pairwise_map] at habove
  refine habove.imp fun {sc sd} hsc => ?_
  simpa [Apart, above, List.cons_prefix_cons] using hsc

section
variable {cs : List SymbolCode} (hne : ∀ sc ∈ cs, sc.2 ≠ [])
include hne

/-- Codes that are not empty begin with 0 or with 1. -/
theorem perm_below_append : ((below false cs).map (above false) ++ (below true cs).map (above true)).Perm cs := by
  have hrest : cs.filter (fun sc => sc.2.head? == some true) = cs.filter fun sc => !(sc.2.head? == some false) := by
    refine List.filter_congr fun ⟨x, b⟩ hsc => ?_
    match b, hne _ hsc with
    | bit :: b, _ => cases bit <;> rfl
  rw [map_above_below, map_above_below, hrest]
  exact List.filter_append_perm _ cs

theorem length_below_add : (below false cs).length + (below true cs).length = cs.length := by
  have hlen := (perm_below_append hne).length_eq
  rwa [List.length_append, List.length_map, List.length_map] at hlen

end

/-- The nodes spanned are the root and those below its two children. -/
theorem length_spanned {cs : List SymbolCode} (hcs : cs ≠ []) :
    (spanned cs).length = (spanned (below false cs)).length + (spanned (below true cs)).length + 1 := by
  have hperm : (spanned cs).Perm
      ([] :: ((spanned (below false cs)).map (false :: ·) ++ (spanned (below true cs)).map (true :: ·))) := by
    refine (List.perm_ext_iff_of_nodup (nodup_spanned cs) ?_).2 fun q => ?_
    · refine List.nodup_cons.2 ⟨by simp, List.nodup_append.2 ⟨(nodup_spanned _).map List.cons_injective,
        (nodup_spanned _).map List.cons_injective, fun a ha b hb => ?_⟩⟩
      obtain ⟨_, -, rfl⟩ := List.mem_map.1 ha
      obtain ⟨_, -, rfl⟩ := List.mem_map.1 hb
      simp
    · have hchild (bit : Bool) (p : Bits) : p ∈ spanned (below bit cs) ↔ bit :: p ∈ spanned cs := by
        rw [mem_spanned, mem_spanned]
        constructor
        · rintro ⟨sc, hsc, hp⟩
          exact ⟨_, (mem_below bit cs sc).1 hsc, List.cons_prefix_cons.2 ⟨rfl, hp⟩⟩
        · rintro ⟨⟨x, b⟩, hsc, b', rfl⟩
          exact ⟨(x, p ++ b'), (mem_below bit cs _).2 hsc, List.prefix_append _ _⟩
      obtain ⟨sc, hsc⟩ := List.exists_mem_of_ne_nil cs hcs
      match q with
      | [] => exact iff_of_true ((mem_spanned cs []).2 ⟨sc, hsc, List.nil_prefix⟩) List.mem_cons_self
      | false :: q => simp [hchild]
      | true :: q => simp [hchild]
  rw [hperm.length_eq, List.length_cons, List.length_append, List.length_map, List.length_map]

/-! ## The tree of the codes -/

/-- Beside the empty code there is no other code apart from it. -/
theorem eq_singleton_of_nil_mem {cs : List SymbolCode} {sc : SymbolCode} (h : cs.Pairwise Apart) (hsc : sc ∈ cs)
    (hnil : sc.2 = []) : cs = [sc] := by
  obtain ⟨before, after, rfl⟩ := List.append_of_mem hsc
  obtain ⟨-, hafter, hbefore⟩ := List.pairwise_append.1 h
  obtain rfl : before = [] := List.eq_nil_iff_forall_not_mem.2 fun sd hsd =>
    (hbefore sd hsd sc List.mem_cons_self).2 (hnil ▸ List.nil_prefix)
  obtain rfl : after = [] := List.eq_nil_iff_forall_not_mem.2 fun sd hsd =>
    ((List.pairwise_cons.1 hafter).1 sd hsd).1 (hnil ▸ List.nil_prefix)
  rfl

/-- `n` codes that do not begin one another span at least `2 n - 1` nodes, and, when they span no more, are the paths of a full tree. -/
theorem exists_perm_paths {d : Nat} {cs : List SymbolCode} (hlen : ∀ sc ∈ cs, sc.2.length ≤ d) (hapart : cs.Pairwise Apart) :
    2 * cs.length ≤ (spanned cs).length + 1 ∧
      ((spanned cs).length + 1 ≤ 2 * cs.length → ∃ T : CodeTree, T.paths.Perm cs) := by
  by_cases hnil : ∃ sc ∈ cs, sc.2 = []
  · obtain ⟨⟨x, b⟩, hsc, rfl⟩ := hnil
    obtain rfl := eq_singleton_of_nil_mem hapart hsc rfl
    exact ⟨by simp [spanned], fun _ => ⟨.leaf x, .rfl⟩⟩
  · have hne : ∀ sc ∈ cs, sc.2 ≠ [] := fun sc hsc hb => hnil ⟨sc, hsc, hb⟩
    by_cases hcs : cs = []
    · subst hcs
      exact ⟨Nat.zero_le _, fun h => absurd h (by simp)⟩
    · cases d with
      | zero =>
        obtain ⟨sc, hsc⟩ := List.exists_mem_of_ne_nil cs hcs
        exact absurd (List.length_eq_zero_iff.1 (Nat.le_zero.1 (hlen sc hsc))) (hne sc hsc)
      | succ d =>
        have hshort (bit : Bool) : ∀ sc ∈ below bit cs, sc.2.length ≤ d := fun sc hsc =>
          Nat.le_of_succ_le_succ (hlen _ ((mem_below bit cs sc).1 hsc))
        obtain ⟨hleft, htreeLeft⟩ := exists_perm_paths (hshort false) (pairwise_apart_below false hapart)
        obtain ⟨hright, htreeRight⟩ := exists_perm_paths (hshort true) (pairwise_apart_below true hapart)
        rw [length_spanned hcs, ← length_below_add hne]
        refine ⟨by omega, fun hfull => ?_⟩
        obtain ⟨L, hL⟩ := htreeLeft (by omega)
        obtain ⟨R, hR⟩ := htreeRight (by omega)
        exact ⟨.node L R, ((hL.map _).append (hR.map _)).trans (perm_below_append hne)⟩
termination_by d

end Sys2Proof.Machine

end

section
/-! PROOFS. The headers that `parse_header` accepts: a complete listing closes to a valid tree of its codes, and what is accepted is one
(44_code_table_rom.md R271). -/

namespace Sys2Proof.Machine

/-! ## Code tables of complete listings -/

/-- The table does not depend on the order of its codes. -/
theorem tableOf_eq_of_perm {cs ds : List SymbolCode} (h : cs.Perm ds) (hnodup : (cs.map Prod.fst).Nodup) :
    tableOf cs = tableOf ds := by
  have hfst := h.map Prod.fst
  refine Table.ext_get _ _ fun x => ?_
  by_cases hx : x ∈ cs.map Prod.fst
  · obtain ⟨⟨_, b⟩, hb, rfl⟩ := List.mem_map.1 hx
    rw [get_tableOf_of_mem hnodup hb, get_tableOf_of_mem (hfst.nodup_iff.1 hnodup) (h.mem_iff.1 hb)]
  · rw [get_tableOf_of_notMem hx, get_tableOf_of_notMem (mt hfst.mem_iff.2 hx)]

theorem map_fst_code (es : List HeaderEntry) : (es.map HeaderEntry.code).map Prod.fst = es.map (·.symbol) := by
  simp [HeaderEntry.code, Function.comp_def]

section
variable {n : Nat} {es : List HeaderEntry} (h : Listing n es)
include h

theorem nodup_symbols_of_listing : (es.map (·.symbol)).Nodup := by
  obtain ⟨horder, -⟩ := h
  exact List.pairwise_map.2 (horder.imp fun hlt heq => absurd (congrArg BitVec.toNat heq) hlt.ne)

/-- The codes of a listing are those of its table, in the same order. -/
theorem codesOf_tableOf_of_listing : codesOf (tableOf (es.map HeaderEntry.code)) = es.map HeaderEntry.code := by
  have hnodup := nodup_symbols_of_listing h
  obtain ⟨horder, hfields, -⟩ := h
  rw [← map_fst_code] at hnodup
  have hget {e : HeaderEntry} (he : e ∈ es) : (tableOf (es.map HeaderEntry.code)).get e.symbol = e.bits :=
    get_tableOf_of_mem hnodup (List.mem_map_of_mem he)
  have hsymbols : codedSymbols (tableOf (es.map HeaderEntry.code)) = es.map (·.symbol) := by
    refine List.Perm.eq_of_pairwise (le := fun x y => x.toNat < y.toNat) (fun a b _ _ hab hba => absurd hab hba.not_gt)
      (pairwise_lt_codedSymbols _) (List.pairwise_map.2 horder) ?_
    rw [map_fst_code] at hnodup
    refine (List.perm_ext_iff_of_nodup (nodup_codedSymbols _) hnodup).2 fun x => ?_
    rw [mem_codedSymbols]
    constructor
    · intro hx
      by_contra hnot
      exact hx (get_tableOf_of_notMem (by rwa [map_fst_code]))
    · intro hx
      obtain ⟨e, he, rfl⟩ := List.mem_map.1 hx
      rw [hget he]
      exact List.ne_nil_of_length_pos (hfields e he).1
  rw [codesOf, hsymbols, List.map_map]
  exact List.map_congr_left fun e he => Prod.ext rfl (hget he)

end

/-- The codes of a complete listing are the paths of a full tree. -/
theorem exists_codesFrom_of_listing {es : List HeaderEntry} (hpos : 1 ≤ es.length) (h : Listing es.length es) :
    ∃ T, CodesFrom T (tableOf (es.map HeaderEntry.code)) := by
  have hnodup := nodup_symbols_of_listing h
  obtain ⟨-, hfields, hapart, hspan⟩ := h
  rw [spannedNodes_eq_spanned] at hspan
  have hlen : ∀ sc ∈ es.map HeaderEntry.code, sc.2.length ≤ 255 :=
    List.forall_mem_map.2 fun e he => (hfields e he).2.1
  obtain ⟨T, hT⟩ := (exists_perm_paths hlen (List.pairwise_map.2 hapart)).2 (by rw [List.length_map]; omega)
  rw [← map_fst_code] at hnodup
  have hsyms : T.symbols.Nodup := by
    rw [← T.map_fst_paths]
    exact (hT.map Prod.fst).nodup_iff.2 hnodup
  refine ⟨T, hsyms, length_le_of_nodup_bytes hsyms, fun x b hb => ?_, tableOf_eq_of_perm hT.symm hnodup⟩
  obtain ⟨e, he, heq⟩ := List.mem_map.1 (hT.mem_iff.1 hb)
  obtain ⟨-, rfl⟩ := Prod.mk.inj heq
  exact List.ne_nil_of_length_pos (hfields e he).1

/-- A tree whose leaves are coded by the table, with all nodes of its arena, is a valid one of the table. -/
theorem CodesFrom.wf_and_deriveCodes {T : CodeTree} {c : CodeTable} (h : CodesFrom T c) {t : Tree}
    (hT : Unfolds t.nodes t.root.toNat T) (hsize : T.size = t.nodes.length) : t.wf ∧ deriveCodes t = c := by
  have hleaves : t.HasLeaves T.symbols := ⟨T, hT, hsize, .rfl⟩
  refine ⟨hleaves.wf h.nodup ?_, by rw [deriveCodes_eq_tableOf hT hsize.le, ← h.table]⟩
  rw [← h.perm_codedSymbols.length_eq]
  exact h.two_le_length_codedSymbols

/-- A header that lists a table whose codes are a full tree's parses to the table and a valid tree of it, whatever follows. -/
theorem CodesFrom.exists_parseHeader_wf {T : CodeTree} {c : CodeTable} {es : List HeaderEntry} (h : CodesFrom T c)
    (hes : es.map HeaderEntry.code = codesOf c) (hfields : ∀ e ∈ es, FieldHolds e.bits e.field) (rest : List Byte) :
    ∃ t : Tree, parseHeader (headerBytesOf es.length es ++ rest) = .ok ⟨t, c, (headerBytesOf es.length es).length⟩ ∧
      t.wf ∧ deriveCodes t = c ∧ t.root = 0 := by
  obtain ⟨hmin, hmax⟩ := h.length_entries_bounds hes
  obtain ⟨nodes, hclose, hnodes⟩ := exists_mapM_eq_some fun s => isSome_closeSlot h.mem_codesOf_iff (s := s)
  have hlen := congrArg List.length hnodes
  rw [List.length_map, List.length_map, length_arenaOf, length_numbering_eq_size h.mem_codesOf_iff] at hlen
  have hentries := congrArg List.length hes
  rw [List.length_map] at hentries
  have hT : Unfolds nodes ((numbering (codesOf c)).idxOf []) T :=
    unfolds_of_closed_arena h.mem_codesOf_iff hnodes (by rw [h.size_eq]; omega) fun x b hb => hb
  rw [idxOf_nil_numbering] at hT
  obtain ⟨hwf, hderive⟩ := h.wf_and_deriveCodes (t := ⟨nodes, 0⟩) hT hlen.symm
  refine ⟨⟨nodes, 0⟩, ?_, hwf, hderive, rfl⟩
  rw [parseHeader_headerBytesOf (by omega) hmax (h.listing hes hfields) le_rfl, Nat.sub_self, parseEntries]
  simp only [Except.bind, stateAfter, hes, hclose, tableOf_codesOf, Option.elim]
  simp [headerBytesOf, Nat.add_comm]

/-- A complete listing is accepted with its own codes and a valid tree of them, whatever follows. -/
theorem exists_parseHeader_of_listing {es : List HeaderEntry} (hpos : 1 ≤ es.length) (h : Listing es.length es) (rest : List Byte) :
    ∃ t : Tree, parseHeader (headerBytesOf es.length es ++ rest) =
        .ok ⟨t, tableOf (es.map HeaderEntry.code), (headerBytesOf es.length es).length⟩ ∧
      t.wf ∧ deriveCodes t = tableOf (es.map HeaderEntry.code) ∧ t.root = 0 := by
  obtain ⟨T, hT⟩ := exists_codesFrom_of_listing hpos h
  exact hT.exists_parseHeader_wf (codesOf_tableOf_of_listing h).symm (fun e he => (h.2.1 e he).2.2) rest

/-! ## What an accepted header lists -/

theorem takeBytes_eq_ok {k : Nat} {h a b : List Byte} (hk : takeBytes k h = .ok (a, b)) : h = a ++ b ∧ a.length = k := by
  unfold takeBytes at hk
  split at hk
  · cases hk
  next hlen =>
    cases hk
    exact ⟨(List.take_append_drop k h).symm, List.length_take_of_le (Nat.not_lt.1 hlen)⟩

/-- A field holds the bits that the parser reads from it. -/
theorem fieldHolds_bitsOfBytes {field : List Byte} {k : Nat} (h : field.length = ceilDiv k 8) :
    FieldHolds (bitsOfBytes field k) field := by
  have hlen : (bitsOfBytes field k).length = k := by simp [bitsOfBytes]
  refine ⟨by rw [hlen, h], fun q hq => ?_⟩
  rw [List.getD_eq_getElem _ _ hq]
  simp only [bitsOfBytes, List.getElem_map, List.getElem_range]
  rfl

/-- An entry that the parser accepts has a symbol above those before and a code of 1 to 255 bits in its field. -/
theorem exists_entry_of_parseEntry {limit : Nat} {p p' : ParseState} (h : parseEntry limit p = .ok p') :
    ∃ (e : HeaderEntry) (rest : List Byte), p.rest = e.bytes ++ rest ∧ p.least ≤ e.symbol.toNat ∧ 1 ≤ e.bits.length ∧
      e.bits.length ≤ 255 ∧ FieldHolds e.bits e.field := by
  unfold parseEntry at h
  split at h
  · cases h
  next x rest1 hrest =>
    split at h
    · cases h
    next hleast =>
      split at h
      · cases h
      next len rest2 =>
        split at h
        · cases h
        next hlen =>
          split at h
          · cases h
          next field rest3 htake =>
            obtain ⟨hrest2, hfield⟩ := takeBytes_eq_ok htake
            have hbits : (bitsOfBytes field len.toNat).length = len.toNat := by simp [bitsOfBytes]
            have hpos : len.toNat ≠ 0 := fun h0 => hlen (BitVec.eq_of_toNat_eq h0)
            have hmax := len.isLt
            refine ⟨⟨x, bitsOfBytes field len.toNat, field⟩, rest3, ?_, Nat.not_lt.1 hleast, ?_, ?_, fieldHolds_bitsOfBytes hfield⟩
            · rw [hrest, hrest2, HeaderEntry.bytes, hbits, BitVec.ofNat_toNat, BitVec.setWidth_eq]
              rfl
            · rw [hbits]
              omega
            · rw [hbits]
              omega

/-- What the parser reads after a listing are the entries of a longer one. -/
theorem exists_listing_of_parseEntries {n k : Nat} {es : List HeaderEntry} {rest : List Byte} {p : ParseState} (hn : 1 ≤ n)
    (hes : Listing n es) (h : parseEntries (2 * n - 1) k (stateAfter es rest) = .ok p) :
    ∃ fs rest', fs.length = k ∧ Listing n (es ++ fs) ∧ rest = fs.flatMap HeaderEntry.bytes ++ rest' := by
  induction k generalizing es rest with
  | zero => exact ⟨[], rest, rfl, by rwa [List.append_nil], rfl⟩
  | succ k ih =>
    rw [parseEntries] at h
    split at h
    · cases h
    next p' hentry =>
      obtain ⟨e, rest', hrest, hleast, hpos, hmax, hfield⟩ := exists_entry_of_parseEntry hentry
      obtain rfl : rest = e.bytes ++ rest' := hrest
      have habove := (leastAfter_le_iff hes.1 _).1 hleast
      rw [parseEntry_stateAfter hn hes habove hpos hmax hfield] at hentry
      split at hentry
      next hnext =>
        cases hentry
        obtain ⟨fs, rest'', hlen, hlisting, rfl⟩ := ih hnext h
        refine ⟨e :: fs, rest'', congrArg (· + 1) hlen, by rwa [List.append_cons], ?_⟩
        rw [List.flatMap_cons, List.append_assoc]
      · cases hentry

/-- An accepted header begins with a complete listing of 1 to 256 codes, the first byte their number minus 1. -/
theorem exists_listing_of_parseHeader {h : List Byte} {p : ParsedHeader} (hp : parseHeader h = .ok p) :
    ∃ (es : List HeaderEntry) (rest : List Byte), h = headerBytesOf es.length es ++ rest ∧ 1 ≤ es.length ∧ es.length ≤ 256 ∧
      Listing es.length es := by
  match h with
  | [] => cases hp
  | n1 :: rest =>
    have hlt := n1.isLt
    unfold parseHeader at hp
    dsimp only at hp
    split at hp
    · cases hp
    next p' hentries =>
      have hnil : Listing (n1.toNat + 1) [] := ⟨List.Pairwise.nil, nofun, List.Pairwise.nil, Nat.zero_le _⟩
      obtain ⟨es, rest', hlen, hlisting, rfl⟩ := exists_listing_of_parseEntries (Nat.le_add_left _ _) hnil hentries
      rw [List.nil_append, ← hlen] at hlisting
      refine ⟨es, rest', ?_, by omega, by omega, hlisting⟩
      rw [headerBytesOf, hlen, Nat.add_sub_cancel, BitVec.ofNat_toNat, BitVec.setWidth_eq, List.cons_append]

/-- Everything an accepted header gives: the table of its listing, and a valid tree of that table with root 0. -/
theorem parseHeader_ok_cases {h : List Byte} {p : ParsedHeader} (hp : parseHeader h = .ok p) :
    p.tree.wf ∧ p.code = deriveCodes p.tree ∧ p.tree.root = 0 ∧
    ∃ (es : List HeaderEntry) (rest : List Byte), h = headerBytesOf es.length es ++ rest ∧
      p.used = (headerBytesOf es.length es).length ∧ Listing es.length es ∧ es.length ≤ 256 ∧
      es.map HeaderEntry.code = codesOf p.code := by
  obtain ⟨es, rest, rfl, hpos, hmax, hlisting⟩ := exists_listing_of_parseHeader hp
  obtain ⟨t, hparse, hwf, hderive, hroot⟩ := exists_parseHeader_of_listing hpos hlisting rest
  cases hparse.symm.trans hp
  exact ⟨hwf, hderive.symm, hroot, es, rest, rfl, rfl, hlisting, hmax, (codesOf_tableOf_of_listing hlisting).symm⟩

theorem two_le_length_of_codesOf {t : Tree} (h : t.wf) : 2 ≤ (codesOf (deriveCodes t)).length := by
  obtain ⟨T, -, -, hcodes⟩ := codesFrom_deriveCodes h
  rw [codesOf, List.length_map]
  exact hcodes.two_le_length_codedSymbols

end Sys2Proof.Machine

open Sys2Proof Sys2Proof.Machine

/-- Settles O35: what is accepted is a complete listing, and a complete listing closes to a valid tree of its codes. -/
theorem acceptedHeadersAreValid : Obligations.AcceptedHeadersAreValid := by
  refine ⟨fun h p hp => ?_, fun es rest hpos hmax hlisting => ?_, ?_, fun rest p hp => ?_, fun h e he => headerError_of_parseHeader he⟩
  · obtain ⟨hwf, hderive, hroot, es, rest, hh, hused, hlisting, -, hcodes⟩ := parseHeader_ok_cases hp
    refine ⟨hwf, hderive, hroot, es, rest, hh, hused, hlisting, ?_, ?_⟩
    · have htwo := two_le_length_of_codesOf hwf
      rwa [← hderive, ← hcodes, List.length_map] at htwo
    · rw [← map_fst_codesOf, ← hcodes, map_fst_code]
  · obtain ⟨t, hparse, -⟩ := exists_parseHeader_of_listing hpos hlisting rest
    have hnodup := nodup_symbols_of_listing hlisting
    rw [← map_fst_code] at hnodup
    refine ⟨_, hparse, rfl, fun e he => get_tableOf_of_mem hnodup (List.mem_map_of_mem he), fun x hx => get_tableOf_of_notMem ?_⟩
    rw [map_fst_code, List.mem_map]
    rintro ⟨e, he, heq⟩
    exact hx e he heq
  · rintro c es rest ⟨t, ht, rfl⟩ hsymbols hfields
    obtain ⟨T, -, -, hcodes⟩ := codesFrom_deriveCodes ht
    have hes : es.map HeaderEntry.code = codesOf (deriveCodes t) := by
      rw [codesOf, ← hsymbols, List.map_map]
      exact List.map_congr_left fun e he => Prod.ext rfl (hfields e he).1
    obtain ⟨t', hparse, -⟩ := hcodes.exists_parseHeader_wf hes (fun e he => (hfields e he).2) rest
    exact ⟨_, hparse, rfl, rfl⟩
  · obtain ⟨hwf, hderive, -, es, rest', hh, -, -, hmax, hcodes⟩ := parseHeader_ok_cases hp
    have htwo := two_le_length_of_codesOf hwf
    rw [← hderive, ← hcodes, List.length_map] at htwo
    have hfirst : (0 : Byte) = BitVec.ofNat 8 (es.length - 1) := (List.cons.inj hh).1
    have hzero := congrArg BitVec.toNat hfirst
    rw [BitVec.toNat_ofNat, Nat.mod_eq_of_lt (by omega)] at hzero
    exact absurd hzero (Nat.ne_of_lt (show 0 < es.length - 1 by omega))

end

section
/-! PROOFS. Valid trees and valid code tables, step by step (10_state.md R66, R67, R69). -/

namespace Sys2Proof.Machine

theorem presentSymbols_cases (f : FreqTable) :
    presentSymbols f = [] ∨ (∃ x, presentSymbols f = [x]) ∨ 2 ≤ (presentSymbols f).length := by
  match presentSymbols f with
  | [] => exact .inl rfl
  | [x] => exact .inr (.inl ⟨x, rfl⟩)
  | _ :: _ :: _ => exact .inr (.inr (Nat.le_add_left _ _))

theorem treeOf_of_nil {f : FreqTable} (h : presentSymbols f = []) : treeOf f = none := by rw [treeOf, h]

theorem treeOf_of_singleton {f : FreqTable} {x : Byte} (h : presentSymbols f = [x]) :
    treeOf f = some (buildDegenerate x (f.get x), true) := by rw [treeOf, h]

theorem treeOf_of_two_le {f : FreqTable} (h : 2 ≤ (presentSymbols f).length) : treeOf f = some (buildTree f, false) := by
  unfold treeOf
  split
  next hsyms => simp [hsyms] at h
  next hsyms => simp [hsyms] at h
  next => rfl

/-- The tree of a frequency table is valid, the degenerate one included (R243, R244). -/
theorem wf_of_treeOf {f : FreqTable} {t : Tree} {deg : Bool} (h : treeOf f = some (t, deg)) : t.wf := by
  rcases presentSymbols_cases f with hsyms | ⟨x, hsyms⟩ | hsyms
  · cases (treeOf_of_nil hsyms).symm.trans h
  · cases (treeOf_of_singleton hsyms).symm.trans h
    exact wf_buildDegenerate _ _
  · cases (treeOf_of_two_le hsyms).symm.trans h
    exact wf_buildTree hsyms

theorem wf_deriveCodes {t : Tree} (h : t.wf) : (deriveCodes t).wf := ⟨t, h, rfl⟩

theorem wf_of_parseHeader {h : List Byte} {p : ParsedHeader} (hp : parseHeader h = .ok p) : p.tree.wf ∧ p.code.wf := by
  obtain ⟨hwf, hderive, -⟩ := parseHeader_ok_cases hp
  exact ⟨hwf, hderive ▸ wf_deriveCodes hwf⟩

/-- The updates fill the tree and the code table with valid content only. -/
structure FillsWf (u : TableUpdates) : Prop where
  tree : ∀ t, u.tree = .set t → t.wf
  code : ∀ c, u.code = .set c → CodeTable.wf c

theorem fillsWf_none : FillsWf TableUpdates.none := ⟨nofun, nofun⟩

theorem fillsWf_invalidate (w : WriteSet) : FillsWf w.invalidate := by
  obtain ⟨freq, tree, code⟩ := w
  cases tree <;> cases code <;> exact ⟨nofun, nofun⟩

theorem fillsWf_keepOnlyCode {c : CodeTable} (h : c.wf) : FillsWf (keepOnlyCode c) :=
  ⟨nofun, fun _ hc => Update.set.inj hc ▸ h⟩

/-- A command fills tables with valid content, when the tree it may need is valid (R243, R261, R272, R332, R355). -/
theorem fillsWf_of_commandResult {i : Instr} {s : State} {b : List Byte} {r : Success} (hs : s.tablesOk)
    (hpre : prereqHolds (shapeOf i).prereq s = true) (h : commandResult i s b = .ok r) : FillsWf r.updates := by
  cases i with
  | nop | rleEncode | hdrSerialize =>
    cases h
    exact fillsWf_none
  | freqAnalyze =>
    cases h
    exact ⟨nofun, nofun⟩
  | codeDerive =>
    cases h
    exact ⟨nofun, fun _ hc => Update.set.inj hc ▸ wf_deriveCodes (hs.1 hpre)⟩
  | compress =>
    rcases compressResult_cases b with hr | hr | hr | ⟨t, deg, htree, hr⟩ <;> cases hr.symm.trans h
    · exact ⟨nofun, nofun⟩
    · exact fillsWf_keepOnlyCode (wf_deriveCodes (wf_of_treeOf htree))
  | decompress =>
    rcases decompressResult_cases b with (⟨_, _, -, hr⟩ | ⟨_, p, _, _, _, hp, hr⟩) | hr <;> cases hr.symm.trans h
    · exact fillsWf_keepOnlyCode (wf_of_parseHeader hp).2
    · exact ⟨nofun, nofun⟩
  | treeBuild =>
    simp only [commandResult, treeBuildResult] at h
    split at h <;> cases h
    next htree => exact ⟨fun _ ht => Update.set.inj ht ▸ wf_of_treeOf htree, nofun⟩
  | hdrParse =>
    simp only [commandResult, hdrParseResult] at h
    split at h <;> cases h
    next hp =>
      obtain ⟨htree, hcode⟩ := wf_of_parseHeader hp
      exact ⟨fun _ ht => Update.set.inj ht ▸ htree, fun _ hc => Update.set.inj hc ▸ hcode⟩
  | rleDecode =>
    simp only [commandResult, rleDecodeResult] at h
    split at h <;> cases h
    exact fillsWf_none
  | pack =>
    simp only [commandResult, packResult] at h
    split at h <;> cases h
    exact fillsWf_none
  | unpack =>
    simp only [commandResult, unpackResult] at h
    split at h <;> cases h
    exact fillsWf_none

/-- A table that is valid after an update was kept or filled. -/
theorem Update.content_of_valid {α : Type} {P : α → Prop} {u : Update α} {old reset : α} {valid : Bool}
    (hold : valid = true → P old) (hset : ∀ v, u = .set v → P v) (h : u.valid valid = true) : P (u.content old reset) := by
  cases u with
  | keep => exact hold h
  | clear => cases h
  | set v => exact hset v rfl

theorem TablesUpdated.tablesOk {s t : State} {u : TableUpdates} (h : TablesUpdated s t u) (hu : FillsWf u) (hs : s.tablesOk) :
    t.tablesOk := by
  obtain ⟨htree, hcode⟩ := hs
  refine ⟨fun hv => ?_, fun hv => ?_⟩
  · rw [h.nodes, h.root]
    exact Update.content_of_valid (P := Tree.wf) htree hu.tree (h.treeValid ▸ hv)
  · rw [h.code]
    exact Update.content_of_valid (P := CodeTable.wf) hcode hu.code (h.codeValid ▸ hv)

theorem HostKeeps.tablesOk {s t : State} (h : HostKeeps s t) (hs : s.tablesOk) : t.tablesOk := by
  obtain ⟨⟨hnodes, hroot, htreeValid⟩, hcode, hcodeValid⟩ := And.intro h.tree h.code
  rw [State.tablesOk, hnodes, hroot, htreeValid, hcode, hcodeValid]
  exact hs

theorem ResetFrom.tablesOk {s t : State} (h : ResetFrom s t) : t.tablesOk :=
  ⟨fun hv => absurd (h.block.treeValid.symm.trans hv) nofun, fun hv => absurd (h.block.codeValid.symm.trans hv) nofun⟩

theorem tablesOk_of_exec {i : Instr} {s t : State} (h : exec i s = .next t) (hs : s.tablesOk) : t.tablesOk := by
  rcases exec_outcomes h with ⟨a, -, rfl⟩ | ⟨e, g, -, rfl⟩ | ⟨b, r, hpre, hr, -, rfl⟩
  · exact (tablesUpdated_stallAt s a).tablesOk fillsWf_none hs
  · exact (tablesUpdated_completeError s _ e g).tablesOk (fillsWf_invalidate _) hs
  · obtain ⟨-, -, -, hprereq⟩ := (precheck_none_iff _ s).1 hpre
    exact (tablesUpdated_completeOk s _ r).tablesOk (fillsWf_of_commandResult hs hprereq hr) hs

end Sys2Proof.Machine

open Sys2Proof Sys2Proof.Machine

/-- Settles O58: a command fills a table with a built, parsed or derived one, which is valid; the host writes no table. -/
theorem stepKeepsValidTablesWellFormed : Obligations.StepKeepsValidTablesWellFormed := by
  intro s t hs h
  cases ht : engineTurn s with
  | true =>
    rcases engineStep_cases ht h with ⟨i, hexec⟩ | rfl
    · exact tablesOk_of_exec hexec hs
    · exact (tablesUpdated_completeError s _ _ _).tablesOk (fillsWf_invalidate _) hs
  | false =>
    rcases hostStep_cases ht h with ⟨-, rfl⟩ | ⟨op, rest, -, -, ⟨-, hreset⟩ | ⟨-, hkeeps⟩⟩
    · exact hs
    · exact hreset.tablesOk
    · exact hkeeps.tablesOk hs

end

section
/-! PROOFS. Faults and tables under every step, and the platform (60_exceptions.md R429, R430; 10_state.md R70). -/

namespace Sys2Proof.Machine

theorem params_and_faults_of_exec {i : Instr} {s t : State} (h : exec i s = .next t) :
    t.params = s.params ∧ ∀ f ∈ s.faults, f ∈ t.faults := by
  rcases exec_outcomes h with ⟨a, -, rfl⟩ | ⟨e, g, -, rfl⟩ | ⟨b, r, -, -, -, rfl⟩
  · exact ⟨rfl, fun f hf => (ModelFault.mem_insert _ f _).2 (.inr hf)⟩
  · exact ⟨rfl, fun _ => id⟩
  · exact ⟨rfl, fun _ => id⟩

/-- No step changes the parameters or clears a fault (R430). -/
theorem params_and_faults_of_step {s t : State} (h : step s = .next t) : t.params = s.params ∧ ∀ f ∈ s.faults, f ∈ t.faults := by
  cases ht : engineTurn s with
  | true =>
    rcases engineStep_cases ht h with ⟨i, hexec⟩ | rfl
    · exact params_and_faults_of_exec hexec
    · exact ⟨rfl, fun _ => id⟩
  | false =>
    rcases hostStep_cases ht h with ⟨-, rfl⟩ | ⟨op, rest, -, -, ⟨-, hreset⟩ | ⟨-, hkeeps⟩⟩
    · exact ⟨rfl, fun _ => id⟩
    · exact ⟨hreset.params, fun f hf => hreset.faults ▸ hf⟩
    · exact ⟨hkeeps.params, hkeeps.faults⟩

/-- Whether a platform is well formed depends on the parameters of its instances alone. -/
theorem wellFormed_of_map_params {p q : Platform} (h : q.map State.params = p.map State.params) (hp : p.wellFormed) :
    q.wellFormed := by
  obtain ⟨hsize, hparams, hbases⟩ := hp
  have hlen : q.length = p.length := by simpa using congrArg List.length h
  refine ⟨hsize.trans_eq hlen.symm, ?_, ?_⟩
  · rw [← List.forall_mem_map (f := State.params) (P := Params.wellFormed)] at hparams ⊢
    rwa [h]
  · rw [← List.pairwise_map (f := State.params) (R := fun a b => a.regBase ≠ b.regBase)] at hbases ⊢
    rwa [h]

theorem map_params_set {p : Platform} {i : Nat} {s t : State} (hi : p[i]? = some s) (h : t.params = s.params) :
    (p.set i t).map State.params = p.map State.params := by
  obtain ⟨hlt, rfl⟩ := List.getElem?_eq_some_iff.1 hi
  rw [List.map_set, h]
  conv_rhs => rw [← List.set_getElem_self (as := p.map State.params) (i := i) (by simpa using hlt)]
  rw [List.getElem_map]

end Sys2Proof.Machine

open Sys2Proof Sys2Proof.Machine

/-- Settles O54: each step keeps the parameters and the faults, and a platform's step replaces one block by one with the same parameters. -/
theorem faultsAreNeverCleared : Obligations.FaultsAreNeverCleared := by
  refine ⟨fun s t => params_and_faults_of_step, fun p q i h => ?_⟩
  obtain ⟨s, t, hi, hstep, rfl⟩ := (platformStep_next_iff p q i).1 h
  obtain ⟨hparams, -⟩ := params_and_faults_of_step hstep
  exact ⟨wellFormed_of_map_params (map_params_set hi hparams), List.length_set, fun j hj => List.getElem?_set_ne hj.symm⟩

/-- Settles O55: what a host operation keeps, and what a reset leaves. -/
theorem hostNeverWritesATable : Obligations.HostNeverWritesATable := by
  refine fun s op rest ha => ⟨fun hop => ?_, fun hop => ?_⟩
  · have h := hostKeeps_hostPerform rest ha hop
    exact ⟨h.freq, h.tree, h.code⟩
  · have h := resetFrom_hostPerform rest hop
    exact ⟨h.freq, h.tree, h.code⟩

end

section
/-! PROOFS. How a command in flight ends, and what it never changes (40_command_common.md R182, R186, R194, R195). -/

namespace Sys2Proof.Machine

/-- Every command has an outcome in every state (R195). -/
theorem exists_exec_eq_next (i : Instr) (s : State) : ∃ t, exec i s = .next t := by
  rw [exec_eq_runCommand]
  rcases runCommand_cases (shapeOf i) (commandResult i s) s with ⟨_, -, h⟩ | ⟨_, -, -, h⟩ | ⟨_, _, -, -, -, h⟩ |
    ⟨_, _, -, -, -, h⟩ <;> exact ⟨_, h⟩

/-! ## The end of a command -/

theorem exec_ends {i : Instr} {s t : State} (h : exec i s = .next t) : t.busy = false ∨ t.stalled = true := by
  rcases exec_outcomes h with ⟨a, -, rfl⟩ | ⟨e, g, -, rfl⟩ | ⟨b, r, -, -, -, rfl⟩
  · exact .inr rfl
  · exact .inl rfl
  · exact .inl rfl

/-- The engine's turn always ends the command (R182, R194). -/
theorem engineStep_ends {s : State} (ht : engineTurn s = true) : ∃ t, step s = .next t ∧ (t.busy = false ∨ t.stalled = true) := by
  rcases step_cases s with ⟨-, i, -, hs⟩ | ⟨-, -, hs⟩ | ⟨hf, -⟩
  · obtain ⟨t, ht⟩ := exists_exec_eq_next i s
    exact ⟨t, hs.trans ht, exec_ends ht⟩
  · exact ⟨_, hs, .inl rfl⟩
  · cases ht.symm.trans hf

/-- While the engine waits the host has a step, which resets the block or uses up a step of the latency. -/
theorem waitingStep {s : State} (hbusy : s.busy = true) (hstalled : s.stalled = false) (ht : engineTurn s = false) :
    ∃ t, step s = .next t ∧
      (t.busy = false ∨ (t.busy = true ∧ t.stalled = false ∧ t.delay + 1 = s.delay)) := by
  have hwait : ¬ (s.program = [] ∨ ∃ op rest, s.program = op :: rest ∧ (admitted s.params op = false ∨ s.delay = 0)) :=
    fun h => absurd (ht.symm.trans ((engineTurn_iff s).2 ⟨hbusy, hstalled, h⟩)) nofun
  cases hp : s.program with
  | nil => exact absurd (.inl hp) hwait
  | cons op rest =>
    have ha : admitted s.params op = true := Bool.of_not_eq_false fun ha => hwait (.inr ⟨op, rest, hp, .inl ha⟩)
    have hdelay : 0 < s.delay := Nat.pos_of_ne_zero fun hd => hwait (.inr ⟨op, rest, hp, .inr hd⟩)
    have hstep := step_eq_hostPerform (.inr ⟨hbusy, .inl hdelay⟩) hp ha
    refine ⟨_, hstep, ?_⟩
    by_cases hop : Resets s.params op
    · exact .inl (resetFrom_hostPerform rest hop).block.busy
    · have hkeeps := hostKeeps_hostPerform rest ha hop
      obtain ⟨hb, hd⟩ := hkeeps.busy hbusy
      exact .inr ⟨hb, hkeeps.stalled.trans hstalled, by rw [hd]; exact Nat.sub_add_cancel hdelay⟩

theorem run_succ_of_step {s t : State} (h : step s = .next t) (k : Nat) :
    Sys2Proof.core.run (k + 1) s = Sys2Proof.core.run k t := by
  have hs : Sys2Proof.core.step s = .next t := h
  simp only [Host.Core.run, hs]

/-- Within the latency left and one step more the command ends (R466). -/
theorem exists_run_ends {d : Nat} {s : State} (hdelay : s.delay = d) (hbusy : s.busy = true) (hstalled : s.stalled = false) :
    ∃ k t, k ≤ d + 1 ∧ Sys2Proof.core.run k s = .next t ∧ (t.busy = false ∨ t.stalled = true) := by
  induction d generalizing s with
  | zero =>
    cases ht : engineTurn s with
    | true =>
      obtain ⟨t, hstep, hend⟩ := engineStep_ends ht
      exact ⟨1, t, le_rfl, run_succ_of_step hstep 0, hend⟩
    | false =>
      obtain ⟨t, hstep, hidle | ⟨-, -, hd⟩⟩ := waitingStep hbusy hstalled ht
      · exact ⟨1, t, le_rfl, run_succ_of_step hstep 0, .inl hidle⟩
      · omega
  | succ d ih =>
    cases ht : engineTurn s with
    | true =>
      obtain ⟨t, hstep, hend⟩ := engineStep_ends ht
      exact ⟨1, t, by omega, run_succ_of_step hstep 0, hend⟩
    | false =>
      obtain ⟨t, hstep, hidle | ⟨hb, hs, hd⟩⟩ := waitingStep hbusy hstalled ht
      · exact ⟨1, t, by omega, run_succ_of_step hstep 0, .inl hidle⟩
      · obtain ⟨k, u, hk, hrun, hend⟩ := ih (s := t) (by omega) hb hs
        exact ⟨k + 1, u, by omega, (run_succ_of_step hstep k).trans hrun, hend⟩

/-! ## The frame of a command -/

theorem sameOperands_stallAt (s : State) (a : Nat) : SameOperands s (s.stallAt a) := by constructor <;> rfl

/-- Only PACK, COMPRESS and DECOMPRESS give a bit count (R51). -/
theorem bitCount_of_commandResult {i : Instr} {s : State} {b : List Byte} {r : Success}
    (hi : i ∉ [Instr.pack, .compress, .decompress]) (h : commandResult i s b = .ok r) : r.bitCount = none := by
  cases i with
  | pack | compress | decompress => simp at hi
  | nop | rleEncode | freqAnalyze | codeDerive | hdrSerialize =>
    cases h
    rfl
  | rleDecode =>
    simp only [commandResult, rleDecodeResult] at h
    split at h <;> cases h
    rfl
  | treeBuild =>
    simp only [commandResult, treeBuildResult] at h
    split at h <;> cases h
    rfl
  | hdrParse =>
    simp only [commandResult, hdrParseResult] at h
    split at h <;> cases h
    rfl
  | unpack =>
    simp only [commandResult, unpackResult] at h
    split at h <;> cases h
    rfl

/-- The commands with a destination are those of R132. -/
theorem mem_storing_iff (i : Instr) :
    i ∈ [Instr.compress, .decompress, .rleEncode, .rleDecode, .hdrSerialize, .pack, .unpack] ↔ (shapeOf i).dest = true := by
  cases i <;> decide

theorem mem_notStoring_iff (i : Instr) :
    i ∈ [Instr.nop, .freqAnalyze, .treeBuild, .codeDerive, .hdrParse] ↔ (shapeOf i).dest = false := by
  cases i <;> decide

/-- A success stores the bytes that OUT_LEN counts and no others. -/
theorem get_dmem_completeOk {s : State} {r : Success} (hfit : r.out.length ≤ s.dstCap.toNat) {a : Nat}
    (ha : a < s.dstAddr.toNat ∨ s.dstAddr.toNat + (s.completeOk true r).outLen.toNat ≤ a) :
    (s.completeOk true r).dmem.get a = s.dmem.get a := by
  rw [(succeededFrom_completeOk hfit).outLen] at ha
  rw [storedAtDest_completeOk s r a, if_neg (by omega)]

theorem outLen_completeOk_le {s : State} {r : Success} (hfit : r.out.length ≤ s.dstCap.toNat) :
    (s.completeOk true r).outLen.toNat ≤ s.dstCap.toNat := by
  rwa [(succeededFrom_completeOk hfit).outLen]

/-! ## An INDET byte in the source -/

/-- The source read of a command meets the first INDET cell of its range (R102, R194). -/
theorem sourceBytes_of_indet {sh : Shape} {s : State} {k : Nat} (hsrc : sh.source = true) (hk : k < s.srcLen.toNat)
    (hindet : s.dmem.get (s.srcAddr.toNat + k) = none) (hbefore : ∀ j, j < k → s.dmem.get (s.srcAddr.toNat + j) ≠ none) :
    sourceBytes sh s = .error (s.srcAddr.toNat + k) := by
  rw [sourceBytes, if_pos hsrc]
  cases hread : s.dmem.read s.srcAddr.toNat s.srcLen.toNat with
  | ok b =>
    obtain ⟨hlen, hget⟩ := (Memory.read_ok_iff ..).1 hread
    exact absurd ((hget k (by omega)).symm.trans hindet) nofun
  | error c =>
    obtain ⟨hc, -, hnone, hfirst⟩ := Memory.read_error _ _ _ _ hread
    obtain ⟨j, rfl⟩ := Nat.exists_eq_add_of_le hc
    congr 1
    rcases Nat.lt_trichotomy j k with hjk | rfl | hjk
    · exact absurd hnone (hbefore j hjk)
    · rfl
    · exact absurd hindet (hfirst _ (Nat.le_add_right _ _) (by omega))

theorem exec_eq_stallAt {i : Instr} {s : State} {a : Nat} (hpre : precheck (shapeOf i) s = none)
    (hb : sourceBytes (shapeOf i) s = .error a) : exec i s = .next (s.stallAt a) := by
  rw [exec_eq_runCommand, runCommand, hpre]
  dsimp only
  rw [hb]

theorem engineTurn_of_stalled {s : State} (h : s.stalled = true) : engineTurn s = false := by
  simp [engineTurn, h]

end Sys2Proof.Machine

open Sys2Proof Sys2Proof.Machine

/-- Settles O5: the engine's turn ends the command; before it, each host step resets the block or uses up a step of the latency. -/
theorem inFlightCommandEnds : Obligations.InFlightCommandEnds := fun _ hbusy hstalled => exists_run_ends rfl hbusy hstalled

/-- Settles O6: the frame of a command has four outcomes, three of them completions. -/
theorem completionSetsExactlyOneFlag : Obligations.CompletionSetsExactlyOneFlag := by
  intro i s
  obtain ⟨t, ht⟩ := exists_exec_eq_next i s
  refine ⟨t, ht, fun hdone herr hstalled => ?_⟩
  rcases exec_outcomes ht with ⟨a, -, rfl⟩ | ⟨e, g, -, rfl⟩ | ⟨b, r, -, -, -, rfl⟩
  · exact .inr ⟨rfl, rfl, hdone, herr⟩
  · exact .inl ⟨rfl, hstalled, by simp [hdone]⟩
  · exact .inl ⟨rfl, hstalled, by simp [herr]⟩

/-- Settles O10: a stall and an error store nothing, and a success stores its output at DST_ADDR, no longer than DST_CAP. -/
theorem commandFrame : Obligations.CommandFrame := by
  intro i s t h
  rw [mem_notStoring_iff, mem_storing_iff]
  rcases exec_outcomes h with ⟨a, -, rfl⟩ | ⟨e, g, -, rfl⟩ | ⟨b, r, -, hr, hfit, rfl⟩
  · exact ⟨sameOperands_stallAt s a, fun _ => rfl, fun _ _ => rfl, fun _ _ _ => rfl, fun _ _ => rfl⟩
  · exact ⟨sameOperands_completeError s _ e g, fun _ => rfl, fun _ _ => rfl, fun _ _ _ => rfl, fun _ _ => rfl⟩
  · refine ⟨sameOperands_completeOk s _ r, fun hi => ?_, ?_⟩
    · rw [State.completeOk_bitCount, bitCount_of_commandResult hi hr]
    · cases hd : (shapeOf i).dest with
      | false => exact ⟨fun _ _ => rfl, nofun, fun _ _ => rfl⟩
      | true =>
        refine ⟨nofun, fun _ a ha => get_dmem_completeOk (hfit hd) ha, fun a ha => get_dmem_completeOk (hfit hd) ?_⟩
        have := outLen_completeOk_le (hfit hd)
        omega

/-- Settles O11: the source read fails at the first INDET cell; a stalled engine has no turn, and of the host's operations only a reset
clears BUSY and the stall. -/
theorem uninitialisedSourceStallsTheEngine : Obligations.UninitialisedSourceStallsTheEngine := by
  refine ⟨fun i s k hsrc hpre hbusy hk hindet hbefore => ?_, fun s t hbusy hstalled h => ?_⟩
  · refine ⟨_, exec_eq_stallAt hpre (sourceBytes_of_indet hsrc hk hindet hbefore), ?_, hbusy, rfl, fun p => ?_⟩
    · exact (ModelFault.mem_insert _ _ _).2 (.inl rfl)
    · exact engineTurn_of_stalled rfl
  · rcases hostStep_cases (engineTurn_of_stalled hstalled) h with ⟨hidle, -⟩ | ⟨op, rest, hp, -, ⟨hop, -⟩ | ⟨-, hkeeps⟩⟩
    · cases hidle.symm.trans hbusy
    · exact .inr ⟨op, rest, hp, hop⟩
    · exact .inl ⟨(hkeeps.busy hbusy).1, hkeeps.stalled.trans hstalled⟩

end

section
/-! PROOFS. The command words, the shapes of the commands and the schedule, as tables and by cases (30_encoding.md R131, R132;
40_command_common.md R182). -/

open Sys2Proof Sys2Proof.Machine

/-- Settles O2: the encoder's twelve words, which decode to their commands, and two words by evaluation. -/
theorem twelveLegalWords : Obligations.TwelveLegalWords :=
  ⟨decode_encode .nop, decode_encode .compress, decode_encode .decompress, decode_encode .rleEncode, decode_encode .rleDecode,
    decode_encode .freqAnalyze, decode_encode .treeBuild, decode_encode .codeDerive, decode_encode .hdrSerialize,
    decode_encode .hdrParse, decode_encode .pack, decode_encode .unpack, by decide, by decide⟩

/-- Settles O3: the engine's turn, and the host's. -/
theorem stepCompletesTheDecodedCommand : Obligations.StepCompletesTheDecodedCommand := by
  refine ⟨fun s i hbusy hstalled hdecode hhost => ?_, fun s op rest hp ha hmoves => step_eq_hostPerform ?_ hp ha⟩
  · have hturn : engineTurn s = true := (engineTurn_iff s).2 ⟨hbusy, hstalled, hhost⟩
    simp [step, hturn, hdecode]
  · cases hb : s.busy with
    | false => exact .inl rfl
    | true =>
      rcases hmoves with hidle | hstalled | hdelay
      · cases hb.symm.trans hidle
      · exact .inr ⟨hb, .inr hstalled⟩
      · exact .inr ⟨hb, .inl hdelay⟩

/-- Settles O8: the rows of the shape table, command by command. -/
theorem implicitOperandsOfEachCommand : Obligations.ImplicitOperandsOfEachCommand := by
  refine ⟨fun i => ?_, fun i => (mem_storing_iff i).symm, fun i s => ?_, fun i => ?_⟩
  · cases i <;> decide
  · cases i <;> rfl
  · cases i <;> rfl

end

section
/-! PROOFS. Reset (70_reset_and_hazards.md R450 to R452). -/

namespace Sys2Proof.Machine

theorem regValue_ctrl (s : State) : regValue s .ctrl = if s.ctrlIrqEn then 1 else 0 := by
  cases h : s.ctrlIrqEn <;> simp [regValue, h] <;> decide

theorem statusWord_resetOn (p : Params) : statusWord (State.resetOn p) = 0 :=
  calc statusWord (State.resetOn p) = statusWord State.reset := rfl
    _ = 0 := by decide

/-- A soft reset forgets the destination range of the command in flight and no other cell (R452). -/
theorem get_dmem_softReset (s : State) (a : Nat) : s.softReset.dmem.get a = if inBusyDest s a then none else s.dmem.get a := by
  rw [State.softReset_dmem, inBusyDest]
  cases busyDest s with
  | false => rfl
  | true => simp [Memory.get_forget, inDest]

theorem get_dmem_writeCtrl_of_reset {s : State} {v : Word} (h : v.getLsbD 1 = true) (a : Nat) :
    (s.writeCtrl v).dmem.get a = if inBusyDest s a then none else s.dmem.get a := by
  rw [writeCtrl_of_reset h]
  exact get_dmem_softReset _ a

end Sys2Proof.Machine

open Sys2Proof Sys2Proof.Machine

/-- Settles O47: the reset state, field by field. -/
theorem resetState : Obligations.ResetState := fun p =>
  ⟨blockAtReset_resetOn p, statusWord_resetOn p, rfl, fun _ => rfl⟩

/-- Settles O48: the host's turn at a hardware reset, idle or busy. -/
theorem hardwareReset : Obligations.HardwareReset := by
  intro s rest hm hp
  have h := resetFrom_hostPerform rest (op := .hardReset) (.inl rfl) (s := s)
  exact ⟨_, step_eq_hostPerform hm hp rfl, h.block, fun _ => rfl, h.faults, h.params, h.program, h.readLog⟩

/-- Settles O49: a write to CTRL is the host's turn, and with bit 1 set a soft reset. -/
theorem ctrlWriteAndSoftReset : Obligations.CtrlWriteAndSoftReset := by
  refine ⟨fun s => ?_, fun s v rest hm hp => ⟨fun h1 => ?_, fun h1 => ?_⟩⟩
  · rw [regValue_ctrl]
    cases s.ctrlIrqEn <;> rfl
  · rw [step_write_register hm (by decide) (by decide) hp, writeReg_ctrl, writeCtrl_of_noReset h1]
  · have h := resetFrom_writeCtrl (s := s.hostStepped rest) h1
    refine ⟨(s.hostStepped rest).writeCtrl v, step_write_register hm (by decide) (by decide) hp, h.block, h.faults, h.params,
      h.program, h.readLog, fun a => ?_⟩
    have hdest : inBusyDest s a = true ↔ s.busy = true ∧ (∃ i, decode s.cmd = .ok i ∧ (shapeOf i).dest = true) ∧
        s.dstAddr.toNat ≤ a ∧ a < s.dstAddr.toNat + s.dstCap.toNat := by
      rw [inBusyDest_iff, State.UsesDest]
      simp only [← and_assoc, exists_and_right]
    rw [get_dmem_writeCtrl_of_reset h1, ← hdest]
    exact ⟨fun hin => if_pos hin, fun hout => if_neg hout⟩

/-- Settles O59: DMEM and the faults are empty, and the rest is what a reset of the reset state leaves, which is that state. -/
theorem resetMeetsTheInvariants : Obligations.ResetMeetsTheInvariants := by
  intro p
  have h : ResetFrom (State.resetOn p) (State.resetOn p) := resetFrom_hardwareReset (State.resetOn p)
  exact ⟨⟨reset_dmem_wf p, nofun⟩, List.Pairwise.nil, h.lifecycleOk, h.invalidTablesReset, h.tablesOk⟩

end

section
/-! PROOFS. Register reads and writes (10_state.md R32 to R62), idle and busy. -/

namespace Sys2Proof.Machine

/-! ## Reads -/

/-- The host's read of a register, busy or not (R107, R108). -/
theorem step_read_register {s : State} {off : Nat} {rest : List HostOp} (hm : s.busy = false ∨ s.HostMovesBusy)
    (h : off < 256) (h4 : off % 4 = 0) (hp : s.program = .read (s.params.regBase + off) 4 :: rest) :
    step s = .next ((s.hostStepped rest).readReg off) := by
  rw [step_eq_hostPerform hm hp (accessAdmitted_register _ h h4)]
  simp only [State.hostPerform, State.busRead, targetOf_regBase_add _ h]

theorem step_wait_of_idle {s : State} {rest : List HostOp} (hidle : s.busy = false) (hp : s.program = .wait :: rest) :
    step s = .next ((s.hostStepped rest).readReg 0x0C) := by
  have hperform : s.hostPerform .wait rest = (s.hostStepped rest).readReg 0x0C := if_neg (by simp [hidle])
  rw [step_eq_hostPerform (.inl hidle) hp rfl, hperform]

theorem step_wait_of_busy {s : State} {rest : List HostOp} (hm : s.HostMovesBusy) (hp : s.program = .wait :: rest) :
    step s = .next ((s.hostStepped (.wait :: rest)).readReg 0x0C) := by
  have hperform : s.hostPerform .wait rest = (s.hostStepped (.wait :: rest)).readReg 0x0C := if_pos hm.1
  rw [step_eq_hostPerform (.inr hm) hp rfl, hperform]

theorem regAt_offsetOf (r : Reg) : regAt (offsetOf r) = some r := (regAt_eq_some_iff _ _).2 rfl

/-- A register whose read is not arbitrary reads as its value and draws nothing (R43). -/
theorem readReg_offsetOf {s : State} {r : Reg} (h : s.busy = false ∨ (drawnWhileBusy r = false ∧ r ≠ .status)) :
    s.readReg (offsetOf r) = { s with readLog := some (regValue s r) :: s.readLog } := by
  have hvalue (free : Word) : readValue s (offsetOf r) free = regValue s r := by
    rw [readValue, regAt_offsetOf]
    rcases h with hidle | ⟨hdrawn, hr⟩
    · by_cases hr : r = .status
      · subst hr
        simp [statusRead, hidle, regValue]
      · simp [hr, hidle]
    · simp [hr, hdrawn]
  have hdraws : readDraws s (offsetOf r) = 0 := by
    rw [readDraws, regAt_offsetOf]
    rcases h with hidle | ⟨hdrawn, hr⟩
    · simp [hidle]
    · simp [hdrawn, hr]
  rw [State.readReg, hvalue, hdraws]
  rfl

theorem regAt_reserved {off : Nat} (h : 0x60 ≤ off) : regAt off = none := by
  refine Option.eq_none_iff_forall_ne_some.2 fun r hr => ?_
  rw [(regAt_eq_some_iff off r).1 hr] at h
  revert h
  cases r <;> decide

theorem readReg_reserved (s : State) {off : Nat} (h : 0x60 ≤ off) :
    s.readReg off = { s with readLog := some 0 :: s.readLog } := by
  rw [State.readReg, readValue, readDraws, regAt_reserved h]
  rfl

theorem readReg_status_of_busy {s : State} (h : s.busy = true) : s.readReg 0x0C =
    { s with readLog := some (statusRead s (Config.freeWord s.params s.draws)) :: s.readLog, draws := s.draws + 1 } := by
  have hdraws : readDraws s 0x0C = 1 := by
    rw [readDraws, show regAt 0x0C = some .status from rfl]
    simp [h]
  rw [State.readReg, hdraws]
  rfl

/-- The STATUS bits outside the mask of R43 are true at any time. -/
theorem getLsbD_statusRead {s : State} {free : Word} {k : Nat} (hk : k < 32) (hmask : statusBusyMask.getLsbD k = false) :
    (statusRead s free).getLsbD k = (statusWord s).getLsbD k := by
  unfold statusRead
  split
  · rw [BitVec.getLsbD_or, BitVec.getLsbD_and, BitVec.getLsbD_and, BitVec.getLsbD_not, hmask]
    simp [hk]
  · rfl

/-- The reserved bits of STATUS, which read 0 at any time (R37). -/
theorem getLsbD_statusRead_reserved {s : State} {free : Word} :
    ∀ k ∈ [7, 12, 13, 14, 15, 20, 21, 22, 23, 27, 28, 29, 30, 31], (statusRead s free).getLsbD k = false := by
  have hmask : ∀ k ∈ [7, 12, 13, 14, 15, 20, 21, 22, 23, 27, 28, 29, 30, 31], k < 32 ∧ statusBusyMask.getLsbD k = false := by decide
  intro k hk
  rw [getLsbD_statusRead (hmask k hk).1 (hmask k hk).2, getLsbD_statusWord]
  revert k
  simp

/-! ## Values as the statements write them -/

theorem regValue_codeSel (s : State) :
    regValue s .codeSel = BitVec.ofNat 32 (s.codeSelSym.toNat + 256 * s.codeSelWord.toNat) := by
  have hword : (fieldAt s.codeSelWord 8).toNat = 2 ^ 8 * s.codeSelWord.toNat := by
    rw [toNat_fieldAt _ _ (by decide), Nat.mul_comm]
  have hsum := toNat_or_fieldAt_zero _ s.codeSelSym _ hword le_rfl (by decide)
  refine BitVec.eq_of_toNat_eq ?_
  have hsym := s.codeSelSym.isLt
  have hw := s.codeSelWord.isLt
  rw [regValue, BitVec.or_comm, hsum, BitVec.toNat_ofNat, Nat.mod_eq_of_lt (by omega)]
  omega

theorem regValue_freqSel (s : State) : regValue s .freqSel = BitVec.ofNat 32 s.freqSel.toNat :=
  (BitVec.ofNat_toNat 32 s.freqSel).symm

theorem regValue_treeSel (s : State) : regValue s .treeSel = BitVec.ofNat 32 s.treeSel.toNat :=
  (BitVec.ofNat_toNat 32 s.treeSel).symm

/-- No register's value depends on the host's side. -/
theorem regValue_hostStepped (s : State) (rest : List HostOp) (r : Reg) : regValue (s.hostStepped rest) r = regValue s r := by
  cases r <;> rfl

/-- The registers in the order of R32. -/
def Reg.inOrder : List Reg :=
  [.id, .cfg, .ctrl, .status, .cmd, .srcAddr, .srcLen, .dstAddr, .dstCap, .outLen, .inUsed, .bitCount, .symCount, .nodeCount,
    .treeRoot, .codeCount, .freqSel, .freqData, .treeSel, .treeNode, .treeFreq, .codeSel, .codeLen, .codeWord]

/-- The registers whose whole value a read returns while busy (R43). -/
def Reg.trueWhileBusy : List Reg := [.id, .cfg, .ctrl, .cmd, .srcAddr, .srcLen, .dstAddr, .dstCap]

theorem Reg.not_drawn_of_trueWhileBusy : ∀ r ∈ Reg.trueWhileBusy, drawnWhileBusy r = false ∧ r ≠ .status := by decide

theorem offsetOf_aligned (r : Reg) : offsetOf r < 256 ∧ offsetOf r % 4 = 0 := by cases r <;> decide

/-- The host's read of a register that is not arbitrary (R43, R108). -/
theorem step_read_offsetOf {s : State} {r : Reg} {rest : List HostOp} (hm : s.busy = false ∨ s.HostMovesBusy)
    (hr : s.busy = false ∨ (drawnWhileBusy r = false ∧ r ≠ .status))
    (hp : s.program = .read (s.params.regBase + offsetOf r) 4 :: rest) :
    step s = .next { s.hostStepped rest with readLog := some (regValue s r) :: s.readLog } := by
  obtain ⟨hlt, h4⟩ := offsetOf_aligned r
  rw [step_read_register hm hlt h4 hp, readReg_offsetOf (s := s.hostStepped rest) hr, regValue_hostStepped]

/-! ## Writes -/

/-- A parameter or select register is written only while idle (R43). -/
theorem writeReg_offsetOf {r : Reg} (hr : r ∉ [Reg.ctrl, .status, .cmd]) (s : State) (v : Word) :
    s.writeReg (offsetOf r) v = if s.busy then s else s.writeParam r v := by
  cases r with
  | ctrl | status | cmd => simp at hr
  | _ => rfl

theorem writeReg_reserved (s : State) (v : Word) {off : Nat} (h : 0x60 ≤ off) : s.writeReg off v = s := by
  rw [State.writeReg, regAt_reserved h]

section
variable {s : State} {r : Reg} {v : Word} {rest : List HostOp} (hr : r ∉ [Reg.ctrl, .status, .cmd])
  (hp : s.program = .write (s.params.regBase + offsetOf r) 4 v :: rest)
include hr hp

theorem step_write_of_idle (hidle : s.busy = false) : step s = .next ((s.hostStepped rest).writeParam r v) := by
  obtain ⟨hlt, h4⟩ := offsetOf_aligned r
  rw [step_write_register (.inl hidle) hlt h4 hp, writeReg_offsetOf hr, if_neg (by simp [hidle])]

theorem step_write_of_busy (hm : s.HostMovesBusy) : step s = .next (s.hostStepped rest) := by
  obtain ⟨hlt, h4⟩ := offsetOf_aligned r
  rw [step_write_register (.inr hm) hlt h4 hp, writeReg_offsetOf hr, if_pos hm.1]

end

/-- The parameter and select registers, which an idle write stores (R43). -/
def Reg.writtenWhenIdle : List Reg := [.srcAddr, .srcLen, .dstAddr, .dstCap, .bitCount, .freqSel, .treeSel, .codeSel]

/-- The registers of R32 that no host write changes. -/
def Reg.readOnly : List Reg :=
  [.id, .cfg, .outLen, .inUsed, .symCount, .nodeCount, .treeRoot, .codeCount, .freqData, .treeNode, .treeFreq, .codeLen, .codeWord]

theorem Reg.notMem_of_writtenWhenIdle : ∀ r ∈ Reg.writtenWhenIdle, r ∉ [Reg.ctrl, .status, .cmd] := by decide

theorem Reg.notMem_of_readOnly : ∀ r ∈ Reg.readOnly, r ∉ [Reg.ctrl, .status, .cmd] := by decide

theorem writeParam_of_readOnly (s : State) (v : Word) : ∀ r ∈ Reg.readOnly, s.writeParam r v = s := by
  simp [Reg.readOnly, State.writeParam]

theorem step_write_readOnly {s : State} {r : Reg} {v : Word} {rest : List HostOp} (hm : s.busy = false ∨ s.HostMovesBusy)
    (hr : r ∈ Reg.readOnly) (hp : s.program = .write (s.params.regBase + offsetOf r) 4 v :: rest) :
    step s = .next (s.hostStepped rest) := by
  rcases hm with hidle | hbusy
  · rw [step_write_of_idle (Reg.notMem_of_readOnly r hr) hp hidle, writeParam_of_readOnly _ _ r hr]
  · exact step_write_of_busy (Reg.notMem_of_readOnly r hr) hp hbusy

/-- A field of a word, as the statements write it (R58). -/
theorem extractLsb'_eq_ofNat_div (v : Word) : v.extractLsb' 8 3 = BitVec.ofNat 3 (v.toNat / 256) := by
  rw [BitVec.extractLsb', Nat.shiftRight_eq_div_pow]

end Sys2Proof.Machine

open Sys2Proof Sys2Proof.Machine

/-- Settles O43: each row is a register with its value, a reserved offset reads 0, and an idle `wait` is one read of STATUS. -/
theorem idleRegisterRead : Obligations.IdleRegisterRead := by
  intro s rest hidle
  refine ⟨fun e he hp => ?_, fun off hlow hhigh h4 hp => ?_, fun hp => ?_⟩
  · rw [← regValue_ctrl, ← regValue_freqSel, ← regValue_treeSel, ← regValue_codeSel] at he
    obtain ⟨r, -, rfl⟩ := List.mem_map.1 (show e ∈ Reg.inOrder.map fun r => (offsetOf r, regValue s r) from he)
    exact step_read_offsetOf (.inl hidle) (.inl hidle) hp
  · rw [step_read_register (.inl hidle) (by omega) h4 hp, readReg_reserved _ hlow]
  · rw [step_wait_of_idle hidle hp]
    exact congrArg _ (readReg_offsetOf (s := s.hostStepped rest) (r := .status) (.inl hidle))

/-- Settles O44: registers whose read is not arbitrary, and the STATUS bits outside the mask. -/
theorem busyRegisterRead : Obligations.BusyRegisterRead := by
  intro s rest hm
  refine ⟨fun e he hp => ?_, fun next hpoll => ?_⟩
  · rw [← regValue_ctrl] at he
    obtain ⟨r, hr, rfl⟩ := List.mem_map.1 (show e ∈ Reg.trueWhileBusy.map fun r => (offsetOf r, regValue s r) from he)
    exact step_read_offsetOf (.inr hm) (.inr (Reg.not_drawn_of_trueWhileBusy r hr)) hp
  · have hstep : step s = .next ((s.hostStepped next).readReg 0x0C) := by
      rcases hpoll with ⟨hp, rfl⟩ | ⟨hp, rfl⟩
      · exact step_read_register (.inr hm) (by decide) (by decide) hp
      · exact step_wait_of_busy hm hp
    refine ⟨statusRead s (Config.freeWord s.params s.draws), ?_, ?_⟩
    · rw [hstep, readReg_status_of_busy (s := s.hostStepped next) hm.1]
      rfl
    · refine ⟨?_, ?_, ?_, ?_, fun k hk => ?_⟩
      · rw [getLsbD_statusRead (by decide) (by decide), getLsbD_statusWord]
        simp [hm.1]
      · rw [getLsbD_statusRead (by decide) (by decide), getLsbD_statusWord]
        simp
      · rw [getLsbD_statusRead (by decide) (by decide), getLsbD_statusWord]
        simp
      · rw [getLsbD_statusRead (by decide) (by decide), getLsbD_statusWord]
        simp
      · exact getLsbD_statusRead_reserved k hk

/-- Settles O46: each offset is a register, written while idle and ignored while busy, or read-only, or reserved. -/
theorem parameterWrites : Obligations.ParameterWrites := by
  intro s v rest
  refine ⟨fun hidle => ⟨fun hp => ?_, fun hp => ?_, fun hp => ?_, fun hp => ?_, fun hp => ?_, fun hp => ?_, fun hp => ?_, fun hp => ?_⟩,
    fun hm off hoff hp => ?_, fun hm off hoff hp => ?_⟩
  · exact step_write_of_idle (r := .srcAddr) (by decide) hp hidle
  · exact step_write_of_idle (r := .srcLen) (by decide) hp hidle
  · exact step_write_of_idle (r := .dstAddr) (by decide) hp hidle
  · exact step_write_of_idle (r := .dstCap) (by decide) hp hidle
  · exact step_write_of_idle (r := .bitCount) (by decide) hp hidle
  · exact step_write_of_idle (r := .freqSel) (by decide) hp hidle
  · exact step_write_of_idle (r := .treeSel) (by decide) hp hidle
  · rw [← extractLsb'_eq_ofNat_div]
    exact step_write_of_idle (r := .codeSel) (by decide) hp hidle
  · obtain ⟨r, hr, rfl⟩ := List.mem_map.1 (show off ∈ Reg.writtenWhenIdle.map offsetOf from hoff)
    exact step_write_of_busy (Reg.notMem_of_writtenWhenIdle r hr) hp hm
  · rcases hoff with hoff | ⟨hlow, hhigh, h4⟩
    · obtain ⟨r, hr, rfl⟩ := List.mem_map.1 (show off ∈ Reg.readOnly.map offsetOf from hoff)
      exact step_write_readOnly hm hr hp
    · rw [step_write_register hm (by omega) h4 hp, writeReg_reserved _ _ hlow]

end

section
/-! PROOFS. The host and DMEM (20_memory.md R103, R106, R107, R114): loads, stores and accesses that are not admitted. -/

namespace Sys2Proof.Machine

/-! ## A DMEM access of the host -/

section
variable {s : State} {a n : Nat} {rest : List HostOp} (hm : s.busy = false ∨ s.HostMovesBusy) (hapart : s.params.apart)
  (hn : n ∈ [1, 2, 4]) (halign : a % n = 0) (hend : a + n ≤ s.params.dmemSize)
include hapart hn hend

theorem targetOf_dmemBase_add : targetOf s.params (s.params.dmemBase + a) = .memory a := by
  have hpos : 0 < n := (by decide : ∀ m ∈ [1, 2, 4], 0 < m) n hn
  exact (targetOf_memory_iff _ _ _ hapart).2 ⟨rfl, by omega⟩

include halign

theorem accessAdmitted_memory : accessAdmitted s.params (s.params.dmemBase + a) n = true := by
  simpa [accessAdmitted, targetOf_dmemBase_add hapart hn hend, halign, hend, or_assoc] using hn

include hm

/-- The host's read of DMEM, busy or not (R103, R114). -/
theorem step_read_memory (hp : s.program = .read (s.params.dmemBase + a) n :: rest) :
    step s = .next ((s.hostStepped rest).hostLoad a n) := by
  rw [step_eq_hostPerform hm hp (accessAdmitted_memory hapart hn halign hend)]
  simp only [State.hostPerform, State.busRead, targetOf_dmemBase_add hapart hn hend]

/-- The host's write to DMEM, busy or not (R103, R114). -/
theorem step_write_memory {v : Word} (hp : s.program = .write (s.params.dmemBase + a) n v :: rest) :
    step s = .next ((s.hostStepped rest).hostStore a (bytesOfWrite v n)) := by
  rw [step_eq_hostPerform hm hp (accessAdmitted_memory hapart hn halign hend)]
  simp only [State.hostPerform, State.busWrite, targetOf_dmemBase_add hapart hn hend]

end

/-! ## Stores -/

theorem getElem?_bytesOfWrite (v : Word) {n i : Nat} (h : i < n) :
    (bytesOfWrite v n)[i]? = some (BitVec.ofNat 8 (v.toNat / 256 ^ i)) := by
  rw [bytesOfWrite, List.getElem?_map, List.getElem?_range h, Option.map_some, BitVec.extractLsb', Nat.shiftRight_eq_div_pow,
    Nat.pow_mul]

/-- A stored byte outside every busy buffer is the value's (R103). -/
theorem get_hostStore_bytesOfWrite {s : State} {a n c : Nat} (v : Word) (hc : a ≤ c ∧ c < a + n) (hfree : inBusyBuffers s c = false) :
    (s.hostStore a (bytesOfWrite v n)).dmem.get c = some (BitVec.ofNat 8 (v.toNat / 256 ^ (c - a))) := by
  rw [hostStore_get, length_bytesOfWrite, if_pos hc, hfree, getElem?_bytesOfWrite v (by omega)]
  rfl

theorem inBusyBuffers_of_idle {s : State} (h : s.busy = false) (c : Nat) : inBusyBuffers s c = false := by
  rw [Bool.eq_false_iff, ne_eq, inBusyBuffers_iff]
  simp [h]

theorem inBusyBuffers_of_busy {s : State} (h : s.busy = true) (c : Nat) :
    inBusyBuffers s c = true ↔ s.UsesSource c ∨ s.UsesDest c := by
  rw [inBusyBuffers_iff]
  exact and_iff_right h

theorem inBusyBuffers_hostStoreByte (s : State) (a c : Nat) (v : Byte) :
    inBusyBuffers (s.hostStoreByte a v) c = inBusyBuffers s c := by
  simp only [State.hostStoreByte]
  split <;> rfl

theorem faults_hostStoreByte (s : State) (a : Nat) (v : Byte) : (s.hostStoreByte a v).faults =
    if inBusyBuffers s a then (ModelFault.hostWriteWhileBusy a).insert s.faults else s.faults := by
  simp only [State.hostStoreByte]
  split <;> rfl

/-- The faults after a store: those before, and one for each byte inside a busy buffer (R114, R430). -/
theorem mem_faults_hostStore (s : State) (a : Nat) (vs : List Byte) (f : ModelFault) :
    f ∈ (s.hostStore a vs).faults ↔
      f ∈ s.faults ∨ ∃ c, f = .hostWriteWhileBusy c ∧ a ≤ c ∧ c < a + vs.length ∧ inBusyBuffers s c = true := by
  induction vs generalizing s a with
  | nil =>
    refine ⟨.inl, ?_⟩
    rintro (h | ⟨c, -, hlow, hhigh, -⟩)
    · exact h
    · exact absurd hhigh (Nat.not_lt.2 hlow)
  | cons v vs ih =>
    have hbyte : f ∈ (s.hostStoreByte a v).faults ↔ f ∈ s.faults ∨ f = .hostWriteWhileBusy a ∧ inBusyBuffers s a = true := by
      rw [faults_hostStoreByte]
      cases inBusyBuffers s a with
      | false => simp
      | true => simp [ModelFault.mem_insert, or_comm]
    simp only [State.hostStore, ih, hbyte, inBusyBuffers_hostStoreByte, List.length_cons]
    constructor
    · rintro ((h | ⟨rfl, hin⟩) | ⟨c, rfl, hlow, hhigh, hin⟩)
      · exact .inl h
      · exact .inr ⟨a, rfl, le_rfl, by omega, hin⟩
      · exact .inr ⟨c, rfl, by omega, by omega, hin⟩
    · rintro (h | ⟨c, rfl, hlow, hhigh, hin⟩)
      · exact .inl (.inl h)
      · rcases Nat.eq_or_lt_of_le hlow with rfl | hlt
        · exact .inl (.inr ⟨rfl, hin⟩)
        · exact .inr ⟨c, rfl, hlt, by omega, hin⟩

theorem faults_hostStore_of_free {s : State} {a : Nat} {vs : List Byte}
    (h : ∀ c, a ≤ c → c < a + vs.length → inBusyBuffers s c = false) : (s.hostStore a vs).faults = s.faults := by
  induction vs generalizing s a with
  | nil => rfl
  | cons v vs ih =>
    rw [List.length_cons] at h
    rw [State.hostStore, ih fun c hlow hhigh => ?_, faults_hostStoreByte, h a le_rfl (by omega)]
    · rfl
    · rw [inBusyBuffers_hostStoreByte]
      exact h c (by omega) (by omega)

/-! ## Loads -/

theorem littleEndian_eq_sum (b : List Byte) :
    littleEndian b = ((List.range b.length).map fun k => (b.getD k 0).toNat * 256 ^ k).sum := by
  induction b with
  | nil => rfl
  | cons v vs ih =>
    simp only [littleEndian, ih, List.length_cons, List.range_succ_eq_map, List.map_cons, List.map_map, List.sum_cons,
      List.getD_cons_zero, pow_zero, mul_one, ← List.sum_map_mul_left]
    congr 2
    refine List.map_congr_left fun k _ => ?_
    simp only [Function.comp_apply, List.getD_cons_succ, Nat.succ_eq_add_one, pow_succ]
    ring

/-- The two spellings of a little-endian value agree. -/
theorem ofNat_littleEndian (b : List Byte) : BitVec.ofNat 32 (littleEndian b) = littleEndianWord b := by
  rw [littleEndian_eq_sum, littleEndianWord]

section
variable {s : State} {a n : Nat}

/-- A load every cell of which is in the busy destination range or holds a byte gets its bytes (R103, R114). -/
theorem exists_hostLoad_eq_value (h : ∀ k, k < n → inBusyDest s (a + k) = false → s.dmem.get (a + k) ≠ none) :
    ∃ b, b.length = n ∧ (∀ k, (hk : k < b.length) → inBusyDest s (a + k) = false → s.dmem.get (a + k) = some b[k]) ∧
      s.hostLoad a n =
        { s with readLog := some (littleEndianWord b) :: s.readLog, draws := (loadBytes s s.draws a n).1 } := by
  rcases hostLoad_cases s a n with ⟨b, hb, hload⟩ | ⟨c, hc, -⟩
  · obtain ⟨hlen, hcells⟩ := loadBytes_ok (Prod.ext rfl hb)
    exact ⟨b, hlen, hcells, by rw [hload, ofNat_littleEndian]⟩
  · obtain ⟨hlow, hhigh, hdest, hnone, -⟩ := loadBytes_error (Prod.ext rfl hc)
    obtain ⟨k, rfl⟩ := Nat.exists_eq_add_of_le hlow
    exact absurd hnone (h k (by omega) hdest)

/-- A load that touches an INDET cell outside the busy destination range records UninitRead of the first such cell (log entry 8). -/
theorem hostLoad_eq_fault {k : Nat} (hk : k < n) (hdest : inBusyDest s (a + k) = false) (hnone : s.dmem.get (a + k) = none)
    (hfirst : ∀ j, j < k → inBusyDest s (a + j) = true ∨ s.dmem.get (a + j) ≠ none) :
    s.hostLoad a n =
      State.recordFault { s with readLog := none :: s.readLog, draws := (loadBytes s s.draws a n).1 } (.uninitRead (a + k)) := by
  rcases hostLoad_cases s a n with ⟨b, hb, -⟩ | ⟨c, hc, hload⟩
  · obtain ⟨hlen, hcells⟩ := loadBytes_ok (Prod.ext rfl hb)
    cases hnone.symm.trans (hcells k (by omega) hdest)
  · obtain ⟨hlow, hhigh, hcdest, hcnone, hcfirst⟩ := loadBytes_error (Prod.ext rfl hc)
    obtain ⟨j, rfl⟩ := Nat.exists_eq_add_of_le hlow
    have hjk : j = k := by
      rcases Nat.lt_trichotomy j k with hlt | heq | hgt
      · rcases hfirst j hlt with hin | hbyte
        · cases hcdest.symm.trans hin
        · exact absurd hcnone hbyte
      · exact heq
      · rcases hcfirst (a + k) (by omega) (by omega) with hin | hbyte
        · cases hdest.symm.trans hin
        · exact absurd hnone hbyte
    rw [hload, hjk]

theorem inBusyDest_of_idle (h : s.busy = false) (c : Nat) : inBusyDest s c = false := by
  rw [Bool.eq_false_iff, ne_eq, inBusyDest_iff]
  simp [h]

theorem inBusyDest_of_busy (h : s.busy = true) (c : Nat) : inBusyDest s c = true ↔ s.UsesDest c := by
  rw [inBusyDest_iff]
  exact and_iff_right h

theorem inBusyDest_eq_false_of_busy (h : s.busy = true) (c : Nat) : inBusyDest s c = false ↔ ¬ s.UsesDest c := by
  rw [← inBusyDest_of_busy h c, Bool.not_eq_true]

end

/-! ## Accesses that are not admitted -/

theorem targetOf_outside {p : Params} {addr : Nat} (hreg : addr < p.regBase ∨ p.regBase + 256 ≤ addr)
    (hmem : addr < p.dmemBase ∨ p.dmemBase + p.dmemSize ≤ addr) : targetOf p addr = .nothing := by
  rw [targetOf, if_neg (by omega), if_neg (by omega)]

theorem step_of_not_admitted {s : State} {op : HostOp} {rest : List HostOp} (hs : s.busy = false ∨ s.stalled = true)
    (hp : s.program = op :: rest) (hop : admitted s.params op = false) : step s = .refused .hostAccessNotAdmitted := by
  have hturn : engineTurn s = false := by
    rcases hs with hidle | hstalled
    · simp [engineTurn, hidle]
    · simp [engineTurn, hstalled]
  simp [step, hturn, hostTurn, hp, hop]

end Sys2Proof.Machine

open Sys2Proof Sys2Proof.Machine

/-- Settles O50: the store rule, with no busy buffer in the way. -/
theorem hostStoreIsLittleEndian : Obligations.HostStoreIsLittleEndian := by
  intro s a n v rest hidle hapart hn halign hend hp
  have hfree (c : Nat) : inBusyBuffers (s.hostStepped rest) c = false := inBusyBuffers_of_idle hidle c
  refine ⟨_, step_write_memory (.inl hidle) hapart hn halign hend hp, ?_, fun c => ?_⟩
  · conv_lhs => rw [hostStore_frame, faults_hostStore_of_free fun c _ _ => hfree c]
  · split
    case isTrue hc => exact get_hostStore_bytesOfWrite v hc (hfree c)
    case isFalse hc => rw [hostStore_get, length_bytesOfWrite, if_neg hc]

/-- Settles O52: the store rule byte by byte, and the faults it records. -/
theorem hostWriteWhileBusy : Obligations.HostWriteWhileBusy := by
  intro s a n v rest hm hapart hn halign hend hp
  have hbuffers (c : Nat) : inBusyBuffers (s.hostStepped rest) c = true ↔ s.UsesSource c ∨ s.UsesDest c :=
    inBusyBuffers_of_busy (s := s.hostStepped rest) hm.1 c
  have hfree (c : Nat) (hsrc : ¬ s.UsesSource c) (hdst : ¬ s.UsesDest c) : inBusyBuffers (s.hostStepped rest) c = false :=
    Bool.eq_false_iff.2 fun h => ((hbuffers c).1 h).elim hsrc hdst
  refine ⟨_, step_write_memory (.inr hm) hapart hn halign hend hp, hostStore_frame _ _ _, fun c hlow hhigh huses => ?_,
    fun c hlow hhigh hsrc hdst => ?_, fun c hc => ?_, fun hnone => ?_, fun f hf => ?_⟩
  · refine (mem_faults_hostStore _ _ _ _).2 (.inr ⟨c, rfl, hlow, ?_, (hbuffers c).2 huses⟩)
    rwa [length_bytesOfWrite]
  · exact get_hostStore_bytesOfWrite v ⟨hlow, hhigh⟩ (hfree c hsrc hdst)
  · rw [hostStore_get, length_bytesOfWrite, if_neg (by omega)]
  · refine faults_hostStore_of_free fun c hlow hhigh => ?_
    obtain ⟨hsrc, hdst⟩ := hnone c hlow (by rwa [length_bytesOfWrite] at hhigh)
    exact hfree c hsrc hdst
  · rcases (mem_faults_hostStore _ _ _ _).1 hf with hold | ⟨c, hfault, hlow, hhigh, hin⟩
    · exact .inl hold
    · exact .inr ⟨c, hfault, hlow, by rwa [length_bytesOfWrite] at hhigh, (hbuffers c).1 hin⟩

/-- Settles O51: a load ends with its bytes or at the first INDET cell outside the busy destination range. -/
theorem hostLoad : Obligations.HostLoad := by
  intro s a n rest hapart hn halign hend hp
  refine ⟨fun hidle => ?_, fun hm => ?_⟩
  · have hstep := step_read_memory (.inl hidle) hapart hn halign hend hp
    have hdest (c : Nat) : inBusyDest (s.hostStepped rest) c = false := inBusyDest_of_idle hidle c
    have hdraws : (loadBytes (s.hostStepped rest) s.draws a n).1 = s.draws :=
      congrArg Prod.fst (loadBytes_idle (s.hostStepped rest) _ _ _ hidle)
    refine ⟨fun b hlen hbytes => ?_, fun k hk hnone hfirst => ?_⟩
    · obtain ⟨b', hlen', hbytes', hload⟩ := exists_hostLoad_eq_value (s := s.hostStepped rest) (a := a) (n := n)
        fun k hk _ => by rw [hbytes k (by omega)]; simp
      have hb : b' = b := List.ext_getElem (by omega) fun k h1 h2 =>
        Option.some.inj ((hbytes' k h1 (hdest _)).symm.trans (hbytes k h2))
      rw [hstep, hload, hdraws, hb]
    · refine ⟨_, hstep, ?_, ?_⟩ <;>
        rw [hostLoad_eq_fault hk (hdest _) hnone fun j hj => .inr (hfirst j hj)]
      · exact (ModelFault.mem_insert _ _ _).2 (.inl rfl)
      · conv_lhs => rw [hdraws]
        rfl
  · have hstep := step_read_memory (.inr hm) hapart hn halign hend hp
    have hdest (c : Nat) : inBusyDest (s.hostStepped rest) c = true ↔ s.UsesDest c :=
      inBusyDest_of_busy (s := s.hostStepped rest) hm.1 c
    have hfree (c : Nat) : inBusyDest (s.hostStepped rest) c = false ↔ ¬ s.UsesDest c :=
      inBusyDest_eq_false_of_busy (s := s.hostStepped rest) hm.1 c
    refine ⟨fun hbytes => ?_, fun k hk huses hnone hfirst => ?_⟩
    · obtain ⟨b, hlen, hcells, hload⟩ := exists_hostLoad_eq_value (s := s.hostStepped rest) (a := a) (n := n)
        fun k hk hd => hbytes k hk ((hfree _).1 hd)
      refine ⟨_, b, hstep, hlen, fun k hk huses => hcells k hk ((hfree _).2 huses), ?_⟩
      rw [hload]
    · refine ⟨_, hstep, ?_, ?_⟩ <;>
        rw [hostLoad_eq_fault hk ((hfree _).2 huses) hnone fun j hj => (hfirst j hj).imp_left (hdest _).2]
      · exact (ModelFault.mem_insert _ _ _).2 (.inl rfl)
      · rfl

/-- Settles O53: in each case the address reaches no place that admits the access. -/
theorem hostAccessNotAdmitted : Obligations.HostAccessNotAdmitted := by
  intro s addr n rest hs hapart hp hbad
  have hrefused : accessAdmitted s.params addr n = false := by
    rcases hbad with ⟨hreg, hmem⟩ | ⟨off, hoff, rfl, hbad⟩ | ⟨a, ha, rfl, hbad⟩
    · rw [accessAdmitted, targetOf_outside hreg hmem]
    · rw [accessAdmitted, targetOf_regBase_add _ hoff]
      rcases hbad with hbad | hbad <;> simp [hbad]
    · rw [accessAdmitted, (targetOf_memory_iff _ _ _ hapart).2 ⟨rfl, ha⟩]
      rcases hbad with hbad | hbad | hbad
      · simp only [List.mem_cons, List.not_mem_nil, or_false, not_or] at hbad
        simp [hbad]
      · simp [hbad]
      · simp [Nat.not_le.2 hbad]
  rcases hp with hp | ⟨v, hp⟩
  · exact step_of_not_admitted hs hp hrefused
  · exact step_of_not_admitted hs hp hrefused

end

section
/-! PROOFS. What each command leaves when it succeeds (40_command_common.md R186 to R188), command by command. -/

namespace Sys2Proof.Machine

/-! ## Successful completions -/

/-- The length of the source bytes is SRC_LEN. -/
theorem ofNat_length_of_sourceHolds {s : State} {b : List Byte} (h : s.SourceHolds b) : BitVec.ofNat 32 b.length = s.srcLen := by
  obtain ⟨hlen, -⟩ := h
  rw [hlen, BitVec.ofNat_toNat, BitVec.setWidth_eq]

/-- A success with a destination that fits and no table update (R186, R188). -/
theorem completeOk_keepsTables {s : State} {out : List Byte} {used : Nat} {w : Word} (info : Info) (bc : Option Nat)
    (hfit : out.length ≤ s.dstCap.toNat) (hused : BitVec.ofNat 32 used = w) {t : State}
    (ht : t = s.completeOk true ⟨out, used, info, bc, TableUpdates.none⟩) :
    SucceededFrom s t out.length w info ((bc.map (BitVec.ofNat 32)).getD s.bitCount) ∧ StoredAtDest s t out ∧ SameFreq s t ∧
      SameTree s t ∧ SameCode s t ∧ SameOperands s t := by
  subst ht hused
  have htables := tablesUpdated_completeOk s true ⟨out, used, info, bc, TableUpdates.none⟩
  exact ⟨succeededFrom_completeOk hfit, storedAtDest_completeOk s _, htables.sameFreq rfl, htables.sameTree rfl,
    htables.sameCode rfl, sameOperands_completeOk s true _⟩

/-- A pipeline command's success that fits: only the code table stays valid (R331, R351). -/
theorem completeOk_keepsOnlyCode {s : State} {out : List Byte} {used : Nat} {c : CodeTable} {w : Word} (info : Info) (bc : Nat)
    (hfit : out.length ≤ s.dstCap.toNat) (hused : BitVec.ofNat 32 used = w) {t : State}
    (ht : t = s.completeOk true ⟨out, used, info, some bc, keepOnlyCode c⟩) :
    SucceededFrom s t out.length w info (BitVec.ofNat 32 bc) ∧ StoredAtDest s t out ∧ FreqCleared t ∧ TreeCleared t ∧
      t.code = c ∧ t.codeValid = true ∧ SameOperands s t := by
  subst ht hused
  exact ⟨succeededFrom_completeOk hfit, storedAtDest_completeOk s _, freqCleared_completeOk true rfl, treeCleared_completeOk true rfl,
    rfl, rfl, sameOperands_completeOk s true _⟩

/-- A command without a destination that passes its prechecks and succeeds (R186). -/
theorem runCommand_noDest {sh : Shape} {s : State} {b : List Byte} {body : List Byte → Result} {r : Success}
    (hdest : sh.dest = false) (hpre : precheck sh s = none) (hbytes : sourceBytes sh s = .ok b) (hr : body b = .ok r) :
    runCommand sh body s = .next (s.completeOk false r) := by
  have hcheck : checkOverflow sh s (body b) = .ok r :=
    hr ▸ (checkOverflow_ok_iff sh s r r).2 ⟨rfl, fun h => by rw [hdest] at h; cases h⟩
  rw [runCommand_ready body hpre hbytes, hcheck, applyResult, hdest]

/-- A command with a source and no destination needs only its source inside DMEM (R183). -/
theorem precheck_sourceOnly {sh : Shape} {s : State} (hdest : sh.dest = false) (hprereq : sh.prereq = none) (hsrc : s.SrcInside) :
    precheck sh s = none :=
  (precheck_none_iff sh s).2 ⟨fun _ => hsrc, by simp [hdest], by simp [hdest], by rw [hprereq]; rfl⟩

/-- A command without buffers needs only its table (R185). -/
theorem precheck_noBuffers {sh : Shape} {s : State} (hsrc : sh.source = false) (hdest : sh.dest = false)
    (hpre : prereqHolds sh.prereq s = true) : precheck sh s = none :=
  (precheck_none_iff sh s).2 ⟨by simp [hsrc], by simp [hdest], by simp [hsrc], hpre⟩

/-- HDR_SERIALIZE with a header that fits (R265). -/
theorem exec_hdrSerialize {s : State} (hdst : s.DstInside) (hvalid : s.codeValid = true)
    (hfit : (serializeHeader s.code).length ≤ s.dstCap.toNat) : exec .hdrSerialize s =
      .next (s.completeOk true ⟨serializeHeader s.code, 0, Info.none, none, TableUpdates.none⟩) := by
  have hcheck := (checkOverflow_ok_iff (shapeOf .hdrSerialize) s ⟨serializeHeader s.code, 0, Info.none, none, TableUpdates.none⟩ _).2
    ⟨rfl, fun _ => hfit⟩
  refine (runCommand_ready (fun _ => hdrSerializeResult s.code) (precheck_hdrSerialize hdst hvalid) rfl).trans ?_
  rw [hdrSerializeResult, hcheck]
  rfl

theorem treeBuildResult_of_treeOf {f : FreqTable} {t : Tree} {deg : Bool} (h : treeOf f = some (t, deg)) :
    treeBuildResult f = .ok ⟨[], 0, ⟨false, deg, false⟩, none, ⟨.keep, .set t, .keep⟩⟩ := by
  rw [treeBuildResult, h]

/-- TREE_BUILD of a table with a tree leaves that tree valid (R243). -/
theorem treeBuild_completes {s : State} {tree : Tree} {deg : Bool} (hvalid : s.freqValid = true)
    (htree : treeOf s.freq = some (tree, deg)) : ∃ t, exec .treeBuild s = .next t ∧
      SucceededFrom s t 0 0 ⟨false, deg, false⟩ s.bitCount ∧ t.nodes = tree.nodes ∧ t.root = tree.root ∧ t.treeValid = true ∧
      t.dmem = s.dmem ∧ SameFreq s t ∧ SameCode s t ∧ SameOperands s t := by
  have htables := tablesUpdated_completeOk s false ⟨[], 0, ⟨false, deg, false⟩, none, ⟨.keep, .set tree, .keep⟩⟩
  exact ⟨_, runCommand_noDest (sh := shapeOf .treeBuild) (body := fun _ => treeBuildResult s.freq) rfl
      (precheck_noBuffers rfl rfl hvalid) rfl (treeBuildResult_of_treeOf htree),
    succeededFrom_completeOk_noDest s _, rfl, rfl, rfl, rfl, htables.sameFreq rfl, htables.sameCode rfl,
    sameOperands_completeOk s false _⟩

theorem hdrParseResult_of_parseHeader {h : List Byte} {p : ParsedHeader} (hp : parseHeader h = .ok p) :
    hdrParseResult h = .ok ⟨[], p.used, Info.none, none, ⟨.keep, .set p.tree, .set p.code⟩⟩ := by
  rw [hdrParseResult, hp]

/-- COMPRESS of a non-empty input within R7's bound, through the tree of its pairs (R331, R333). -/
theorem exists_treeOf_compressResult {b : List Byte} (hne : b ≠ []) (hlen : b.length ≤ 2 ^ 28) :
    ∃ tree deg, treeOf (analyze (rleEncode b)) = some (tree, deg) ∧
      compressResult b = .ok (compressSuccess b (deriveCodes tree) deg) := by
  obtain ⟨-, c, deg, -, -, hok⟩ := exists_compressResult_eq_ok hne hlen
  rcases compressResult_cases b with h | h | h | h
  · cases h.symm.trans hok
  · cases h.symm.trans hok
  · cases congrArg (·.info.empty) (Except.ok.inj (h.symm.trans hok))
  · exact h

/-- A source on a platform within R7's bound. -/
theorem length_le_of_readyWith {s : State} {b : List Byte} (hsize : s.params.sizeOk) (h : s.ReadyWith b) : b.length ≤ 2 ^ 28 := by
  obtain ⟨hsrc, -, -, hlen, -⟩ := h
  have hmax : s.params.dmemSize ≤ 2 ^ 28 := hsize.2
  rw [hlen]
  exact (Nat.le_add_left _ _).trans (hsrc.trans hmax)

/-! ## The length of a header -/

theorem length_bytes_serializedEntry {c : CodeTable} {e : HeaderEntry} (he : e ∈ serializedEntries c) :
    e.bytes.length = 2 + ceilDiv e.bits.length 8 := by
  obtain ⟨x, -, rfl⟩ := List.mem_map.1 he
  simp only [HeaderEntry.bytes, List.length_cons, length_bytesOfBits]
  exact Nat.add_comm _ 2

theorem length_serializeHeader (c : CodeTable) :
    (serializeHeader c).length = 1 + ((serializedEntries c).map fun e => 2 + ceilDiv e.bits.length 8).sum := by
  rw [serializeHeader_eq_headerBytesOf, headerBytesOf, List.length_cons, List.length_flatMap,
    List.map_congr_left fun e he => length_bytes_serializedEntry he, Nat.add_comm]

/-- A code of at most 255 bits takes at most 34 header bytes, and there are at most 256 codes (R264). -/
theorem length_serializeHeader_le {c : CodeTable} (h : c.wf) : (serializeHeader c).length ≤ 8705 := by
  obtain ⟨t, ht, rfl⟩ := h
  obtain ⟨T, -, -, hcodes⟩ := codesFrom_deriveCodes ht
  have hfew := (hcodes.length_entries_bounds (map_code_serializedEntries _)).2
  have hentry : ∀ n ∈ (serializedEntries (deriveCodes t)).map (fun e => 2 + ceilDiv e.bits.length 8), n ≤ 34 := by
    refine List.forall_mem_map.2 (List.forall_mem_map.2 fun x _ => ?_)
    have hbits := hcodes.length_get_le x
    simp only [ceilDiv]
    omega
  have hsum := List.sum_le_card_nsmul _ 34 hentry
  rw [List.length_map, smul_eq_mul] at hsum
  rw [length_serializeHeader]
  omega

end Sys2Proof.Machine

open Sys2Proof Sys2Proof.Machine

/-- Settles O15: the function always succeeds, so the fit is the only condition. -/
theorem rleEncodeCompletes : Obligations.RleEncodeCompletes := fun _ _ h hfit =>
  have ⟨_, _, _, hholds⟩ := h
  ⟨_, runCommand_eq_completeOk (sh := shapeOf .rleEncode) rfl rfl h rfl hfit,
    completeOk_keepsTables _ _ hfit (ofNat_length_of_sourceHolds hholds) rfl⟩

/-- Settles O16: well-formed pairs make the function succeed. -/
theorem rleDecodeCompletes : Obligations.RleDecodeCompletes := fun _ _ _ h hdecode hfit =>
  have ⟨_, _, _, hholds⟩ := h
  ⟨_, runCommand_eq_completeOk (sh := shapeOf .rleDecode) rfl rfl h (rleDecodeResult_of_some hdecode) hfit,
    completeOk_keepsTables _ _ hfit (ofNat_length_of_sourceHolds hholds) rfl⟩

/-- Settles O17: the counts are the tabulated ones of `analyze`. -/
theorem freqAnalyzeCompletes : Obligations.FreqAnalyzeCompletes := by
  intro s b hsrc hholds
  have htables := tablesUpdated_completeOk s false ⟨[], b.length, Info.none, none, ⟨.set (analyze b), .keep, .keep⟩⟩
  refine ⟨_, runCommand_noDest (sh := shapeOf .freqAnalyze) rfl (precheck_sourceOnly rfl rfl hsrc)
    (sourceBytes_of_sourceHolds rfl hholds) rfl, ?_, rfl, Table.get_tabulate fun x => BitVec.ofNat 32 (b.count x), rfl, htables.sameTree rfl,
    htables.sameCode rfl, sameOperands_completeOk s false _⟩
  rw [← ofNat_length_of_sourceHolds hholds]
  exact succeededFrom_completeOk_noDest s _

/-- Settles O18: the tree of one symbol, and of two or more. -/
theorem treeBuildCompletes : Obligations.TreeBuildCompletes := fun _ hvalid =>
  ⟨fun _ hone => treeBuild_completes hvalid (treeOf_of_singleton hone), fun htwo => treeBuild_completes hvalid (treeOf_of_two_le htwo)⟩

/-- Settles O19: the function always succeeds. -/
theorem codeDeriveCompletes : Obligations.CodeDeriveCompletes := fun s hvalid =>
  have htables := tablesUpdated_completeOk s false ⟨[], 0, Info.none, none, ⟨.keep, .keep, .set (deriveCodes ⟨s.nodes, s.root⟩)⟩⟩
  ⟨_, runCommand_noDest (sh := shapeOf .codeDerive) (body := fun _ => codeDeriveResult ⟨s.nodes, s.root⟩) rfl
      (precheck_noBuffers rfl rfl hvalid) rfl rfl,
    succeededFrom_completeOk_noDest s _, rfl, rfl, rfl, htables.sameFreq rfl, htables.sameTree rfl, sameOperands_completeOk s false _⟩

/-- Settles O20: the header is the listing of the serialized entries. -/
theorem hdrSerializeCompletes : Obligations.HdrSerializeCompletes := by
  refine ⟨fun s hdst hvalid hfit => ⟨_, exec_hdrSerialize hdst hvalid hfit, completeOk_keepsTables _ _ hfit rfl rfl⟩,
    fun c => ⟨serializedEntries c, serializeHeader_eq_headerBytesOf c, ?_, List.forall_mem_map.2 fun x _ => ?_,
      length_serializeHeader c, fun hwf => ⟨?_, length_serializeHeader_le hwf⟩⟩⟩
  · rw [serializedEntries, List.map_map, ← allBytes, ← codedSymbols_eq_filter_ne_nil]
    exact List.map_id _
  · exact ⟨rfl, fieldPadded_bytesOfBits _⟩
  · obtain ⟨t, ht, rfl⟩ := hwf
    obtain ⟨T, -, -, hcodes⟩ := codesFrom_deriveCodes ht
    exact (hcodes.length_entries_bounds (map_code_serializedEntries _)).1

/-- Settles O21: an accepted header's tree has root 0 (R275). -/
theorem hdrParseCompletes : Obligations.HdrParseCompletes := by
  intro s h p hsrc hholds hparse
  obtain ⟨-, -, hroot, -⟩ := parseHeader_ok_cases hparse
  have htables := tablesUpdated_completeOk s false ⟨[], p.used, Info.none, none, ⟨.keep, .set p.tree, .set p.code⟩⟩
  exact ⟨_, runCommand_noDest (sh := shapeOf .hdrParse) rfl (precheck_sourceOnly rfl rfl hsrc) (sourceBytes_of_sourceHolds rfl hholds)
    (hdrParseResult_of_parseHeader hparse), succeededFrom_completeOk_noDest s _, rfl, hroot, rfl, rfl, rfl, rfl, htables.sameFreq rfl,
    sameOperands_completeOk s false _⟩

/-- Settles O22: coded symbols make the function succeed with their packed codes. -/
theorem packCompletes : Obligations.PackCompletes := by
  intro s b h hvalid hcoded hfit
  have ⟨_, _, _, hholds⟩ := h
  rw [← length_bytesOfBits] at hfit ⊢
  exact ⟨_, runCommand_eq_completeOk (sh := shapeOf .pack) rfl hvalid h (packResult_of_some (packBits_of_coded hcoded)) hfit,
    completeOk_keepsTables _ (some _) hfit (ofNat_length_of_sourceHolds hholds) rfl⟩

/-- Settles O23: bits that end on a code make the function succeed. -/
theorem unpackCompletes : Obligations.UnpackCompletes := fun _ _ _ h hvalid hunpack hfit =>
  ⟨_, runCommand_eq_completeOk (sh := shapeOf .unpack) rfl hvalid h (unpackResult_of_some hunpack) hfit,
    completeOk_keepsTables _ _ hfit rfl rfl⟩

/-- Settles O25: the pairs have a tree that codes them all, so only the fit is left. -/
theorem compressCompletes : Obligations.CompressCompletes := by
  intro s b hsize h hne
  have ⟨_, _, _, hholds⟩ := h
  obtain ⟨tree, deg, htree, hcompress⟩ := exists_treeOf_compressResult hne (length_le_of_readyWith hsize h)
  exact ⟨tree, deg, htree, fun hfit => ⟨_, runCommand_eq_completeOk (sh := shapeOf .compress) rfl rfl h hcompress hfit,
    completeOk_keepsOnlyCode _ _ hfit (ofNat_length_of_sourceHolds hholds) rfl⟩⟩

/-- Settles O26: the framing leaves the header, the bit count and the payload, and each stage succeeds. -/
theorem decompressCompletes : Obligations.DecompressCompletes := by
  intro s n bc h payload syms out p hready hpos hn hbc hparse hused hpayload hunpack hrle hout hfit
  have ⟨_, _, _, hholds⟩ := hready
  simp only [List.append_assoc] at hparse
  have hstream : decompressResult (0xA5 :: be32 n ++ h ++ be32 bc ++ payload) =
      .ok ⟨out, 5 + (h ++ (be32 bc ++ payload)).length, Info.none, some bc, keepOnlyCode p.code⟩ := by
    rw [List.append_assoc, List.append_assoc]
    exact (decompressResult_framed hpos hn _).trans
      ((decompressFrom_payload hbc hparse hused).trans (decompressPayload_eq_ok hpayload hunpack hrle hout))
  subst hout
  refine ⟨_, runCommand_eq_completeOk (sh := shapeOf .decompress) rfl rfl hready hstream hfit,
    completeOk_keepsOnlyCode _ _ hfit ?_ rfl⟩
  rw [← ofNat_length_of_sourceHolds hholds, List.append_assoc, List.append_assoc]
  exact congrArg _ (Nat.add_comm 5 _)

end

section
/-! PROOFS. The data errors: of the stage commands, and every `raise` of DECOMPRESS (48_huffman_decoder.md R351). -/

namespace Sys2Proof.Machine

/-! ## Error completions -/

/-- A command that passes its prechecks and whose function answers an error completes with it (R186, R187). -/
theorem runCommand_eq_completeError {sh : Shape} {s : State} {b : List Byte} {body : List Byte → Result} {e : ErrorKind} {g : Stage}
    (hpre : precheck sh s = none) (hbytes : sourceBytes sh s = .ok b) (hr : body b = .error (e, g)) :
    runCommand sh body s = .next (s.completeError sh.writes e g) := by
  rw [runCommand_ready body hpre hbytes, hr]
  rfl

theorem runCommand_eq_completeError_of_readyWith {sh : Shape} {s : State} {b : List Byte} {body : List Byte → Result} {e : ErrorKind}
    {g : Stage} (hsrc : sh.source = true) (hpre : prereqHolds sh.prereq s = true) (h : s.ReadyWith b) (hr : body b = .error (e, g)) :
    runCommand sh body s = .next (s.completeError sh.writes e g) := by
  have ⟨_, _, _, hholds⟩ := h
  exact runCommand_eq_completeError (precheck_eq_none_of_readyWith hpre h) (sourceBytes_of_sourceHolds hsrc hholds) hr

theorem packBits_of_uncoded {syms : List Byte} {c : CodeTable} (h : ∃ x ∈ syms, c.get x = []) : packBits syms c = none :=
  if_pos (by simpa using h)

theorem presentSymbols_of_zero {f : FreqTable} (h : ∀ x, f.get x = 0) : presentSymbols f = [] := by
  simp [presentSymbols, h]

/-! ## The stream before its header -/

theorem decompressResult_emptyMarker (rest : List Byte) :
    decompressResult (emptyMarker :: rest) = decompressEmpty (emptyMarker :: rest) := rfl

theorem decompressResult_huffmanMarker (rest : List Byte) :
    decompressResult (huffmanMarker :: rest) = decompressHuffman (huffmanMarker :: rest) := rfl

/-- The empty-stream branch with a nonzero length (R142). -/
theorem decompressEmpty_length {n : Nat} (hpos : 0 < n) (hn : n < 2 ^ 32) (rest : List Byte) :
    decompressEmpty (emptyMarker :: be32 n ++ rest) = .error (.malformedHeader, .headerParsing) := by
  have hlen : (emptyMarker :: be32 n ++ rest).length = rest.length + 5 := rfl
  have hread : rdBe32 (((emptyMarker :: be32 n ++ rest).drop 1).take 4) = n := rdBe32_be32 hn
  rw [decompressEmpty, hlen, hread, if_neg (by omega), if_pos hpos.ne']

/-- The empty-stream branch with bytes after the five (R142). -/
theorem decompressEmpty_trailing (x : Byte) (rest : List Byte) :
    decompressEmpty (emptyMarker :: be32 0 ++ x :: rest) = .error (.malformedHeader, .headerParsing) := by
  have hlen : (emptyMarker :: be32 0 ++ x :: rest).length = rest.length + 6 := rfl
  have hread : rdBe32 (((emptyMarker :: be32 0 ++ x :: rest).drop 1).take 4) = 0 := rdBe32_be32 (by decide)
  rw [decompressEmpty, hlen, hread, if_neg (by omega), if_neg (not_not.2 rfl), if_pos (by omega)]

theorem decompressHuffman_zeroLength (rest : List Byte) :
    decompressHuffman (huffmanMarker :: be32 0 ++ rest) = .error (.malformedHeader, .headerParsing) := by
  have hlen : (huffmanMarker :: be32 0 ++ rest).length = rest.length + 5 := rfl
  have hread : rdBe32 (((huffmanMarker :: be32 0 ++ rest).drop 1).take 4) = 0 := rdBe32_be32 (by decide)
  rw [decompressHuffman, hlen, if_neg (by omega), hread]
  exact if_pos rfl

theorem decompressResult_badMarker {m : Byte} (rest : List Byte) (hempty : m ≠ emptyMarker) (hhuffman : m ≠ huffmanMarker) :
    decompressResult (m :: rest) = .error (.malformedHeader, .headerParsing) := by
  rw [decompressResult, if_neg hempty, if_neg hhuffman]

/-! ## The stream after its header -/

section
variable {len n bc : Nat} {h rest syms out : List Byte} {p : ParsedHeader}

/-- After a header and a bit count what is left is the payload. -/
theorem decompressFrom_of_bitCount (hparse : parseHeader h = .ok p) (hlen : p.used + 4 ≤ h.length) :
    decompressFrom n h = decompressPayload (5 + h.length) n (rdBe32 ((h.drop p.used).take 4)) p (h.drop (p.used + 4)) := by
  rw [decompressFrom, hparse]
  exact if_neg (Nat.not_lt.2 hlen)

theorem decompressPayload_trailing (hlen : ceilDiv bc 8 < rest.length) :
    decompressPayload len n bc p rest = .error (.malformedHeader, .bitUnpacking) := by
  rw [decompressPayload, if_neg (Nat.lt_asymm hlen), if_pos hlen]

theorem decompressPayload_midCode (hlen : rest.length = ceilDiv bc 8) (hunpack : unpackBits rest bc p.tree = none) :
    decompressPayload len n bc p rest = .error (.truncatedStream, .bitUnpacking) := by
  rw [decompressPayload, if_neg hlen.not_lt, if_neg hlen.not_gt, hunpack]

/-- A payload that decodes leaves the RLE expansion. -/
theorem decompressPayload_decoded (hlen : rest.length = ceilDiv bc 8) (hunpack : unpackBits rest bc p.tree = some syms) :
    decompressPayload len n bc p rest = decompressExpand len n bc p.code syms := by
  rw [decompressPayload, if_neg hlen.not_lt, if_neg hlen.not_gt, hunpack]

theorem decompressExpand_badRun {c : CodeTable} (hrle : rleDecode syms = none) :
    decompressExpand len n bc c syms = .error (.malformedRun, .rleExpansion) := by
  rw [decompressExpand, hrle]

theorem decompressExpand_wrongLength {c : CodeTable} (hrle : rleDecode syms = some out) (hlen : out.length ≠ n) :
    decompressExpand len n bc c syms = .error (.malformedHeader, .rleExpansion) := by
  rw [decompressExpand, hrle]
  exact if_pos hlen

end

/-- A stream with a raw length in range, a header and a bit count leaves the payload (R351). -/
theorem decompressResult_payload {n : Nat} {h : List Byte} {p : ParsedHeader} (hpos : 0 < n) (hn : n < 2 ^ 32)
    (hparse : parseHeader h = .ok p) (hlen : p.used + 4 ≤ h.length) : decompressResult (huffmanMarker :: be32 n ++ h) =
      decompressPayload (5 + h.length) n (rdBe32 ((h.drop p.used).take 4)) p (h.drop (p.used + 4)) :=
  (decompressResult_framed hpos hn h).trans (decompressFrom_of_bitCount hparse hlen)

/-- Each listed raise is the answer of DECOMPRESS (R351). -/
theorem decompressResult_of_raises {b : List Byte} {e : ErrorKind} {g : Stage} (h : DecompressRaises b e g) :
    decompressResult b = .error (e, g) := by
  cases h with
  | noMarker => rfl
  | emptyCut rest hcut => exact if_pos (Nat.succ_lt_succ hcut)
  | emptyLength n rest hpos hn => exact (decompressResult_emptyMarker _).trans (decompressEmpty_length hpos hn rest)
  | emptyTrailing x rest => exact (decompressResult_emptyMarker _).trans (decompressEmpty_trailing x rest)
  | badMarker m rest hempty hhuffman => exact decompressResult_badMarker rest hempty hhuffman
  | lengthCut rest hcut => exact decompressResult_lengthCut hcut
  | zeroLength rest => exact (decompressResult_huffmanMarker _).trans (decompressHuffman_zeroLength rest)
  | header n h e hpos hn hparse => exact (decompressResult_framed hpos hn h).trans (decompressFrom_headerError hparse)
  | bitCountCut n h p hpos hn hparse hcut => exact (decompressResult_framed hpos hn h).trans (decompressFrom_bitCountCut hparse hcut)
  | payloadCut n h p hpos hn hparse hlen hcut =>
    exact (decompressResult_payload hpos hn hparse hlen).trans (decompressPayload_cut (by rw [List.length_drop]; omega))
  | payloadTrailing n h p hpos hn hparse hlong =>
    exact (decompressResult_payload hpos hn hparse (by omega)).trans (decompressPayload_trailing (by rw [List.length_drop]; omega))
  | midCode n h p hpos hn hparse hlen hunpack =>
    exact (decompressResult_payload hpos hn hparse (by omega)).trans
      (decompressPayload_midCode (by rw [List.length_drop]; omega) hunpack)
  | badRun n h p syms hpos hn hparse hlen hunpack hrle =>
    exact (decompressResult_payload hpos hn hparse (by omega)).trans
      ((decompressPayload_decoded (by rw [List.length_drop]; omega) hunpack).trans (decompressExpand_badRun hrle))
  | wrongLength n h p syms out hpos hn hparse hlen hunpack hrle hwrong =>
    exact (decompressResult_payload hpos hn hparse (by omega)).trans
      ((decompressPayload_decoded (by rw [List.length_drop]; omega) hunpack).trans (decompressExpand_wrongLength hrle hwrong))

end Sys2Proof.Machine

open Sys2Proof Sys2Proof.Machine

/-- Settles O27: the raise is the function's answer, and DECOMPRESS's write set is all three tables. -/
theorem decompressReportsEachDataError : Obligations.DecompressReportsEachDataError := fun s _ e g h hraise =>
  ⟨_, runCommand_eq_completeError_of_readyWith (sh := shapeOf .decompress) rfl rfl h (decompressResult_of_raises hraise),
    failedFrom_completeError s _ e g, freqCleared_completeError s e g rfl, treeCleared_completeError s e g rfl,
    codeCleared_completeError s e g rfl⟩

/-- Settles O28: each data error is the function's answer, and the write set follows the command. -/
theorem stageCommandsReportDataErrors : Obligations.StageCommandsReportDataErrors := by
  refine ⟨fun s p h hrle => ?_, fun s hvalid hzero => ?_, fun s h e hsrc hholds hparse => ?_, fun s b h hvalid huncoded => ?_,
    fun s p h hvalid hunpack => ?_⟩
  · have hr : rleDecodeResult p = .error (.malformedRun, .rleExpansion) := by rw [rleDecodeResult, hrle]
    exact ⟨_, runCommand_eq_completeError_of_readyWith (sh := shapeOf .rleDecode) rfl rfl h hr, failedFrom_completeError ..⟩
  · have hr : treeBuildResult s.freq = .error (.emptyInput, .treeBuilding) := by
      rw [treeBuildResult, treeOf_of_nil (presentSymbols_of_zero hzero)]
    exact ⟨_, runCommand_eq_completeError (sh := shapeOf .treeBuild) (body := fun _ => treeBuildResult s.freq)
        (precheck_noBuffers rfl rfl hvalid) rfl hr, failedFrom_completeError .., treeCleared_completeError _ _ _ rfl,
      (tablesUpdated_completeError ..).sameFreq rfl⟩
  · have hr : hdrParseResult h = .error (e, .headerParsing) := by rw [hdrParseResult, hparse]
    exact ⟨_, runCommand_eq_completeError (sh := shapeOf .hdrParse) (precheck_sourceOnly rfl rfl hsrc)
        (sourceBytes_of_sourceHolds rfl hholds) hr, failedFrom_completeError .., treeCleared_completeError _ _ _ rfl,
      codeCleared_completeError _ _ _ rfl, headerError_of_parseHeader hparse⟩
  · have hr : packResult s.code b = .error (.uncodedSymbol, .bitPacking) := by rw [packResult, packBits_of_uncoded huncoded]
    exact ⟨_, runCommand_eq_completeError_of_readyWith (sh := shapeOf .pack) rfl hvalid h hr, failedFrom_completeError ..⟩
  · have hr : unpackResult s.bitCount.toNat ⟨s.nodes, s.root⟩ p = .error (.truncatedStream, .bitUnpacking) := by
      rw [unpackResult, hunpack]
    exact ⟨_, runCommand_eq_completeError_of_readyWith (sh := shapeOf .unpack) rfl hvalid h hr, failedFrom_completeError ..⟩

end
